-- ==== Sys2Proof/Word.lean ====
section
/-! DEFINITION. The widths of PS2FRAME: every datum is a byte, a 16-bit command word or register value, or the
32-bit result register (20_memory.md R62, R64). -/

namespace Sys2Proof

/-- A queue element, an operand byte, a register number (20_memory.md R62). -/
abbrev Byte := BitVec 8

/-- A command word, an event code, a shift register, RES.VALUE (30_encoding.md R80, R87). -/
abbrev Word := BitVec 16

/-- The result register RES (10_state.md R21). -/
abbrev ResWord := BitVec 32

end Sys2Proof
end

