-- ==== Sys2Proof/Config.lean ====
section
/-! DEFINITION. The implementation parameters of 00_scope.md R9. They are not state (10_state.md R20) but arguments
of the model: every shared operation takes them as its argument `P`, and exec and step take them with the machine they
run on (`State.params`, Machine/State.lean). `Config.literals` holds the defaults, at which `State.reset` is taken. -/

namespace Sys2Proof

/-- The parameters whose default is a literal of the document (00_scope.md R9). `tmoGuard` has the 8 bits of
`bus_timeout` (10_state.md R25, 92 D39). The times are microseconds and are only written to WTRACE (R275). -/
structure Literals where
  rbCap     : Nat
  tmoGuard  : BitVec 8
  tInh      : Nat
  tStart    : Nat
  tLow      : Nat
  tSetup    : Nat
  tHold     : Nat
  nRecvMax  : Nat
  deriving DecidableEq, Repr

/-- The parameters a model takes as arguments (00_scope.md R9): the literals and the open one. -/
structure Params extends Literals where
  stRecvAck : Bool
  deriving DecidableEq, Repr

/-- `ST_RECV_ACK`, which the spec leaves open (R9, 43_selftimed_engine.md R180, 92 D21): a constant without a
body, so that nothing can be proved of its value (log 4). -/
opaque Config.stRecvAck : Bool

/-- The literals at the spec's defaults (R9). -/
def Config.literals : Literals where
  rbCap     := 16
  tmoGuard  := 10
  tInh      := 40
  tStart    := 40
  tLow      := 40
  tSetup    := 15
  tHold     := 15
  nRecvMax  := 100

/-- The parameters with literals `L`, ST_RECV_ACK left open. -/
def Literals.params (L : Literals) : Params := { L with stRecvAck := Config.stRecvAck }

/-- `RECV_ARM`, the value the arming edge loads (R9, fixed). -/
def Config.recvArm : Word := 0x800

/-- `FRAME_BITS`, the bit-times of a frame on the wire (R9, fixed). `SHIFT_W` = 16 is the type `Word`, and
`QUEUES_PER_PORT` = 4 is the type `QueueId`. -/
def Config.frameBits : Nat := 11

end Sys2Proof
end

