-- ==== Sys2Proof/Syntax.lean ====
section
/-! DEFINITION. The names of 00_scope.md R13 and one constructor for each row of spec/opcode_table.json
(30_encoding.md R83, R87). -/

namespace Sys2Proof

/-- The two ports: PD faces the peripheral, PH the computer (00_scope.md R2, R13). -/
inductive Port where
  | pd
  | ph
  deriving DecidableEq, Repr

/-- The two wires of a port (R13). -/
inductive Wire where
  | clk
  | data
  deriving DecidableEq, Repr

/-- The four queues of a port: IN, OUT, AUX0, AUX1 (R13, R17). -/
inductive QueueId where
  | inq
  | out
  | aux0
  | aux1
  deriving DecidableEq, Repr

/-- The twelve commands (30_encoding.md R83) and the two events (R87). The fields a row fixes (R84, R85) are no
operands. -/
inductive Instr where
  | rbInsert (p : Port) (q : QueueId) (v : Byte)
  | rbRemove (p : Port) (q : QueueId)
  | rbPeek (p : Port) (q : QueueId)
  | rbPushback (p : Port) (q : QueueId) (v : Byte)
  | irqSend (c : Byte)
  | stSend (c : Byte)
  | stRecv
  | tmoService
  | csEnter
  | csExit
  | relayStep
  | regRead (n : Byte)
  | evEdge
  | evTick
  deriving DecidableEq, Repr

/-- Where an instruction comes from: the command port, or one of the two event inputs outside the command
stream (30_encoding.md R80, R87). -/
inductive Source where
  | commandPort
  | eventInput
  deriving DecidableEq, Repr

end Sys2Proof
end

