-- ==== Sys2Proof/WellFormed.lean ====
section
/-! DEFINITION. The checks the types do not already make: an instruction on the input it belongs to, and the
bounds on the parameters that the rules' layouts need. -/

namespace Sys2Proof

/-- The source an instruction belongs to: events are "outside the command stream" (30_encoding.md R87). -/
def Instr.source : Instr → Source
  | .rbInsert _ _ _ => .commandPort
  | .rbRemove _ _ => .commandPort
  | .rbPeek _ _ => .commandPort
  | .rbPushback _ _ _ => .commandPort
  | .irqSend _ => .commandPort
  | .stSend _ => .commandPort
  | .stRecv => .commandPort
  | .tmoService => .commandPort
  | .csEnter => .commandPort
  | .csExit => .commandPort
  | .relayStep => .commandPort
  | .regRead _ => .commandPort
  | .evEdge => .eventInput
  | .evTick => .eventInput

/-- An instruction is well formed on an input exactly when it belongs to that input. Its operands are well formed
by their types: a port, a queue and a byte take every value their field has (R81). -/
def Instr.wellFormed (src : Source) (i : Instr) : Bool := i.source == src

/-- The parameter bounds the rules rest on (log 20): a ring has a slot (10_state.md R29, "mod RB_CAP"); a count
fits the 5 bits of Q_COUNT (R38); the guard value is not the 0 that means "no outstanding timeout" (R25); a stop bit
can be sampled at pulse 10 (43_selftimed_engine.md R179). -/
def Literals.wellFormed (L : Literals) : Bool :=
  decide (0 < L.rbCap) && decide (L.rbCap < 32) && L.tmoGuard != 0 && decide (10 ≤ L.nRecvMax)

end Sys2Proof
end

