-- ==== Sys2Proof/Decode.lean ====
section
/-! DEFINITION. Decoding of command words (30_encoding.md R81, R83, R85, R86, R90) and event codes (R87), total and
rejecting by name, the encoder and the assembler syntax (R88, R89). -/

namespace Sys2Proof

/-- Why a word names no instruction: the three cases of 30_encoding.md R86, and an event code that is none of
R87's two. -/
inductive DecodeError where
  | reservedBit      -- (b) Z = 1
  | reservedOpcode   -- (a) OP is 0x0, 0xD, 0xE or 0xF
  | fixedField       -- (c) a fixed field differs from its listed value
  | unknownEvent     -- no event of R87
  deriving DecidableEq, Repr

/-- What a decoder answers: exactly one instruction with its operands, or ILLEGAL (R90). -/
inductive Decoded where
  | instr (i : Instr)
  | illegal (why : DecodeError)
  deriving DecidableEq, Repr

/-- `OP = cw[15:12]` (R81). -/
def fieldOp (cw : Word) : BitVec 4 := cw.extractLsb' 12 4

/-- `P = cw[11]` (R81). -/
def fieldP (cw : Word) : BitVec 1 := cw.extractLsb' 11 1

/-- `Q = cw[10:9]` (R81). -/
def fieldQ (cw : Word) : BitVec 2 := cw.extractLsb' 9 2

/-- `Z = cw[8]` (R81). -/
def fieldZ (cw : Word) : Bool := cw.getLsbD 8

/-- `IMM8 = cw[7:0]` (R81). -/
def fieldImm (cw : Word) : Byte := cw.extractLsb' 0 8

/-- `port(P) = (P = 0 ? PD : PH)` (R81). -/
def portOf (b : BitVec 1) : Port := if b = 0#1 then .pd else .ph

/-- The queue a Q field names: 0 = IN, 1 = OUT, 2 = AUX0, 3 = AUX1 (R80, R81). -/
def queueOf (b : BitVec 2) : QueueId :=
  if b = 0#2 then .inq else if b = 1#2 then .out else if b = 2#2 then .aux0 else .aux1

/-- The instruction `i` when the row's fixed fields hold, else illegal for the reason (c) of R86. -/
def whenFixed (ok : Bool) (i : Instr) : Decoded := if ok then .instr i else .illegal .fixedField

/-- The decoding procedure of R90. -/
def decode (cw : Word) : Decoded :=
  if fieldZ cw then .illegal .reservedBit
  else match (fieldOp cw).toNat with
    | 0x1 => .instr (.rbInsert (portOf (fieldP cw)) (queueOf (fieldQ cw)) (fieldImm cw))
    | 0x2 => whenFixed (fieldImm cw == 0) (.rbRemove (portOf (fieldP cw)) (queueOf (fieldQ cw)))
    | 0x3 => whenFixed (fieldImm cw == 0) (.rbPeek (portOf (fieldP cw)) (queueOf (fieldQ cw)))
    | 0x4 => .instr (.rbPushback (portOf (fieldP cw)) (queueOf (fieldQ cw)) (fieldImm cw))
    | 0x5 => whenFixed (cw.extractLsb' 9 3 == 0b000#3) (.irqSend (fieldImm cw))
    | 0x6 => whenFixed (cw.extractLsb' 9 3 == 0b100#3) (.stSend (fieldImm cw))
    | 0x7 => whenFixed (cw.extractLsb' 0 12 == 0x800#12) .stRecv
    | 0x8 => whenFixed (cw.extractLsb' 0 12 == 0#12) .tmoService
    | 0x9 => whenFixed (cw.extractLsb' 0 12 == 0#12) .csEnter
    | 0xA => whenFixed (cw.extractLsb' 0 12 == 0#12) .csExit
    | 0xB => whenFixed (cw.extractLsb' 0 12 == 0#12) .relayStep
    | 0xC => whenFixed (cw.extractLsb' 9 3 == 0b000#3) (.regRead (fieldImm cw))
    | _ => .illegal .reservedOpcode

/-- The event codes of R87. -/
def decodeEvent (code : Word) : Decoded :=
  if code = 0x0001 then .instr .evEdge
  else if code = 0x0002 then .instr .evTick
  else .illegal .unknownEvent

/-- The decoder of an input: command words on the command port, event codes on the event inputs. -/
def decodeFrom : Source → Word → Decoded
  | .commandPort, w => decode w
  | .eventInput, w => decodeEvent w

/-- The instruction a table word stands for and the input it arrives on. The table lists command words and event
codes side by side; their codes are disjoint, because OP 0x0 is reserved among the command words (R83; log 10). -/
def tableWord (w : Word) : Source × Decoded :=
  match decode w with
  | .instr i => (.commandPort, .instr i)
  | .illegal why =>
    match decodeEvent w with
    | .instr i => (.eventInput, .instr i)
    | .illegal _ => (.commandPort, .illegal why)

/-- The instruction the decoder reads from a word of spec/opcode_table.json: every row has the one length of R80,
16 bits, and bits above `nbits` are 0. -/
def decodeTableWord (nbits w : Nat) : Option Instr :=
  if nbits ≤ 16 ∧ w < 2 ^ nbits then
    match (tableWord (BitVec.ofNat 16 w)).2 with
    | .instr i => some i
    | .illegal _ => none
  else none

/-! ## The encoder (R88) -/

/-- The P field of a port (R80). -/
def encodePort : Port → Word
  | .pd => 0
  | .ph => 1

/-- The Q field of a queue (R80). -/
def encodeQueue : QueueId → Word
  | .inq => 0
  | .out => 1
  | .aux0 => 2
  | .aux1 => 3

/-- `P*0x800 + Q*0x200`, the port and queue fields of a command word (R88). -/
def encodePQ (p : Port) (q : QueueId) : Word := encodePort p * 0x800 + encodeQueue q * 0x200

/-- The word of an instruction: the formulas of R88, and the event codes of R87. -/
def encode : Instr → Word
  | .rbInsert p q v => 0x1000 + encodePQ p q + v.setWidth 16
  | .rbRemove p q => 0x2000 + encodePQ p q
  | .rbPeek p q => 0x3000 + encodePQ p q
  | .rbPushback p q v => 0x4000 + encodePQ p q + v.setWidth 16
  | .irqSend c => 0x5000 + c.setWidth 16
  | .stSend c => 0x6800 + c.setWidth 16
  | .stRecv => 0x7800
  | .tmoService => 0x8000
  | .csEnter => 0x9000
  | .csExit => 0xA000
  | .relayStep => 0xB000
  | .regRead n => 0xC000 + n.setWidth 16
  | .evEdge => 0x0001
  | .evTick => 0x0002

/-! ## The assembler (R88, R89)

A line is its characters. What R88 does not say (blanks, an empty line, a numeral above 255, the case of hexadecimal
digits, the spelling of a Q_COUNT name) is log 21. -/

/-- Blanks separate words and mean nothing else (log 21). -/
def isBlank (c : Char) : Bool := c == ' ' || c == '\t'

/-- A line without its comment: "`;` starts a comment" (R88). -/
def stripComment (l : List Char) : List Char := l.takeWhile (· != ';')

/-- The value of a digit in base `b`. -/
def digitValue (b : Nat) (c : Char) : Option Nat :=
  let n :=
    if '0'.toNat ≤ c.toNat ∧ c.toNat ≤ '9'.toNat then c.toNat - '0'.toNat
    else if 'a'.toNat ≤ c.toNat ∧ c.toNat ≤ 'f'.toNat then c.toNat - 'a'.toNat + 10
    else if 'A'.toNat ≤ c.toNat ∧ c.toNat ≤ 'F'.toNat then c.toNat - 'A'.toNat + 10
    else b
  if n < b then some n else none

/-- The digits of a numeral in base `b`, at least one and with a value that is a byte. -/
def digitsByte (b : Nat) (l : List Char) : Option Byte :=
  match l.foldlM (fun acc c => (digitValue b c).map (acc * b + ·)) 0 with
  | none => none
  | some n => if l.isEmpty ∨ 256 ≤ n then none else some (BitVec.ofNat 8 n)

/-- A byte or register number "is written as a numeral (`0x41`, `65`, `0b01000001`)" (R88). -/
def numeral : List Char → Option Byte
  | '0' :: 'x' :: l => digitsByte 16 l
  | '0' :: 'b' :: l => digitsByte 2 l
  | l => digitsByte 10 l

/-- The register names of 10_state.md R38, blanks removed; "the name is replaced by its number" (R89). -/
def registerNames : List (String × Byte) :=
  [("PD_RECV_SHIFT", 0x00), ("PD_SEND_SHIFT", 0x01), ("PD_BUS_TIMEOUT", 0x02), ("PD_LINE", 0x03),
   ("PD_LAST_ERR", 0x04), ("PH_RECV_SHIFT", 0x08), ("PH_SEND_SHIFT", 0x09), ("PH_BUS_TIMEOUT", 0x0A),
   ("PH_LINE", 0x0B), ("PH_LAST_ERR", 0x0C), ("CTRL", 0x10)] ++
  [("Q_COUNT(PD,IN)", 0x20), ("Q_COUNT(PD,OUT)", 0x21), ("Q_COUNT(PD,AUX0)", 0x22), ("Q_COUNT(PD,AUX1)", 0x23),
   ("Q_COUNT(PH,IN)", 0x24), ("Q_COUNT(PH,OUT)", 0x25), ("Q_COUNT(PH,AUX0)", 0x26), ("Q_COUNT(PH,AUX1)", 0x27)]

/-- The operand of `reg.read`: a numeral or a register name (R88). -/
def registerOperand (l : List Char) : Option Byte :=
  match numeral l with
  | some n => some n
  | none => (registerNames.find? (fun e => e.1.toList == l)).map Prod.snd

/-- "Port operands are `pd` and `ph`" (R88). -/
def portOperand (l : List Char) : Option Port :=
  if l = "pd".toList then some .pd else if l = "ph".toList then some .ph else none

/-- "Queue operands are `in`, `out`, `aux0` and `aux1`" (R88). -/
def queueOperand (l : List Char) : Option QueueId :=
  if l = "in".toList then some .inq else if l = "out".toList then some .out
  else if l = "aux0".toList then some .aux0 else if l = "aux1".toList then some .aux1 else none

/-- The operands `P, Q` of a remove or a peek. -/
def portQueueOperands (l : List Char) : Option (Port × QueueId) :=
  match l.splitOn ',' with
  | [a, b] =>
    match portOperand a, queueOperand b with
    | some p, some q => some (p, q)
    | _, _ => none
  | _ => none

/-- The operands `P, Q, v` of an insert or a push-back. -/
def portQueueByteOperands (l : List Char) : Option (Port × QueueId × Byte) :=
  match l.splitOn ',' with
  | [a, b, c] =>
    match portOperand a, queueOperand b, numeral c with
    | some p, some q, some v => some (p, q, v)
    | _, _, _ => none
  | _ => none

/-- The command `i` where the syntax has no operand. -/
def noOperand (ops : List Char) (i : Instr) : Option Instr := if ops.isEmpty then some i else none

/-- The command of a mnemonic and its operand text, blanks removed (the table of R88). -/
def assembleCommand (mnemonic ops : List Char) : Option Instr :=
  if mnemonic = "rb.insert".toList then (portQueueByteOperands ops).map (fun x => .rbInsert x.1 x.2.1 x.2.2)
  else if mnemonic = "rb.remove".toList then (portQueueOperands ops).map (fun x => .rbRemove x.1 x.2)
  else if mnemonic = "rb.peek".toList then (portQueueOperands ops).map (fun x => .rbPeek x.1 x.2)
  else if mnemonic = "rb.pushback".toList then (portQueueByteOperands ops).map (fun x => .rbPushback x.1 x.2.1 x.2.2)
  else if mnemonic = "irq.send".toList then (numeral ops).map .irqSend
  else if mnemonic = "st.send".toList then (numeral ops).map .stSend
  else if mnemonic = "st.recv".toList then noOperand ops .stRecv
  else if mnemonic = "tmo.service".toList then noOperand ops .tmoService
  else if mnemonic = "cs.enter".toList then noOperand ops .csEnter
  else if mnemonic = "cs.exit".toList then noOperand ops .csExit
  else if mnemonic = "relay.step".toList then noOperand ops .relayStep
  else if mnemonic = "reg.read".toList then (registerOperand ops).map .regRead
  else none

/-- One line of assembly: the command words it stands for (one, or none for an empty line or a comment); `none` when
the line is not in the syntax of R88. -/
def assembleLine (line : String) : Option (List Word) :=
  let text := (stripComment line.toList).dropWhile isBlank
  if text.isEmpty then some []
  else
    (assembleCommand (text.takeWhile (!isBlank ·)) ((text.dropWhile (!isBlank ·)).filter (!isBlank ·))).map
      (fun i => [encode i])

/-! ## The opcode map (R83, R87) -/

/-- One row of the opcode map: a word selects it when `cw & mask = pattern`. -/
structure OpcodeRow where
  mnemonic : String
  source   : Source
  mask     : Word
  pattern  : Word
  deriving DecidableEq, Repr

/-- A word selects a row when `cw & mask = match` (R83). -/
def OpcodeRow.selectedBy (r : OpcodeRow) (cw : Word) : Bool := cw &&& r.mask == r.pattern

/-- The twelve command rows of R83 and the two event rows of R87. -/
def opcodeRows : List OpcodeRow :=
  [⟨"RB_INSERT", .commandPort, 0xF100, 0x1000⟩, ⟨"RB_REMOVE", .commandPort, 0xF1FF, 0x2000⟩,
   ⟨"RB_PEEK", .commandPort, 0xF1FF, 0x3000⟩, ⟨"RB_PUSHBACK", .commandPort, 0xF100, 0x4000⟩,
   ⟨"IRQ_SEND", .commandPort, 0xFF00, 0x5000⟩, ⟨"ST_SEND", .commandPort, 0xFF00, 0x6800⟩,
   ⟨"ST_RECV", .commandPort, 0xFFFF, 0x7800⟩, ⟨"TMO_SERVICE", .commandPort, 0xFFFF, 0x8000⟩,
   ⟨"CS_ENTER", .commandPort, 0xFFFF, 0x9000⟩, ⟨"CS_EXIT", .commandPort, 0xFFFF, 0xA000⟩,
   ⟨"RELAY_STEP", .commandPort, 0xFFFF, 0xB000⟩, ⟨"REG_READ", .commandPort, 0xFF00, 0xC000⟩,
   ⟨"EV_EDGE", .eventInput, 0xFFFF, 0x0001⟩, ⟨"EV_TICK", .eventInput, 0xFFFF, 0x0002⟩]

/-- The row of the opcode map that is an instruction's own. -/
def Instr.row : Instr → OpcodeRow
  | .rbInsert _ _ _ => ⟨"RB_INSERT", .commandPort, 0xF100, 0x1000⟩
  | .rbRemove _ _ => ⟨"RB_REMOVE", .commandPort, 0xF1FF, 0x2000⟩
  | .rbPeek _ _ => ⟨"RB_PEEK", .commandPort, 0xF1FF, 0x3000⟩
  | .rbPushback _ _ _ => ⟨"RB_PUSHBACK", .commandPort, 0xF100, 0x4000⟩
  | .irqSend _ => ⟨"IRQ_SEND", .commandPort, 0xFF00, 0x5000⟩
  | .stSend _ => ⟨"ST_SEND", .commandPort, 0xFF00, 0x6800⟩
  | .stRecv => ⟨"ST_RECV", .commandPort, 0xFFFF, 0x7800⟩
  | .tmoService => ⟨"TMO_SERVICE", .commandPort, 0xFFFF, 0x8000⟩
  | .csEnter => ⟨"CS_ENTER", .commandPort, 0xFFFF, 0x9000⟩
  | .csExit => ⟨"CS_EXIT", .commandPort, 0xFFFF, 0xA000⟩
  | .relayStep => ⟨"RELAY_STEP", .commandPort, 0xFFFF, 0xB000⟩
  | .regRead _ => ⟨"REG_READ", .commandPort, 0xFF00, 0xC000⟩
  | .evEdge => ⟨"EV_EDGE", .eventInput, 0xFFFF, 0x0001⟩
  | .evTick => ⟨"EV_TICK", .eventInput, 0xFFFF, 0x0002⟩

end Sys2Proof
end

