-- ==== Sys2Proof/Machine/State.lean ====
section
/-! DEFINITION. The state of PS2FRAME as plain data (10_state.md R20 to R37), the two fields of the outside world
(the command stream and the schedule), the ways a step can stop, and reset (R44, 70_reset_and_hazards.md R260). -/

namespace Sys2Proof.Machine

/-- A ring buffer (10_state.md R29): `head` points at the oldest element, `count` is the number of elements,
element k is `buf[(head + k) mod RB_CAP]`. -/
structure Ring where
  buf   : List Byte
  head  : Nat
  count : Nat
  deriving DecidableEq, Repr

/-- The state of one port (10_state.md R20, R23 to R29). A driver is `true` when released and `false` when it
drives the wire low (R26). `extClk` and `extData` are the other party's drivers (R27): the block reads them and
only the environment's turns write them. -/
structure PortState where
  recvShift  : Word
  sendShift  : Word
  busTimeout : BitVec 8
  outClk     : Bool
  outData    : Bool
  lastErr    : BitVec 4
  extClk     : Bool
  extData    : Bool
  qIn        : Ring
  qOut       : Ring
  qAux0      : Ring
  qAux1      : Ring
  deriving DecidableEq, Repr

/-- The blocking command in progress (`ST.op`, 10_state.md R35). -/
inductive StOp where
  | stSend
  | stRecv
  deriving DecidableEq, Repr

/-- `ST.pc`, the position within the micro-step sequence of a blocking command (R35): each constructor is one
micro-step of 43_selftimed_engine.md R170, a line primitive, a `wait`, or the register write group between two
of them. -/
inductive MicroPc where
  | readClk     -- read(PH, CLK): the inhibit check of ST_SEND, the entry guard of ST_RECV
  | readData    -- read(PH, DATA): the request-to-send check of ST_SEND, the entry guard of ST_RECV
  | begin       -- the register writes that set busy and op
  | driveData   -- set_high or set_low of PH.DATA for a frame bit
  | waitSetup   -- wait(T_SETUP)
  | clkLow      -- set_low(PH, CLK)
  | waitLow     -- wait(T_LOW)
  | clkHigh     -- set_high(PH, CLK)
  | waitHold    -- wait(T_HOLD)
  | sample      -- read(PH, DATA) after a pulse of ST_RECV
  | advance     -- the register writes that store a sample and step ST.i
  | ackLow      -- set_low(PH, DATA) of the acknowledge
  | ackHigh     -- set_high(PH, DATA) of the acknowledge
  | release     -- set_high(PH, DATA) of an abort or a failure
  | finish      -- the register writes that end the command
  deriving DecidableEq, Repr

/-- `ST`, the micro-step state of a blocking E_ST command (10_state.md R35). -/
structure StState where
  busy  : Bool
  op    : StOp
  frame : BitVec 11
  i     : Nat
  acc   : BitVec 9
  pc    : MicroPc
  deriving DecidableEq, Repr

/-- The direction of a log event (10_state.md R36). -/
inductive Dir where
  | c2p
  | p2c
  deriving DecidableEq, Repr

/-- One log event `(dir, byte)` (10_state.md R36). -/
structure LogEvent where
  dir  : Dir
  byte : Byte
  deriving DecidableEq, Repr

/-- One entry of the wire trace: `(p, w, v)` for a driver write, `(wait, t)` for a wait (10_state.md R37). -/
inductive WireEvent where
  | drive (p : Port) (w : Wire) (v : Bool)
  | wait (t : Nat)
  deriving DecidableEq, Repr

/-- Which agent moves next (00_scope.md R8), an environment's turn with the levels it sets its two drivers to
(R27, 70_reset_and_hazards.md R265). -/
inductive Turn where
  | ctrl
  | edge
  | tick
  | envP (clk data : Bool)
  | envH (clk data : Bool)
  deriving DecidableEq, Repr

/-- The status codes of 60_exceptions.md R231. -/
inductive Status where
  | ok
  | empty
  | full
  | refused
  | busy
  | inhibited
  | rts
  | noframe
  | parity
  | framing
  | timeout
  | illegal
  deriving DecidableEq, Repr

/-- What a command returns: the three arguments of `result(status, nv, value)` (10_state.md R21). -/
structure CmdResult where
  status : Status
  nv     : Bool
  value  : Word
  deriving DecidableEq, Repr

/-- The machine exec and step are run on. `pd` to `wtrace` are the record of 10_state.md R20, the whole of the
block's state. The other three fields are the model's own: `cmds` is what is left of the external command stream
(R43; log 6), `sched` the order in which the agents move next (20_memory.md R67; log 5), and `literals` the
parameters of 00_scope.md R9 that have a default, which are not state (R20) but arguments of the model: exec and step
take them with their one argument, and nothing writes them (log 3). -/
structure State where
  pd       : PortState
  ph       : PortState
  res      : ResWord
  ie       : Bool
  edgePend : Bool
  edgeOvr  : Bool
  tickFlag : Bool
  st       : StState
  log      : List LogEvent
  wtrace   : List WireEvent
  cmds     : List Word
  sched    : List Turn
  literals : Literals
  deriving DecidableEq, Repr

/-- The parameters the machine runs with (R9): its literals, and ST_RECV_ACK, which no state holds because nothing may
say what it is (log 4). -/
def State.params (s : State) : Params := s.literals.params

/-- There is no fault: "no fault state" and "no command, event or wire condition that stops CTRL or any other
agent" (60_exceptions.md R230; log 14). The type has no constructor, so no step can fault. -/
inductive Fault where
  deriving DecidableEq, Repr

/-- The refusals. -/
inductive Refusal where
  /-- Raised by exec's arm of an instruction that has no meaning yet; safe. No arm raises it. -/
  | notModelled (mnemonic : String)
  deriving DecidableEq, Repr

/-- An empty queue: `count = 0` and `head = 0` (R44); its slots hold 0x00, which the spec leaves unspecified and
no rule can observe (log 2). -/
def Ring.reset (L : Literals) : Ring where
  buf   := List.replicate L.rbCap 0
  head  := 0
  count := 0

/-- A port after reset (R44); the other party's drivers, a draw in the spec, are released (log 1). -/
def PortState.reset (L : Literals) : PortState where
  recvShift  := 0
  sendShift  := 0
  busTimeout := 0
  outClk     := true
  outData    := true
  lastErr    := 0
  extClk     := true
  extData    := true
  qIn        := Ring.reset L
  qOut       := Ring.reset L
  qAux0      := Ring.reset L
  qAux1      := Ring.reset L

/-- `ST` after reset: not busy (R44); its other fields are unspecified and unobservable (log 2). -/
def StState.reset : StState where
  busy  := false
  op    := .stSend
  frame := 0
  i     := 0
  acc   := 0
  pc    := .readClk

/-- The machine with literals `L` right after reset (10_state.md R44, 70_reset_and_hazards.md R260), with no
command word delivered yet and no schedule given (log 5, log 6). -/
def State.resetAt (L : Literals) : State where
  pd       := PortState.reset L
  ph       := PortState.reset L
  res      := 0
  ie       := true
  edgePend := false
  edgeOvr  := false
  tickFlag := false
  st       := StState.reset
  log      := []
  wtrace   := []
  cmds     := []
  sched    := []
  literals := L

/-- The machine with the spec's default parameters right after reset (00_scope.md R9; log 3). -/
def State.reset : State := State.resetAt Config.literals

end Sys2Proof.Machine
end

