-- ==== Sys2Proof/Machine/Flags.lean ====
section
/-! DEFINITION. The flag and status computations: parity (41_frame_codec.md R125, R126), the status codes
(60_exceptions.md R231), the layout of RES (10_state.md R21) and of the flag registers CTRL and LINE (R38). -/

namespace Sys2Proof.Machine

/-- `popcount(v)`, the number of set bits (00_scope.md R11). -/
def popcount {n : Nat} (v : BitVec n) : Nat := (List.range n).countP (fun k => v.getLsbD k)

/-- `odd_parity(d) = 1 ^ d[0] ^ … ^ d[7]` (R125). -/
def oddParity (d : Byte) : Bool :=
  true ^^ d.getLsbD 0 ^^ d.getLsbD 1 ^^ d.getLsbD 2 ^^ d.getLsbD 3 ^^
    d.getLsbD 4 ^^ d.getLsbD 5 ^^ d.getLsbD 6 ^^ d.getLsbD 7

/-- A 9-bit group passes the parity check exactly when its popcount is odd (R126). -/
def parityOk (g : BitVec 9) : Bool := popcount g % 2 == 1

/-- The 4-bit code of a status (R231). -/
def statusCode : Status → BitVec 4
  | .ok => 0
  | .empty => 1
  | .full => 2
  | .refused => 3
  | .busy => 4
  | .inhibited => 5
  | .rts => 6
  | .noframe => 7
  | .parity => 8
  | .framing => 9
  | .timeout => 10
  | .illegal => 15

/-- `{s[3:0], 3'b000, nv, 8'h00, v[15:0]}`, the layout of RES (R21). -/
def packRes (r : CmdResult) : ResWord :=
  statusCode r.status ++ 0#3 ++ BitVec.ofBool r.nv ++ 0#8 ++ r.value

/-- RES.STATUS (R21). -/
def resStatus (r : ResWord) : BitVec 4 := r.extractLsb' 28 4

/-- RES.NV (R21). -/
def resNv (r : ResWord) : Bool := r.getLsbD 24

/-- RES.VALUE (R21). -/
def resValue (r : ResWord) : Word := r.extractLsb' 0 16

/-- A bit placed at position `k` of a 16-bit register. -/
def bitAt (b : Bool) (k : Nat) : Word := (BitVec.ofBool b).setWidth 16 <<< k

/-- The four low bits of a register, bit 0 first. -/
def nibble (b0 b1 b2 b3 : Bool) : Word := bitAt b0 0 ||| bitAt b1 1 ||| bitAt b2 2 ||| bitAt b3 3

/-- Register 0x10, CTRL: `[0] IE, [1] EDGE_PEND, [2] EDGE_OVR, [3] TICK_FLAG` (R38). -/
def ctrlImage (s : State) : Word := nibble s.ie s.edgePend s.edgeOvr s.tickFlag

/-- The level of a wire is the wired-AND of the two drivers (R122; PRESUMED, log 16). -/
def wiredAnd (own other : Bool) : Bool := own && other

/-- A LINE register: `[0] out_clk, [1] out_data, [2] read(p, CLK), [3] read(p, DATA)` (R38). -/
def lineImage (x : PortState) : Word :=
  nibble x.outClk x.outData (wiredAnd x.outClk x.extClk) (wiredAnd x.outData x.extData)

end Sys2Proof.Machine
end

