-- ==== Sys2Proof/Machine/Codec.lean ====
section
/-! DEFINITION. The frame codec: the frame on the wire and its layouts in the engines' shift state
(41_frame_codec.md R127 to R132). -/

namespace Sys2Proof.Machine

/-- The 11 bit-times of a frame in time order: start 0, d[0] to d[7], odd parity, stop 1 (R127). -/
def wireFrame (d : Byte) : List Bool :=
  [false, d.getLsbD 0, d.getLsbD 1, d.getLsbD 2, d.getLsbD 3, d.getLsbD 4, d.getLsbD 5, d.getLsbD 6,
    d.getLsbD 7, oddParity d, true]

/-- E_IRQ's transmit pattern `zext_16(d) | (odd_parity(d) << 8) | (1 << 9) | (1 << 10)` (R128). -/
def irqPattern (d : Byte) : Word :=
  d.setWidth 16 ||| bitAt (oddParity d) 8 ||| bitAt true 9 ||| bitAt true 10

/-- E_ST's transmit frame `{1, odd_parity(d), d[7:0], 0}` (R129). -/
def stFrame (d : Byte) : BitVec 11 := 1#1 ++ BitVec.ofBool (oddParity d) ++ d ++ 0#1

/-- The completed-frame value `(1 << 15) | (odd_parity(d) << 14) | (zext_16(d) << 6) | 1` (R131). -/
def irqFrame (d : Byte) : Word :=
  bitAt true 15 ||| bitAt (oddParity d) 14 ||| d.setWidth 16 <<< 6 ||| bitAt true 0

/-- `stop = F[15]` (R130). -/
def frameStop (f : Word) : Bool := f.getLsbD 15

/-- The 9-bit group the parity check is over, `F[14:6]` (R148). -/
def frameGroup (f : Word) : BitVec 9 := f.extractLsb' 6 9

/-- `data = F[13:6]` (R130). -/
def frameData (f : Word) : Byte := f.extractLsb' 6 8

/-- The receive shift: right by one, the sample entering at bit 15 (R130, 42_irq_engine.md R146). -/
def shiftIn (d : Bool) (r : Word) : Word := r >>> 1 ||| bitAt d 15

/-- `ST.acc[k] <- b` (R132). -/
def setAccBit (acc : BitVec 9) (k : Nat) (b : Bool) : BitVec 9 :=
  acc &&& ~~~(1#9 <<< k) ||| (BitVec.ofBool b).setWidth 9 <<< k

end Sys2Proof.Machine
end

