-- ==== Sys2Proof/Machine/Ops.lean ====
section
/-! DEFINITION. The shared operations: ports and queues, the ring-buffer primitives (40_ring_buffer.md R101 to
R104), the line primitives (41_frame_codec.md R120 to R123), RES, LAST_ERR, LOG, waits, the environment's moves with
edge detection (42_irq_engine.md R140, R141), taking an edge event and returning from it (R142, R143,
60_exceptions.md R240, R241), the stuck-bus recovery (44_supervisor.md R202), and the other agents' turns between
two atomic units of CTRL (20_memory.md R65, R67). -/

namespace Sys2Proof.Machine

/-! ## Ports and queues -/

/-- The state of port `p`. -/
def getPort (p : Port) (s : State) : PortState :=
  match p with
  | .pd => s.pd
  | .ph => s.ph

/-- Change the state of port `p`. -/
def updPort (p : Port) (f : PortState → PortState) (s : State) : State :=
  match p with
  | .pd => { s with pd := f s.pd }
  | .ph => { s with ph := f s.ph }

/-- Queue `q` of a port (00_scope.md R17). -/
def PortState.queue (q : QueueId) (x : PortState) : Ring :=
  match q with
  | .inq => x.qIn
  | .out => x.qOut
  | .aux0 => x.qAux0
  | .aux1 => x.qAux1

/-- Replace queue `q` of a port. -/
def PortState.setQueue (q : QueueId) (r : Ring) (x : PortState) : PortState :=
  match q with
  | .inq => { x with qIn := r }
  | .out => { x with qOut := r }
  | .aux0 => { x with qAux0 := r }
  | .aux1 => { x with qAux1 := r }

/-- The queue `p.q`, "named by (P, Q)" (20_memory.md R60, 30_encoding.md R81). -/
def getQueue (p : Port) (q : QueueId) (s : State) : Ring := (getPort p s).queue q

/-- Replace the queue `p.q`. -/
def setQueue (p : Port) (q : QueueId) (r : Ring) (s : State) : State := updPort p (PortState.setQueue q r) s

/-! ## Ring buffers -/

/-- The form every ring keeps: RB_CAP slots, `head` an index, `count ≤ RB_CAP` (10_state.md R29, R39 (d)). -/
def Ring.wf (cap : Nat) (r : Ring) : Bool :=
  r.buf.length == cap && decide (r.head < cap) && decide (r.count ≤ cap)

/-- Slot `k` of a ring. A slot past the buffer's end, which no well-formed ring asks for, reads as 0 (log 17). -/
def Ring.slot (r : Ring) (k : Nat) : Byte := r.buf.getD k 0

/-- `seq(p, q)`, the FIFO sequence, oldest first (40_ring_buffer.md R100). -/
def Ring.seq (cap : Nat) (r : Ring) : List Byte :=
  (List.range r.count).map (fun k => r.slot ((r.head + k) % cap))

/-- `RB_insert` on one ring: append at the tail; `none` is FULL (R101). -/
def Ring.insert (cap : Nat) (v : Byte) (r : Ring) : Option Ring :=
  if r.count = cap then none
  else some { r with buf := r.buf.set ((r.head + r.count) % cap) v, count := r.count + 1 }

/-- `RB_remove` on one ring: take the head byte; `none` is EMPTY (R102). -/
def Ring.remove (cap : Nat) (r : Ring) : Option (Byte × Ring) :=
  if r.count = 0 then none
  else some (r.slot r.head, { r with head := (r.head + 1) % cap, count := r.count - 1 })

/-- `RB_peek` on one ring: the head byte; `none` is EMPTY (R103). -/
def Ring.peek (r : Ring) : Option Byte := if r.count = 0 then none else some (r.slot r.head)

/-- `RB_push_back` on one ring: put back at the head; `none` is FULL (R104). -/
def Ring.pushBack (cap : Nat) (v : Byte) (r : Ring) : Option Ring :=
  if r.count = cap then none
  else
    let h := (r.head + cap - 1) % cap
    some { buf := r.buf.set h v, head := h, count := r.count + 1 }

/-- `RB_insert(p, q, v)` (R101): a full queue is left as it is. -/
def rbInsert (P : Params) (p : Port) (q : QueueId) (v : Byte) (s : State) : Status × State :=
  match (getQueue p q s).insert P.rbCap v with
  | none => (.full, s)
  | some r => (.ok, setQueue p q r s)

/-- `RB_remove(p, q)` (R102). -/
def rbRemove (P : Params) (p : Port) (q : QueueId) (s : State) : Option Byte × State :=
  match (getQueue p q s).remove P.rbCap with
  | none => (none, s)
  | some (v, r) => (some v, setQueue p q r s)

/-- `RB_peek(p, q)` (R103): it writes no queue state. -/
def rbPeek (p : Port) (q : QueueId) (s : State) : Option Byte := (getQueue p q s).peek

/-- `RB_push_back(p, q, v)` (R104; log 13): a full queue is left as it is. -/
def rbPushBack (P : Params) (p : Port) (q : QueueId) (v : Byte) (s : State) : Status × State :=
  match (getQueue p q s).pushBack P.rbCap v with
  | none => (.full, s)
  | some r => (.ok, setQueue p q r s)

/-! ## Results, errors, log -/

/-- `result(status, nv, value)`: RES written whole (10_state.md R21). -/
def writeRes (r : CmdResult) (s : State) : State := { s with res := packRes r }

/-- `p.last_err <- status` (10_state.md R28). -/
def setLastErr (p : Port) (e : Status) (s : State) : State :=
  updPort p (fun x => { x with lastErr := statusCode e }) s

/-- `log(dir, byte)` (44_supervisor.md R211). -/
def appendLog (d : Dir) (c : Byte) (s : State) : State := { s with log := s.log ++ [⟨d, c⟩] }

/-- An illegal command word writes ILLEGAL into RES and changes nothing else (30_encoding.md R86; log 12). -/
def illegalWord (s : State) : State := writeRes ⟨.illegal, true, 0⟩ s

/-! ## Line primitives -/

/-- Write one of the block's own drivers of a port. -/
def PortState.setOut (w : Wire) (v : Bool) (x : PortState) : PortState :=
  match w with
  | .clk => { x with outClk := v }
  | .data => { x with outData := v }

/-- The block's own driver of a wire. -/
def PortState.getOut (w : Wire) (x : PortState) : Bool :=
  match w with
  | .clk => x.outClk
  | .data => x.outData

/-- The other party's driver of a wire. -/
def PortState.getExt (w : Wire) (x : PortState) : Bool :=
  match w with
  | .clk => x.extClk
  | .data => x.extData

/-- A driver write with its trace entry, which is appended "even when the driver already had that value"
(10_state.md R37). -/
def driveWire (p : Port) (w : Wire) (v : Bool) (s : State) : State :=
  { updPort p (PortState.setOut w v) s with wtrace := s.wtrace ++ [.drive p w v] }

/-- `set_high(p, w)` (R120). -/
def setHigh (p : Port) (w : Wire) (s : State) : State := driveWire p w true s

/-- `set_low(p, w)` (R121). -/
def setLow (p : Port) (w : Wire) (s : State) : State := driveWire p w false s

/-- `read(p, w)`: the wire's level at this instant (R122, R123). -/
def readWire (p : Port) (w : Wire) (s : State) : Bool :=
  wiredAnd ((getPort p s).getOut w) ((getPort p s).getExt w)

/-- `wait(t)`: it appends `(wait, t)` to WTRACE (43_selftimed_engine.md R170; its duration is not modelled,
log 15). -/
def waitFor (t : Nat) (s : State) : State := { s with wtrace := s.wtrace ++ [.wait t] }

/-! ## The environment and edge detection -/

/-- A qualified falling edge: ENV_P takes `PD.ext_clk` from 1 to 0 while `PD.out_clk = 1` (R140). -/
def qualifiedFall (clk : Bool) (s : State) : Bool := s.pd.outClk && s.pd.extClk && !clk

/-- The one-deep edge latch: a second edge sets EDGE_OVR and is lost (R140, R141). -/
def latchEdge (s : State) : State :=
  if s.edgePend then { s with edgeOvr := true } else { s with edgePend := true }

/-- A turn of ENV_P: both drivers of PD set, a qualified fall latched (R27, R140; log 19). -/
def envPTurn (clk data : Bool) (s : State) : State :=
  let moved := { s with pd := { s.pd with extClk := clk, extData := data } }
  if qualifiedFall clk s then latchEdge moved else moved

/-- A turn of ENV_H: both drivers of PH set; PH has no edge detection (R27, R140). -/
def envHTurn (clk data : Bool) (s : State) : State :=
  { s with ph := { s.ph with extClk := clk, extData := data } }

/-- A turn of TICK: `TICK_FLAG <- 1` (44_supervisor.md R200). -/
def tickTurn (s : State) : State := { s with tickFlag := true }

/-! ## Taking an edge event -/

/-- The transmit path of an edge: drive the low bit of `send_shift`, shift right (R145). -/
def edgeTransmit (s : State) : State :=
  updPort .pd (fun x => { x with sendShift := x.sendShift >>> 1 })
    (driveWire .pd .data (s.pd.sendShift.getLsbD 0) s)

/-- `recv_shift` after the shift of an edge: armed with 0x800 when it was 0, then shifted (R146). -/
def recvNext (d : Bool) (r : Word) : Word := shiftIn d (if r = 0 then Config.recvArm else r)

/-- What becomes of a complete frame `f`: accepted into PD.IN, or dropped with LAST_ERR (R148, R149). -/
def deliverFrame (P : Params) (f : Word) (s : State) : State :=
  if frameStop f && parityOk (frameGroup f) then
    match rbInsert P .pd .inq (frameData f) s with
    | (.full, t) => setLastErr .pd .full t
    | (_, t) => t
  else if frameStop f then setLastErr .pd .parity s
  else setLastErr .pd .framing s

/-- The receive path of an edge: shift, and on the marker at bit 0 clear and deliver (R146, R147). -/
def edgeReceive (P : Params) (s : State) : State :=
  let f := recvNext (readWire .pd .data s) s.pd.recvShift
  if f.getLsbD 0 then deliverFrame P f (updPort .pd (fun x => { x with recvShift := 0 }) s)
  else updPort .pd (fun x => { x with recvShift := f }) s

/-- Event entry and event: EDGE_PEND is cleared, the timeout reloaded, and the edge goes to the transmit path when
`send_shift != 0`, else to the receive path (R142, R143, R144). Entry saves no state, changes no mode and leaves IE
alone, and the return restores nothing (60_exceptions.md R240, R241), so this one operation is the whole of it. -/
def edgeService (P : Params) (s : State) : State :=
  let t := updPort .pd (fun x => { x with busTimeout := P.tmoGuard }) { s with edgePend := false }
  if t.pd.sendShift ≠ 0 then edgeTransmit t else edgeReceive P t

/-- The EDGE agent has a step: EDGE_PEND = 1 and IE = 1 (R142; between units, no unit is in progress). -/
def edgeEnabled (s : State) : Bool := s.edgePend && s.ie

/-- A turn of the EDGE agent: the service when it is enabled, else no step (R142; log 9). -/
def edgeTurn (P : Params) (s : State) : State := if edgeEnabled s then edgeService P s else s

/-! ## The stuck-bus recovery -/

/-- PD has a frame in progress: it is Receiving or Transmitting (10_state.md R40). -/
def pdBusy (s : State) : Bool := s.pd.recvShift != 0 || s.pd.sendShift != 0

/-- `recovery()` (44_supervisor.md R202): LAST_ERR if a frame was in progress, both PD drivers released, both shift
registers cleared. -/
def recovery (s : State) : State :=
  let t := if pdBusy s then setLastErr .pd .timeout s else s
  updPort .pd (fun x => { x with recvShift := 0, sendShift := 0 })
    (setHigh .pd .data (setHigh .pd .clk t))

/-! ## The other agents' turns between two atomic units of CTRL -/

/-- The turns up to and including the next `ctrl`, each taken in order (20_memory.md R67). `atEdge` says whether the
EDGE agent may step here: inside IRQ_SEND, which is atomic against it, it may not (42_irq_engine.md R142, R153;
log 9). After the schedule's end a pending enabled edge is serviced and CTRL goes on (log 5). -/
def othersMove (P : Params) (atEdge : Bool) : List Turn → State → State
  | [], s => { (if atEdge then edgeTurn P s else s) with sched := [] }
  | .ctrl :: rest, s => { s with sched := rest }
  | .edge :: rest, s => othersMove P atEdge rest (if atEdge then edgeTurn P s else s)
  | .tick :: rest, s => othersMove P atEdge rest (tickTurn s)
  | .envP clk data :: rest, s => othersMove P atEdge rest (envPTurn clk data s)
  | .envH clk data :: rest, s => othersMove P atEdge rest (envHTurn clk data s)

/-- The boundary between two atomic units of CTRL: any other agent may step (R65, R67). -/
def yieldTurn (P : Params) (s : State) : State := othersMove P true s.sched s

/-- The boundary at a `wait` of IRQ_SEND: ENV_P, ENV_H and TICK may step, EDGE may not (42_irq_engine.md R153). -/
def yieldInSend (P : Params) (s : State) : State := othersMove P false s.sched s

end Sys2Proof.Machine
end

