-- ==== Sys2Proof/Machine/Operands.lean ====
section
/-! DEFINITION. The operand forms of the commands (30_encoding.md R82): a byte operand is IMM8 itself, a port and a
queue are decoded by R81 (Decode.lean), and a register number is read through the table of 10_state.md R38. -/

namespace Sys2Proof.Machine

/-- A byte placed into RES.VALUE, `zext_16(c)` (R82). -/
def zext16 (c : Byte) : Word := c.setWidth 16

/-- The count of a queue as its register shows it: 5 bits, zero-extended (R38; log 17). -/
def queueCount (p : Port) (q : QueueId) (s : State) : Word := (BitVec.ofNat 5 (getQueue p q s).count).setWidth 16

/-- The value of register `n`, zero-extended to 16 bits (20_memory.md R64); `none` for a reserved number (R38). -/
def regValue (n : Byte) (s : State) : Option Word :=
  match n.toNat with
  | 0x00 => some s.pd.recvShift
  | 0x01 => some s.pd.sendShift
  | 0x02 => some (s.pd.busTimeout.setWidth 16)
  | 0x03 => some (lineImage s.pd)
  | 0x04 => some (s.pd.lastErr.setWidth 16)
  | 0x08 => some s.ph.recvShift
  | 0x09 => some s.ph.sendShift
  | 0x0A => some (s.ph.busTimeout.setWidth 16)
  | 0x0B => some (lineImage s.ph)
  | 0x0C => some (s.ph.lastErr.setWidth 16)
  | 0x10 => some (ctrlImage s)
  | 0x20 => some (queueCount .pd .inq s)
  | 0x21 => some (queueCount .pd .out s)
  | 0x22 => some (queueCount .pd .aux0 s)
  | 0x23 => some (queueCount .pd .aux1 s)
  | 0x24 => some (queueCount .ph .inq s)
  | 0x25 => some (queueCount .ph .out s)
  | 0x26 => some (queueCount .ph .aux0 s)
  | 0x27 => some (queueCount .ph .aux1 s)
  | _ => none

end Sys2Proof.Machine
end

