-- ==== Sys2Proof/Machine/IrqEngine.lean ====
section
/-! DEFINITION. E_IRQ, the edge-driven engine on PD: IRQ_SEND (42_irq_engine.md R150 to R153) and the event EV_EDGE
(R143 to R149). -/

namespace Sys2Proof.Machine

/-- The arming sequence: inhibit, wait, start bit, wait, release of the clock (R151). ENV_P, ENV_H and TICK may step
at the two waits, and no other agent (R153). -/
def armingSequence (P : Params) (s : State) : State :=
  let inhibited := yieldInSend P (waitFor P.tInh (setLow .pd .clk s))
  let started := yieldInSend P (waitFor P.tStart (setLow .pd .data inhibited))
  setHigh .pd .clk started

/-- `IRQ_SEND(c)` with its result (R150): REFUSED when a receive is in progress or an edge is latched, BUSY when a
transmit is in progress, else the pattern and the timeout are loaded (R152) and the frame is armed. -/
def irqSend (P : Params) (c : Byte) (s : State) : State × CmdResult :=
  if s.pd.recvShift ≠ 0 ∨ s.edgePend then (s, ⟨.refused, true, 0⟩)
  else if s.pd.sendShift ≠ 0 then (s, ⟨.busy, true, 0⟩)
  else
    let loaded := updPort .pd (fun x => { x with sendShift := irqPattern c, busTimeout := P.tmoGuard }) s
    (armingSequence P loaded, ⟨.ok, true, 0⟩)

/-- IRQ_SEND (R150). -/
def execIrqSend (c : Byte) (s : State) : Host.Outcome State Fault Refusal :=
  let r := irqSend s.params c s
  .next (writeRes r.2 r.1)

/-- EV_EDGE (R143): the edge service. RES is not written. When the agent has a step is the scheduler's question
(R142; log 11). -/
def execEvEdge (s : State) : Host.Outcome State Fault Refusal :=
  .next (edgeService s.params s)

end Sys2Proof.Machine
end

