-- ==== Sys2Proof/Machine/RingBuffer.lean ====
section
/-! DEFINITION. The ring-buffer commands (40_ring_buffer.md R105 to R108). -/

namespace Sys2Proof.Machine

/-- The result of a remove or a peek: the byte, or EMPTY with NV = 1 (R106, R107). -/
def byteOrEmpty (v : Option Byte) : CmdResult :=
  match v with
  | none => ⟨.empty, true, 0⟩
  | some c => ⟨.ok, false, zext16 c⟩

/-- RB_INSERT (R105): OK, or FULL, with no value. LAST_ERR is not written. -/
def execRbInsert (p : Port) (q : QueueId) (v : Byte) (s : State) : Host.Outcome State Fault Refusal :=
  let r := rbInsert s.params p q v s
  .next (writeRes ⟨r.1, true, 0⟩ r.2)

/-- RB_REMOVE (R106). -/
def execRbRemove (p : Port) (q : QueueId) (s : State) : Host.Outcome State Fault Refusal :=
  let r := rbRemove s.params p q s
  .next (writeRes (byteOrEmpty r.1) r.2)

/-- RB_PEEK (R107). -/
def execRbPeek (p : Port) (q : QueueId) (s : State) : Host.Outcome State Fault Refusal :=
  .next (writeRes (byteOrEmpty (rbPeek p q s)) s)

/-- RB_PUSHBACK (R108), executed as R104 computes whatever came before it (93 U1; log 13). -/
def execRbPushback (p : Port) (q : QueueId) (v : Byte) (s : State) : Host.Outcome State Fault Refusal :=
  let r := rbPushBack s.params p q v s
  .next (writeRes ⟨r.1, true, 0⟩ r.2)

end Sys2Proof.Machine
end

