-- ==== Sys2Proof/Machine/SelfTimed.lean ====
section
/-! DEFINITION. E_ST, the self-timed engine on PH: the micro-steps (43_selftimed_engine.md R170), the clock pulse
(R171), ST_SEND (R172 to R176) and ST_RECV (R177 to R182). -/

namespace Sys2Proof.Machine

/-- One micro-step `f` at position `pc`, and the boundary after it, where any other agent may step (R170; log 8). -/
def micro (P : Params) (pc : MicroPc) (f : State → State) (s : State) : State :=
  yieldTurn P (f { s with st := { s.st with pc := pc } })

/-- A micro-step that only reads: the level is the one before the boundary. -/
def microRead (P : Params) (pc : MicroPc) (w : Wire) (s : State) : Bool × State :=
  (readWire .ph w s, micro P pc id s)

/-- `clock_pulse()` (R171). -/
def clockPulse (P : Params) (s : State) : State :=
  let s1 := micro P .waitSetup (waitFor P.tSetup) s
  let s2 := micro P .clkLow (setLow .ph .clk) s1
  let s3 := micro P .waitLow (waitFor P.tLow) s2
  let s4 := micro P .clkHigh (setHigh .ph .clk) s3
  micro P .waitHold (waitFor P.tHold) s4

/-- The register writes that end a command: `ST.busy <- false`. They are its last micro-step, together with what its
issuer does with the result. -/
def stFinish (s : State) : State := { s with st := { s.st with busy := false, pc := .finish } }

/-! ## ST_SEND -/

/-- `abort(s)`: release DATA, record the status, VALUE = the pulses completed (R175). -/
def stAbort (P : Params) (e : Status) (s : State) : State × CmdResult :=
  let t := micro P .release (setHigh .ph .data) s
  (stFinish (setLastErr .ph e t), ⟨e, false, BitVec.ofNat 16 t.st.i⟩)

/-- Frame bit `ST.i` on the data wire, then one clock pulse (R172). -/
def stDriveBit (P : Params) (s : State) : State :=
  clockPulse P (micro P .driveData (driveWire .ph .data (s.st.frame.getLsbD s.st.i)) s)

/-- The checks before a pulse: the inhibit check (R173), then the request-to-send check, made only while the block's
own data driver is released (R174). `some e` is an abort. -/
def stCheck (P : Params) (s : State) : Option Status × State :=
  let (clk, s1) := microRead P .readClk .clk s
  if !clk then (some .inhibited, s1)
  else if s1.ph.outData then
    let (data, s2) := microRead P .readData .data s1
    if !data then (some .rts, s2) else (none, s2)
  else (none, s1)

/-- `ST.i <- ST.i + 1`. -/
def stAdvance (s : State) : State := { s with st := { s.st with i := s.st.i + 1 } }

/-- The send loop from pulse `ST.i` on, with `more` pulses after this one (R172, R176). -/
def stSendLoop (P : Params) : Nat → State → State × CmdResult
  | more, s =>
    match stCheck P s with
    | (some e, t) => stAbort P e t
    | (none, t) =>
      let u := stDriveBit P t
      match more with
      | 0 => (stFinish u, ⟨.ok, false, 11⟩)
      | rest + 1 => stSendLoop P rest (micro P .advance stAdvance u)

/-- The register writes that begin ST_SEND (R172). -/
def stBeginSend (c : Byte) (s : State) : State :=
  { s with st := { s.st with busy := true, op := .stSend, frame := stFrame c, i := 0 } }

/-- `ST_SEND(c)` with its result (R172): at most `FRAME_BITS` pulses. -/
def stSend (P : Params) (c : Byte) (s : State) : State × CmdResult :=
  stSendLoop P (Config.frameBits - 1) (micro P .begin (stBeginSend c) s)

/-! ## ST_RECV -/

/-- `fail(e)`: release DATA, record the error, "no byte" (R182). -/
def stFail (P : Params) (e : Status) (s : State) : State × CmdResult :=
  let t := micro P .release (setHigh .ph .data) s
  (stFinish (setLastErr .ph e t), ⟨e, true, 0⟩)

/-- `ack_pulse()` (R180). -/
def ackPulse (P : Params) (s : State) : State :=
  micro P .ackHigh (setHigh .ph .data) (clockPulse P (micro P .ackLow (setLow .ph .data) s))

/-- `stop_ok`: the acknowledge when ST_RECV_ACK, then the parity check and the result (R180, R181). -/
def stStopOk (P : Params) (s : State) : State × CmdResult :=
  let t := if P.stRecvAck then ackPulse P s else s
  if parityOk t.st.acc then (stFinish t, ⟨.ok, false, zext16 (t.st.acc.extractLsb' 0 8)⟩)
  else stFail P .parity t

/-- Store the sample of pulse `ST.i` when it is one of pulses 1 to 9, and step the index (R132, R177). -/
def stStore (b : Bool) (s : State) : State :=
  stAdvance (if s.st.i ≤ 9 then { s with st := { s.st with acc := setAccBit s.st.acc (s.st.i - 1) b } } else s)

/-- The receive loop from pulse `ST.i` on, with `left` pulses left to drive (R177, R179). -/
def stRecvLoop (P : Params) : Nat → State → State × CmdResult
  | 0, s => stFail P .framing s
  | left + 1, s =>
    let (b, t) := microRead P .sample .data (clockPulse P s)
    if 9 < t.st.i ∧ b then
      if t.st.i = 10 then stStopOk P t else stFail P .framing t
    else stRecvLoop P left (micro P .advance (stStore b) t)

/-- The register writes that begin ST_RECV (R177). -/
def stBeginRecv (s : State) : State :=
  { s with st := { s.st with busy := true, op := .stRecv, acc := 0, i := 1 } }

/-- The end of an ST_RECV whose entry guard fails: nothing is driven and LAST_ERR is not written (R177, R178). -/
def stNoFrame (s : State) : State × CmdResult := (s, ⟨.noframe, true, 0⟩)

/-- `ST_RECV` with its result (R177): the entry guard (clock high, data low, R178), then the receive loop. -/
def stRecv (P : Params) (s : State) : State × CmdResult :=
  let (clk, s1) := microRead P .readClk .clk s
  if !clk then stNoFrame s1
  else
    let (data, s2) := microRead P .readData .data s1
    if data then stNoFrame s2
    else stRecvLoop P P.nRecvMax (micro P .begin stBeginRecv s2)

/-! ## The commands -/

/-- ST_SEND (R172): RES is written in the last micro-step. -/
def execStSend (c : Byte) (s : State) : Host.Outcome State Fault Refusal :=
  let r := stSend s.params c s
  .next (writeRes r.2 r.1)

/-- ST_RECV (R177): RES is written in the last micro-step. -/
def execStRecv (s : State) : Host.Outcome State Fault Refusal :=
  let r := stRecv s.params s
  .next (writeRes r.2 r.1)

end Sys2Proof.Machine
end

