-- ==== Sys2Proof/Machine/Supervisor.lean ====
section
/-! DEFINITION. The tick event and the timeout monitor (44_supervisor.md R200 to R202), the critical sections (R203,
R204), the diagnostic read (R205) and the relay step (R206 to R212). -/

namespace Sys2Proof.Machine

/-- EV_TICK (R200). -/
def execEvTick (s : State) : Host.Outcome State Fault Refusal := .next (tickTurn s)

/-- `PD.bus_timeout <- PD.bus_timeout - 1` with the recovery on the step to 0 (R201). It says whether the recovery
ran. -/
def countDown (s : State) : Bool × State :=
  let t := updPort .pd (fun x => { x with busTimeout := x.busTimeout - 1 }) s
  if t.pd.busTimeout = 0 then (true, recovery t) else (false, t)

/-- `TMO_SERVICE` with its VALUE[0] (R201): the flag is consumed whenever it is set, the counter counts only while it
is not 0. -/
def tmoService (s : State) : Bool × State :=
  if s.tickFlag then
    let t := { s with tickFlag := false }
    if t.pd.busTimeout ≠ 0 then countDown t else (false, t)
  else (false, s)

/-- TMO_SERVICE (R201): VALUE[0] = 1 when the recovery ran. -/
def execTmoService (s : State) : Host.Outcome State Fault Refusal :=
  let r := tmoService s
  .next (writeRes ⟨.ok, false, bitAt r.1 0⟩ r.2)

/-- CS_ENTER: `CTRL.IE <- 0` (R203). -/
def execCsEnter (s : State) : Host.Outcome State Fault Refusal :=
  .next (writeRes ⟨.ok, true, 0⟩ { s with ie := false })

/-- CS_EXIT: `CTRL.IE <- 1` (R204). -/
def execCsExit (s : State) : Host.Outcome State Fault Refusal :=
  .next (writeRes ⟨.ok, true, 0⟩ { s with ie := true })

/-- The result of REG_READ: the register's value, or ILLEGAL for a reserved number (R205). -/
def regResult (v : Option Word) : CmdResult :=
  match v with
  | none => ⟨.illegal, true, 0⟩
  | some w => ⟨.ok, false, w⟩

/-- REG_READ (R205): no side effect but RES. -/
def execRegRead (n : Byte) (s : State) : Host.Outcome State Fault Refusal :=
  .next (writeRes (regResult (regValue n s)) s)

/-! ## The relay step

Each function answers whether its bit of `m` is set, and the state after its last unit and the boundary after it
(R206; log 8). -/

/-- Step 1: receive from the computer and forward to PD.OUT, unless PD.OUT is full (R207). -/
def relayStep1 (P : Params) (s : State) : Bool × State :=
  if s.pd.qOut.count = P.rbCap then (false, s)
  else
    let r := stRecv P s
    let t := yieldTurn P r.1
    if r.2.status = .ok then
      let c := r.2.value.setWidth 8
      let u := yieldTurn P (rbInsert P .pd .out c t).2
      (true, yieldTurn P (appendLog .c2p c u))
    else (false, t)

/-- Step 2: send one byte of PH.OUT to the computer; on a failure push it back (R208). -/
def relayStep2 (P : Params) (s : State) : Bool × State :=
  let r := rbRemove P .ph .out s
  let t := yieldTurn P r.2
  match r.1 with
  | none => (false, t)
  | some c =>
    let x := stSend P c t
    let u := yieldTurn P x.1
    if x.2.status = .ok then (true, u)
    else (false, yieldTurn P (rbPushBack P .ph .out c u).2)

/-- Step 3: start one send of a byte of PD.OUT to the peripheral; on a refusal push it back (R209). -/
def relayStep3 (P : Params) (s : State) : Bool × State :=
  let r := rbRemove P .pd .out s
  let t := yieldTurn P r.2
  match r.1 with
  | none => (false, t)
  | some c =>
    let x := irqSend P c t
    let u := yieldTurn P x.1
    if x.2.status = .ok then (true, u)
    else (false, yieldTurn P (rbPushBack P .pd .out c u).2)

/-- The one atomic unit of step 4: move one byte from PD.IN to PH.OUT and log it, unless PD.IN is empty or PH.OUT is
full (R210). -/
def relayMove (P : Params) (s : State) : Bool × State :=
  if s.pd.qIn.count = 0 ∨ s.ph.qOut.count = P.rbCap then (false, s)
  else
    match rbRemove P .pd .inq s with
    | (none, t) => (false, t)
    | (some c, t) => (true, appendLog .p2c c (rbInsert P .ph .out c t).2)

/-- Step 4 (R210). -/
def relayStep4 (P : Params) (s : State) : Bool × State :=
  let r := relayMove P s
  (r.1, yieldTurn P r.2)

/-- Steps 1 to 5 in order with the bits `m[0]` to `m[4]` they set (R206, R212). Step 5 is TMO_SERVICE, and RES is
written in its unit. -/
def relay (P : Params) (s : State) : Word × State :=
  let r1 := relayStep1 P s
  let r2 := relayStep2 P r1.2
  let r3 := relayStep3 P r2.2
  let r4 := relayStep4 P r3.2
  let r5 := tmoService r4.2
  (nibble r1.1 r2.1 r3.1 r4.1 ||| bitAt r5.1 4, r5.2)

/-- RELAY_STEP (R206): RES is written once, with `m`. -/
def execRelayStep (s : State) : Host.Outcome State Fault Refusal :=
  let r := relay s.params s
  .next (writeRes ⟨.ok, false, r.1⟩ r.2)

end Sys2Proof.Machine
end

