-- ==== Sys2Proof/Machine/Dispatch.lean ====
section
/-! DEFINITION. One arm for each constructor of Instr. -/

namespace Sys2Proof.Machine

def exec (i : Instr) (s : State) : Host.Outcome State Fault Refusal :=
  match i with
  | .rbInsert p q v => Sys2Proof.Machine.execRbInsert p q v s
  | .rbRemove p q => Sys2Proof.Machine.execRbRemove p q s
  | .rbPeek p q => Sys2Proof.Machine.execRbPeek p q s
  | .rbPushback p q v => Sys2Proof.Machine.execRbPushback p q v s
  | .irqSend c => Sys2Proof.Machine.execIrqSend c s
  | .stSend c => Sys2Proof.Machine.execStSend c s
  | .stRecv => Sys2Proof.Machine.execStRecv s
  | .tmoService => Sys2Proof.Machine.execTmoService s
  | .csEnter => Sys2Proof.Machine.execCsEnter s
  | .csExit => Sys2Proof.Machine.execCsExit s
  | .relayStep => Sys2Proof.Machine.execRelayStep s
  | .regRead n => Sys2Proof.Machine.execRegRead n s
  | .evEdge => Sys2Proof.Machine.execEvEdge s
  | .evTick => Sys2Proof.Machine.execEvTick s

end Sys2Proof.Machine
end

