-- ==== Sys2Proof/Machine/Step.lean ====
section
/-! DEFINITION. One step: the agent whose turn it is moves (00_scope.md R8, 20_memory.md R67). -/

namespace Sys2Proof.Machine

/-- CTRL runs one command word: the command it decodes to, or ILLEGAL (30_encoding.md R86, R90). -/
def ctrlWord (w : Word) (s : State) : Host.Outcome State Fault Refusal :=
  match decode w with
  | .instr i => exec i s
  | .illegal _ => .next (illegalWord s)

/-- A turn of CTRL: the first word of the stream is taken and run; with none delivered CTRL is idle and "all state
survives such idleness" (10_state.md R43, 60_exceptions.md R248). -/
def ctrlTurn (s : State) : Host.Outcome State Fault Refusal :=
  match s.cmds with
  | [] => .next s
  | w :: rest => ctrlWord w { s with cmds := rest }

/-- A turn of the EDGE agent: EV_EDGE when it has a step, else nothing (42_irq_engine.md R142; log 9). -/
def stepEdge (s : State) : Host.Outcome State Fault Refusal :=
  if edgeEnabled s then exec .evEdge s else .next s

/-- One step. The turn is the schedule's next one; after the schedule's end a pending enabled edge is serviced
first, and CTRL moves otherwise (log 5). A command runs to its end within one step, the other agents' turns taken at
the boundaries between its units (log 7). -/
def step (s : State) : Host.Outcome State Fault Refusal :=
  match s.sched with
  | [] => if edgeEnabled s then exec .evEdge s else ctrlTurn s
  | .ctrl :: rest => ctrlTurn { s with sched := rest }
  | .edge :: rest => stepEdge { s with sched := rest }
  | .tick :: rest => exec .evTick { s with sched := rest }
  | .envP clk data :: rest => .next (envPTurn clk data { s with sched := rest })
  | .envH clk data :: rest => .next (envHTurn clk data { s with sched := rest })

/-- The state in which the next step runs the table word `w`: a command word is put at the head of the command stream
and CTRL has the next turn; EV_EDGE gets the next turn with its latch set and not masked, as its agent needs (R142);
EV_TICK gets the next turn (log 6, log 10). -/
def State.withFetchWord (s : State) (_nbits w : Nat) : State :=
  match tableWord (BitVec.ofNat 16 w) with
  | (.eventInput, .instr .evEdge) => { s with edgePend := true, ie := true, sched := .edge :: s.sched }
  | (.eventInput, _) => { s with sched := .tick :: s.sched }
  | (.commandPort, _) => { s with cmds := BitVec.ofNat 16 w :: s.cmds, sched := .ctrl :: s.sched }

end Sys2Proof.Machine
end

