-- ==== Sys2Proof/Safety.lean ====
section
/-! DEFINITION. The terms claims are stated in: what holds after every atomic unit and between two commands
(10_state.md R39 and the rules' "always" and "never" sentences), when a run has ended (70_reset_and_hazards.md R264),
and the premises on the environment and the schedule that a claim may name (R265). -/

namespace Sys2Proof.Machine

/-- `seq(p, q)` of the machine (40_ring_buffer.md R100). -/
def fifo (p : Port) (q : QueueId) (s : State) : List Byte := (getQueue p q s).seq s.params.rbCap

/-- PD's protocol state, derived from its two shift registers (10_state.md R40). -/
inductive PdPhase where
  | idle
  | receiving
  | transmitting
  deriving DecidableEq, Repr

/-- R40. Both registers are never non-zero together (R39 (a)). -/
def pdPhase (s : State) : PdPhase :=
  if s.pd.recvShift ≠ 0 then .receiving else if s.pd.sendShift ≠ 0 then .transmitting else .idle

/-- A legal `PD.recv_shift` (R39 (b)): 0, or a marker at some k from 1 to 10 that is its lowest set bit, with bits
[k+4 : k+1] and [k-1 : 0] zero, that is, the low k+5 bits hold exactly 2^k. -/
def recvLegal (r : Word) : Bool :=
  r == 0 || (List.range 10).any (fun j => r.toNat % 2 ^ (j + 6) == 2 ^ (j + 1))

/-- The bits R21 reserves in RES are 0, a "no value" has VALUE 0, and STATUS is a code some rule writes to RES:
never TIMEOUT and never one of the reserved codes 11 to 14 (60_exceptions.md R231). -/
def resLegal (r : ResWord) : Bool :=
  r.extractLsb' 25 3 == 0 && r.extractLsb' 16 8 == 0 && (!resNv r || resValue r == 0) &&
    [0, 1, 2, 3, 4, 5, 6, 7, 8, 9, 15].contains (resStatus r).toNat

/-- The codes R231 lets each port's LAST_ERR hold. -/
def lastErrLegal (p : Port) (e : BitVec 4) : Bool :=
  match p with
  | .pd => [0, 2, 8, 9, 10].contains e.toNat
  | .ph => [0, 5, 6, 8, 9].contains e.toNat

/-- What every atomic unit of every agent keeps. -/
structure UnitInv (s : State) : Prop where
  /-- 00_scope.md R9 within the bounds of log 20. -/
  paramsWf : s.params.wellFormed = true
  /-- R39 (a). -/
  notBoth : s.pd.recvShift = 0 ∨ s.pd.sendShift = 0
  /-- R39 (b). -/
  recvShape : recvLegal s.pd.recvShift = true
  /-- R39 (c). -/
  sendBound : s.pd.sendShift.toNat < 0x800
  /-- R39 (d), R29. -/
  queuesWf : ∀ p q, (getQueue p q s).wf s.params.rbCap = true
  /-- R25: legal values 0 to TMO_GUARD. -/
  timeoutBound : s.pd.busTimeout ≤ s.params.tmoGuard
  /-- A frame in progress has its timeout running, so it cannot stay for ever (42_irq_engine.md R152). -/
  timeoutRuns : pdBusy s = true → s.pd.busTimeout ≠ 0
  /-- R41. -/
  phRegisters : s.ph.recvShift = 0 ∧ s.ph.sendShift = 0 ∧ s.ph.busTimeout = 0
  /-- R145: outside a transmit PD.DATA is released. -/
  pdDataReleased : s.pd.sendShift = 0 → s.pd.outData = true
  /-- R21, R231. -/
  resShape : resLegal s.res = true
  /-- R231. -/
  pdLastErr : lastErrLegal .pd s.pd.lastErr = true
  /-- R231. -/
  phLastErr : lastErrLegal .ph s.ph.lastErr = true
  /-- R35: ST.i is 0 to N_RECV_MAX + 1. -/
  stIndex : s.st.i ≤ s.params.nRecvMax + 1

/-- What holds between two commands. -/
structure BlockInv (s : State) : Prop where
  unit : UnitInv s
  /-- 43_selftimed_engine.md R183. -/
  phReleased : s.ph.outClk = true ∧ s.ph.outData = true
  /-- 42_irq_engine.md R151: the arming sequence ends with the clock released. -/
  pdClkReleased : s.pd.outClk = true
  /-- R35: CTRL is between commands. -/
  notBusy : s.st.busy = false

/-- A run has ended (70_reset_and_hazards.md R264). -/
def runEnded (s : State) : Bool := s.cmds.isEmpty && !s.st.busy && !s.edgePend

/-- No edge was lost (R141, 93 U12): the premise of claims that need every edge serviced. -/
def noEdgeLost (s : State) : Bool := !s.edgeOvr

/-- No other agent moves while a command runs: the schedule is at its end and no edge service is enabled. -/
def quiet (s : State) : Prop := s.sched = [] ∧ edgeEnabled s = false

/-- The computer's drivers do not change while the schedule runs: it holds no turn of ENV_H. -/
def computerStill (s : State) : Prop := ∀ t ∈ s.sched, ∀ c d, t ≠ .envH c d

/-- "Computer passive" at this instant: both of its drivers released (95_test_vectors.md). -/
def computerReleased (s : State) : Prop := s.ph.extClk = true ∧ s.ph.extData = true

/-- Both of the block's PH drivers are released, as they are at the start of every E_ST command (R183). -/
def phDriversReleased (s : State) : Prop := s.ph.outClk = true ∧ s.ph.outData = true

/-- The entries of WTRACE that are not PD's: the block's PH driver writes and the waits. -/
def notPd : WireEvent → Bool
  | .drive .pd _ _ => false
  | .drive .ph _ _ => true
  | .wait _ => true

/-- WTRACE without PD's driver writes. An edge service between two micro-steps writes none of the rest. -/
def phTrace (s : State) : List WireEvent := s.wtrace.filter notPd

/-- The trace of one clock pulse on PH (43_selftimed_engine.md R171). -/
def pulseTrace (P : Params) : List WireEvent :=
  [.wait P.tSetup, .drive .ph .clk false, .wait P.tLow, .drive .ph .clk true, .wait P.tHold]

/-- The trace of a whole ST_SEND of byte `c`: each bit of the frame on the wire, then a pulse (R185). -/
def sendTrace (P : Params) (c : Byte) : List WireEvent :=
  (wireFrame c).flatMap (fun b => .drive .ph .data b :: pulseTrace P)

/-- The trace of an ST_RECV that a computer holding data low never answers: N_RECV_MAX pulses, then the release of DATA
(R179, R182). -/
def unansweredTrace (P : Params) : List WireEvent :=
  (List.replicate P.nRecvMax (pulseTrace P)).flatten ++ [.drive .ph .data true]

/-- What an IRQ_SEND adds to `phTrace`: the two waits of the arming sequence when it arms a frame, else nothing
(42_irq_engine.md R150, R151). -/
def armWaits (P : Params) (armed : Bool) : List WireEvent :=
  if armed then [.wait P.tInh, .wait P.tStart] else []

/-- The block's PH data driver is released at the check before pulse `k` of an ST_SEND of byte `c`, so that the
request-to-send check is made there (43_selftimed_engine.md R174): before the first pulse it is, later it shows the bit
sent last. -/
def dataReleasedAt (c : Byte) (k : Nat) : Bool := k == 0 || (wireFrame c).getD (k - 1) true

/-- How many boundaries an undisturbed ST_SEND of byte `c` passes before the one just before the checks of pulse `k`: a
pulse has eight micro-steps, and a ninth where the request-to-send check is made (log 8). -/
def sendBoundaries (c : Byte) (k : Nat) : Nat :=
  ((List.range k).map (fun i => if dataReleasedAt c i then 9 else 8)).sum

/-- The schedule in which the computer sets its drivers just before the checks of pulse `k` of an ST_SEND of byte `c`,
and no other turn is listed. -/
def pullBefore (c : Byte) (k : Nat) (clk data : Bool) : List Turn :=
  List.replicate (sendBoundaries c k) .ctrl ++ [.envH clk data]

/-- The three turns of one peripheral clock on PD: data set and clock pulled low, the edge serviced, the clock released
(`edge(b)` of 95_test_vectors.md). -/
def edgeTurns (b : Bool) : List Turn := [.envP false b, .edge, .envP true b]

/-- The schedule in which the computer presents the bits of `bits` to an ST_RECV at pulses 1, 2, …: each is set after
the pulse's rising edge, before the sample, and no other agent moves. One `ctrl` is one micro-step (log 8): three before
the first pulse, seven in each pulse. -/
def presentBits (bits : List Bool) : List Turn :=
  [.ctrl, .ctrl, .ctrl] ++
    bits.flatMap (fun b => [.ctrl, .ctrl, .ctrl, .envH true b, .ctrl, .ctrl, .ctrl, .ctrl])

end Sys2Proof.Machine
end

