-- ==== Sys2Proof/Certificates/Slice0/Obligations.lean ====
section
/-! DEFINITION. The statements for the provers. Each docstring names the rules of spec/ it formalises or rests on. -/

open Sys2Proof Sys2Proof.Machine

/-! ## Reset and the whole machine -/

/-- R44: the reset values of all state for which the spec gives one, for all parameters. `State.reset` is reset at the
default parameters. -/
def Obligations.ResetStateHasListedValues : Prop :=
  (∀ (L : Literals) (s : State), s = State.resetAt L →
    (∀ p, (getPort p s).recvShift = 0 ∧ (getPort p s).sendShift = 0 ∧ (getPort p s).busTimeout = 0 ∧
      (getPort p s).outClk = true ∧ (getPort p s).outData = true ∧ (getPort p s).lastErr = 0) ∧
    (∀ p q, (getQueue p q s).count = 0 ∧ (getQueue p q s).head = 0) ∧
    s.res = 0 ∧ s.ie = true ∧ s.edgePend = false ∧ s.edgeOvr = false ∧ s.tickFlag = false ∧ s.st.busy = false ∧
    s.log = [] ∧ s.wtrace = []) ∧
  State.reset = State.resetAt Config.literals

/-- The invariant of 10_state.md section 7 and of the rules' "always" sentences holds at reset, for all parameters within
the bounds of log 20, the defaults among them. -/
def Obligations.ResetMeetsInvariant : Prop :=
  (∀ L : Literals, L.wellFormed = true → BlockInv (State.resetAt L)) ∧ BlockInv State.reset

/-- R39, R25, R41, R145, R21, R183: every step keeps the invariant, whatever the schedule does inside a command, and no
step writes the parameters of R9. -/
def Obligations.StepKeepsInvariant : Prop :=
  ∀ s t, step s = .next t → t.params = s.params ∧ (BlockInv s → BlockInv t)

/-- R65, R67: the other agents' turns at a boundary between two units of CTRL keep what every unit keeps, in any order
and number, also while a command is in progress. -/
def Obligations.OtherAgentsKeepUnitInvariant : Prop :=
  ∀ (atEdge : Bool) (turns : List Turn) (s : State), UnitInv s → UnitInv (othersMove s.params atEdge turns s)

/-- R230: no command, event or wire condition stops any agent: every instruction and every step answers a next state,
and there is no fault to answer. -/
def Obligations.NothingStopsAnyAgent : Prop :=
  (∀ (i : Instr) (s : State), ∃ t, exec i s = .next t) ∧ (∀ s : State, ∃ t, step s = .next t) ∧ IsEmpty Fault

/-- R31: IE is written only by CS_ENTER (which clears it) and CS_EXIT (which sets it). -/
def Obligations.OnlyCriticalSectionCommandsWriteIE : Prop :=
  (∀ s t, exec .csEnter s = .next t → t.ie = false) ∧ (∀ s t, exec .csExit s = .next t → t.ie = true) ∧
  (∀ (i : Instr) (s t : State), i ≠ .csEnter → i ≠ .csExit → exec i s = .next t → t.ie = s.ie)

/-- R33: EDGE_OVR is sticky: no step clears it. -/
def Obligations.EdgeOverrunIsSticky : Prop :=
  ∀ s t, step s = .next t → s.edgeOvr = true → t.edgeOvr = true

/-- R30: nothing but an RB command writes an AUX queue, whatever the other agents do meanwhile. -/
def Obligations.OnlyRingCommandsWriteAuxQueues : Prop :=
  ∀ (i : Instr) (s t : State), (∀ p q v, i ≠ .rbInsert p q v) → (∀ p q, i ≠ .rbRemove p q) →
    (∀ p q v, i ≠ .rbPushback p q v) → exec i s = .next t →
    ∀ p, getQueue p .aux0 t = getQueue p .aux0 s ∧ getQueue p .aux1 t = getQueue p .aux1 s

/-- R36: only RELAY_STEP appends to LOG, and nothing removes from it. -/
def Obligations.OnlyRelayStepAppendsToLog : Prop :=
  (∀ (i : Instr) (s t : State), i ≠ .relayStep → exec i s = .next t → t.log = s.log) ∧
  (∀ s t, exec .relayStep s = .next t → ∃ l, t.log = s.log ++ l)

/-- R37: WTRACE is append-only, in every step. -/
def Obligations.WireTraceOnlyGrows : Prop :=
  ∀ s t, step s = .next t → ∃ l, t.wtrace = s.wtrace ++ l

/-- R41: no instruction writes PH.recv_shift, PH.send_shift or PH.bus_timeout. -/
def Obligations.PhShiftRegistersNeverWritten : Prop :=
  ∀ (i : Instr) (s t : State), exec i s = .next t →
    t.ph.recvShift = s.ph.recvShift ∧ t.ph.sendShift = s.ph.sendShift ∧ t.ph.busTimeout = s.ph.busTimeout

/-- R27: the external drivers "change only by environment steps": with no ENV turn in the schedule no instruction
changes one. -/
def Obligations.OnlyEnvironmentWritesExternalDrivers : Prop :=
  ∀ (i : Instr) (s t : State), (∀ u ∈ s.sched, ∀ c d, u ≠ .envP c d ∧ u ≠ .envH c d) → exec i s = .next t →
    t.pd.extClk = s.pd.extClk ∧ t.pd.extData = s.pd.extData ∧ t.ph.extClk = s.ph.extClk ∧ t.ph.extData = s.ph.extData

/-- R40: PD's protocol state machine. An edge service takes Idle to Receiving, Receiving to Receiving or Idle,
Transmitting to Transmitting or Idle; IRQ_SEND takes Idle to Transmitting or changes nothing; TMO_SERVICE leaves the
phase or goes to Idle. -/
def Obligations.PdPhaseTransitions : Prop :=
  (∀ s t, UnitInv s → exec .evEdge s = .next t →
    (pdPhase s = .idle → pdPhase t = .receiving) ∧
    (pdPhase s = .receiving → pdPhase t = .receiving ∨ pdPhase t = .idle) ∧
    (pdPhase s = .transmitting → pdPhase t = .transmitting ∨ pdPhase t = .idle)) ∧
  (∀ c s t, exec (.irqSend c) s = .next t →
    (pdPhase s = .idle ∧ s.edgePend = false → pdPhase t = .transmitting) ∧
    (pdPhase s ≠ .idle ∨ s.edgePend = true → pdPhase t = pdPhase s)) ∧
  (∀ s t, exec .tmoService s = .next t → pdPhase t = pdPhase s ∨ pdPhase t = .idle)

/-! ## Steps, decoding, RES -/

/-- R43, R90: when the head of the command stream decodes to an instruction and CTRL has the turn, the step is exec of
it on the state whose stream and schedule have moved on. -/
def Obligations.StepRunsDecodedCommand : Prop :=
  ∀ (s : State) (w : Word) (rest : List Word) (i : Instr), s.cmds = w :: rest → decode w = .instr i →
    (∀ sch, s.sched = .ctrl :: sch → step s = exec i { s with cmds := rest, sched := sch }) ∧
    (s.sched = [] → edgeEnabled s = false → step s = exec i { s with cmds := rest })

/-- R142, R248, R65, R67, R153, R240 and the model's schedule (log 5, log 9): what a turn that is not a command's does. In a
step a tick turn runs EV_TICK; an edge turn runs EV_EDGE exactly when EDGE_PEND and IE are 1; after the schedule's end an
enabled edge is serviced; CTRL without a command is idle. At a boundary between two units of a command the same turns do
the same, up to CTRL's next turn, but at a wait of IRQ_SEND the EDGE agent has no step; and an edge latched and unmasked
when an E_ST command or RELAY_STEP starts is serviced during it, by an edge turn or at the schedule's end. -/
def Obligations.TurnsRunTheirEvents : Prop :=
  (∀ s sch, s.sched = .tick :: sch → step s = exec .evTick { s with sched := sch }) ∧
  (∀ s sch, s.sched = .edge :: sch → s.edgePend = true → s.ie = true → step s = exec .evEdge { s with sched := sch }) ∧
  (∀ s sch, s.sched = .edge :: sch → s.edgePend = false ∨ s.ie = false → step s = .next { s with sched := sch }) ∧
  (∀ s, s.sched = [] → s.edgePend = true → s.ie = true → step s = exec .evEdge s) ∧
  (∀ s sch, s.sched = .ctrl :: sch → s.cmds = [] → step s = .next { s with sched := sch }) ∧
  (∀ s u, s.edgePend = true → s.ie = true → exec .evEdge s = .next u →
    (∀ rest, othersMove s.params true (.edge :: rest) s = othersMove s.params true rest u) ∧
    othersMove s.params true [] s = { u with sched := [] }) ∧
  (∀ (atEdge : Bool) (s : State), s.edgePend = false ∨ s.ie = false ∨ atEdge = false →
    (∀ rest, othersMove s.params atEdge (.edge :: rest) s = othersMove s.params atEdge rest s) ∧
    othersMove s.params atEdge [] s = { s with sched := [] }) ∧
  (∀ (atEdge : Bool) (turn : Turn) (s u : State), turn ≠ .ctrl → turn ≠ .edge →
    step { s with sched := [turn] } = .next u →
    ∀ rest, othersMove s.params atEdge (turn :: rest) s = othersMove s.params atEdge rest { u with sched := s.sched }) ∧
  (∀ (atEdge : Bool) (s : State) (rest : List Turn),
    othersMove s.params atEdge (.ctrl :: rest) s = { s with sched := rest }) ∧
  (∀ (i : Instr) (s t u : State), (i = .relayStep ∨ i = .stRecv ∨ ∃ c, i = .stSend c) →
    s.sched = [] ∨ s.sched = [.edge] → s.edgePend = true → s.ie = true → exec i s = .next t → exec .evEdge s = .next u →
    t.edgePend = false ∧ (i ≠ .relayStep → t.pd = u.pd))

/-- The next step after `withFetchWord` runs the table word's instruction, on the same state for a command and for
EV_TICK, and with the latch set and unmasked for EV_EDGE (log 6, log 10). -/
def Obligations.FetchWordIsRunNext : Prop :=
  (∀ (s : State) (i : Instr), i.source = .commandPort →
    step (s.withFetchWord 16 (encode i).toNat) = exec i s) ∧
  (∀ s : State, step (s.withFetchWord 16 1) = exec .evEdge { s with edgePend := true, ie := true }) ∧
  (∀ s : State, step (s.withFetchWord 16 2) = exec .evTick s)

/-- Every well-formed instruction, with every operand value, decodes from its own word (R81, R87, R88, R90). -/
def Obligations.DecodeOfEncodeIsIdentity : Prop :=
  ∀ (src : Source) (i : Instr), i.wellFormed src = true → decodeFrom src (encode i) = .instr i

/-- Every word has at most one meaning: a word that decodes is the word of what it decodes to (R83, R87, R90). -/
def Obligations.EncodeOfDecodeIsIdentity : Prop :=
  ∀ (src : Source) (w : Word) (i : Instr), decodeFrom src w = .instr i → encode i = w ∧ i.wellFormed src = true

/-- R83: a command word decodes exactly when it selects a command row, and then to an instruction of that row; so the
command rows are disjoint. -/
def Obligations.DecodeFollowsOpcodeMap : Prop :=
  (∀ cw i, decode cw = .instr i → i.row ∈ opcodeRows ∧ i.row.source = .commandPort ∧ i.row.selectedBy cw = true) ∧
  (∀ cw, ∀ r ∈ opcodeRows, r.source = .commandPort → r.selectedBy cw = true → ∃ i, decode cw = .instr i ∧ i.row = r) ∧
  (∀ cw, (∀ r ∈ opcodeRows, r.source = .commandPort → r.selectedBy cw = false) → ∃ why, decode cw = .illegal why)

/-- Words written out from the spec's encodings (R83, R88), one of each family, decode to what they stand for. -/
def Obligations.FamilyWordsDecode : Prop :=
  decode 0b0001001001000001 = .instr (.rbInsert .pd .out 0x41) ∧
  decode 0b0010101000000000 = .instr (.rbRemove .ph .out) ∧
  decode 0b0101000000011011 = .instr (.irqSend 0x1B) ∧
  decode 0b0110100001000001 = .instr (.stSend 0x41) ∧
  decode 0b1011000000000000 = .instr .relayStep ∧
  decode 0b1100000000010000 = .instr (.regRead 0x10) ∧
  decodeEvent 0b0000000000000010 = .instr .evTick

/-- R237, R86, R205: a command word outside the opcode map, and REG_READ of an unnumbered register, write ILLEGAL into RES
and change nothing else. The spec leaves it to a model to execute such a word or to refuse it, and this one executes it
(log 12); the word is taken from the model's command stream (log 6) when the model's schedule gives CTRL the turn, by an
entry or after its end with no enabled edge (log 5). -/
def Obligations.IllegalChangesOnlyRes : Prop :=
  (∀ (s : State) (w : Word) (rest : List Word) (sch : List Turn),
    (∀ r ∈ opcodeRows, r.source = .commandPort → r.selectedBy w = false) →
    s.cmds = w :: rest →
    (s.sched = .ctrl :: sch → step s = .next { s with cmds := rest, sched := sch, res := 0xF1000000 }) ∧
    (s.sched = [] → edgeEnabled s = false → step s = .next { s with cmds := rest, res := 0xF1000000 })) ∧
  (∀ (s : State) (n : Byte),
    n.toNat ∉ [0x00, 0x01, 0x02, 0x03, 0x04, 0x08, 0x09, 0x0A, 0x0B, 0x0C, 0x10,
      0x20, 0x21, 0x22, 0x23, 0x24, 0x25, 0x26, 0x27] →
    exec (.regRead n) s = .next { s with res := 0xF1000000 })

/-- R21: the layout of RES. -/
def Obligations.ResultLayout : Prop :=
  ∀ (st : Status) (nv : Bool) (v : Word) (s : State),
    resStatus (writeRes ⟨st, nv, v⟩ s).res = statusCode st ∧ resNv (writeRes ⟨st, nv, v⟩ s).res = nv ∧
    resValue (writeRes ⟨st, nv, v⟩ s).res = v ∧
    (writeRes ⟨st, nv, v⟩ s).res.extractLsb' 25 3 = 0 ∧ (writeRes ⟨st, nv, v⟩ s).res.extractLsb' 16 8 = 0

/-! ## Ring buffers -/

/-- R101 as RB_INSERT runs it: the byte is appended when there is room, nothing is done when the queue is full, and
nothing but that queue and RES changes. -/
def Obligations.InsertAppendsOrIsFull : Prop :=
  ∀ (p : Port) (q : QueueId) (v : Byte) (s : State), (getQueue p q s).wf s.params.rbCap = true →
    ((fifo p q s).length = s.params.rbCap → exec (.rbInsert p q v) s = .next { s with res := 0x21000000 }) ∧
    ((fifo p q s).length ≠ s.params.rbCap → ∃ r, r.wf s.params.rbCap = true ∧ r.seq s.params.rbCap = fifo p q s ++ [v] ∧
      exec (.rbInsert p q v) s = .next { setQueue p q r s with res := 0x01000000 })

/-- R102 as RB_REMOVE runs it: the head byte is removed and returned, or EMPTY; nothing but that queue and RES
changes. -/
def Obligations.RemoveTakesHeadOrIsEmpty : Prop :=
  ∀ (p : Port) (q : QueueId) (s : State), (getQueue p q s).wf s.params.rbCap = true →
    (fifo p q s = [] → exec (.rbRemove p q) s = .next { s with res := 0x11000000 }) ∧
    (∀ v l, fifo p q s = v :: l → ∃ r, r.wf s.params.rbCap = true ∧ r.seq s.params.rbCap = l ∧
      exec (.rbRemove p q) s = .next { setQueue p q r s with res := v.setWidth 32 })

/-- R103 as RB_PEEK runs it: the head byte is returned, or EMPTY; nothing but RES changes. -/
def Obligations.PeekReadsHeadOrIsEmpty : Prop :=
  ∀ (p : Port) (q : QueueId) (s : State), (getQueue p q s).wf s.params.rbCap = true →
    (fifo p q s = [] → exec (.rbPeek p q) s = .next { s with res := 0x11000000 }) ∧
    (∀ v l, fifo p q s = v :: l → exec (.rbPeek p q) s = .next { s with res := v.setWidth 32 })

/-- R104 as RB_PUSHBACK runs it: the byte is put at the head when there is room, nothing is done when the queue is
full, and nothing but that queue and RES changes. The spec backs no order after a push-back that does not undo a remove,
and leaves it to a model to execute such a push-back, and one on a full queue, or to refuse it; this model executes both as
R104 computes (log 13). -/
def Obligations.PushBackPutsHeadOrIsFull : Prop :=
  ∀ (p : Port) (q : QueueId) (v : Byte) (s : State), (getQueue p q s).wf s.params.rbCap = true →
    ((fifo p q s).length = s.params.rbCap → exec (.rbPushback p q v) s = .next { s with res := 0x21000000 }) ∧
    ((fifo p q s).length ≠ s.params.rbCap → ∃ r, r.wf s.params.rbCap = true ∧ r.seq s.params.rbCap = v :: fifo p q s ∧
      exec (.rbPushback p q v) s = .next { setQueue p q r s with res := 0x01000000 })

/-- R109 (c): a remove that returns v, then a push-back of v, restores the sequence; a push-back of v, then a remove,
returns v and restores it. -/
def Obligations.PushBackUndoesRemove : Prop :=
  ∀ (p : Port) (q : QueueId) (v : Byte) (l : List Byte) (s t u : State), (getQueue p q s).wf s.params.rbCap = true →
    (fifo p q s = v :: l → exec (.rbRemove p q) s = .next t → exec (.rbPushback p q v) t = .next u →
      fifo p q u = fifo p q s) ∧
    ((fifo p q s).length ≠ s.params.rbCap → exec (.rbPushback p q v) s = .next t → exec (.rbRemove p q) t = .next u →
      fifo p q u = fifo p q s ∧ u.res = v.setWidth 32)

/-- R109 (a): after inserts of v1..vn into an empty well-formed ring with n at most its capacity, the sequence is
v1..vn, and n removes return them in that order and leave it empty. For every capacity. -/
def Obligations.RingIsFifo : Prop :=
  ∀ (cap : Nat) (vs : List Byte) (r : Ring), r.wf cap = true → r.count = 0 → vs.length ≤ cap →
    ∃ full empty, vs.foldlM (fun x v => x.insert cap v) r = some full ∧ full.seq cap = vs ∧
      vs.foldlM (fun x v => (x.remove cap).bind (fun y => if y.1 = v then some y.2 else none)) full = some empty ∧
      empty.count = 0

/-! ## Parity and frames -/

/-- R125: the parity bit makes the 9-bit group's popcount odd; with R126, the check accepts exactly the groups whose
parity bit is the encoder's. -/
def Obligations.ParityCheckAcceptsEncoderBit : Prop :=
  ∀ (d : Byte) (b : Bool), (popcount d + (oddParity d).toNat) % 2 = 1 ∧
    (parityOk (BitVec.ofBool b ++ d) = true ↔ b = oddParity d)

/-- R128, R129, R131 against R127: the transmit frame's bit i is bit-time i; the transmit pattern's bits 0 to 9 are
bit-times 1 to 10 and bit 10 is a released slot; the completed-frame value gives back the byte, its group and the stop
bit. -/
def Obligations.FrameLayoutsAgreeWithWire : Prop :=
  ∀ d : Byte,
    (∀ k < 11, some ((stFrame d).getLsbD k) = (wireFrame d)[k]?) ∧
    (∀ k < 10, some ((irqPattern d).getLsbD k) = (wireFrame d)[k + 1]?) ∧
    (irqPattern d).getLsbD 10 = true ∧ (irqPattern d).toNat < 0x800 ∧
    frameData (irqFrame d) = d ∧ frameGroup (irqFrame d) = BitVec.ofBool (oddParity d) ++ d ∧
    frameStop (irqFrame d) = true ∧ (irqFrame d).getLsbD 0 = true

/-! ## The wires -/

/-- R120, R121: set_high and set_low write the one driver they name and append the one trace entry, even when the driver
had that value, and change nothing else. -/
def Obligations.LinePrimitivesDriveAndRecord : Prop :=
  ∀ (p : Port) (w : Wire) (s : State),
    (getPort p (setHigh p w s)).getOut w = true ∧ (getPort p (setLow p w s)).getOut w = false ∧
    (setHigh p w s).wtrace = s.wtrace ++ [.drive p w true] ∧ (setLow p w s).wtrace = s.wtrace ++ [.drive p w false] ∧
    (∀ p' w', ¬(p' = p ∧ w' = w) → (getPort p' (setHigh p w s)).getOut w' = (getPort p' s).getOut w' ∧
      (getPort p' (setLow p w s)).getOut w' = (getPort p' s).getOut w') ∧
    (∀ u, u = setHigh p w s ∨ u = setLow p w s →
      u = { s with wtrace := u.wtrace,
                   pd := { s.pd with outClk := u.pd.outClk, outData := u.pd.outData },
                   ph := { s.ph with outClk := u.ph.outClk, outData := u.ph.outData } })

/-! ## E_IRQ -/

/-- R140: a fall of PD.CLK caused by ENV_P while the block releases the clock is latched, one deep, whatever IE is;
every other environment turn, and the block's own clock pull, latch nothing. -/
def Obligations.QualifiedFallIsLatched : Prop :=
  (∀ s c d sch, s.sched = .envP c d :: sch → ∃ t, step s = .next t ∧
    t = { s with sched := sch, pd := { s.pd with extClk := c, extData := d }, edgePend := t.edgePend, edgeOvr := t.edgeOvr } ∧
    (s.pd.extClk = true ∧ c = false ∧ s.pd.outClk = true →
      t.edgePend = true ∧ t.edgeOvr = (s.edgeOvr || s.edgePend)) ∧
    (s.pd.extClk = false ∨ c = true ∨ s.pd.outClk = false →
      t.edgePend = s.edgePend ∧ t.edgeOvr = s.edgeOvr)) ∧
  (∀ s c d sch, s.sched = .envH c d :: sch →
    step s = .next { s with sched := sch, ph := { s.ph with extClk := c, extData := d } }) ∧
  (∀ s, (setLow .pd .clk s).edgePend = s.edgePend ∧ (setLow .pd .clk s).edgeOvr = s.edgeOvr)

/-- R68, R142: with IE = 0 a latched edge stays latched through every step, and no step of another agent at a boundary
changes PD's shift registers, timeout or PD.IN. -/
def Obligations.MaskedEdgeStaysLatched : Prop :=
  (∀ s t, step s = .next t → s.ie = false → s.edgePend = true → t.edgePend = true) ∧
  (∀ (atEdge : Bool) (turns : List Turn) (s : State), s.ie = false →
    (othersMove s.params atEdge turns s).pd.recvShift = s.pd.recvShift ∧
    (othersMove s.params atEdge turns s).pd.sendShift = s.pd.sendShift ∧
    (othersMove s.params atEdge turns s).pd.busTimeout = s.pd.busTimeout ∧
    (othersMove s.params atEdge turns s).pd.qIn = s.pd.qIn)

/-- R143, R144, R145: an edge while `send_shift != 0` drives its low bit onto PD.DATA, shifts it right, reloads the
timeout, and changes nothing else. -/
def Obligations.EdgeShiftsOneBitOut : Prop :=
  ∀ s : State, s.pd.sendShift ≠ 0 →
    exec .evEdge s = .next { s with
      edgePend := false
      pd := { s.pd with
        busTimeout := s.params.tmoGuard
        outData := s.pd.sendShift.getLsbD 0
        sendShift := s.pd.sendShift >>> 1 }
      wtrace := s.wtrace ++ [.drive .pd .data (s.pd.sendShift.getLsbD 0)] }

/-- R146 to R149: an edge while `send_shift = 0` shifts the sampled level into `recv_shift` (armed with 0x800 when it was
0); on the marker at bit 0 the register is cleared and the frame is delivered to PD.IN, dropped with FULL when PD.IN is
full, or discarded with FRAMING or PARITY, FRAMING first. Nothing else changes but the timeout and the latch. The sampled level is the
wired-AND of R122, which the spec marks as general knowledge (log 16). -/
def Obligations.EdgeShiftsOneBitIn : Prop :=
  ∀ (s : State) (f : Word) (x : PortState), s.pd.sendShift = 0 → s.pd.qIn.wf s.params.rbCap = true →
    f = ((if s.pd.recvShift = 0 then 0x800 else s.pd.recvShift) >>> 1) |||
      (if s.pd.outData && s.pd.extData then 0x8000 else 0) →
    x = { s.pd with busTimeout := s.params.tmoGuard, recvShift := 0 } →
    (f.getLsbD 0 = false →
      exec .evEdge s = .next { s with edgePend := false, pd := { x with recvShift := f } }) ∧
    (f.getLsbD 0 = true → f.getLsbD 15 = false →
      exec .evEdge s = .next { s with edgePend := false, pd := { x with lastErr := 9 } }) ∧
    (f.getLsbD 0 = true → f.getLsbD 15 = true → popcount (f.extractLsb' 6 9) % 2 = 0 →
      exec .evEdge s = .next { s with edgePend := false, pd := { x with lastErr := 8 } }) ∧
    (f.getLsbD 0 = true → f.getLsbD 15 = true → popcount (f.extractLsb' 6 9) % 2 = 1 →
      ((fifo .pd .inq s).length = s.params.rbCap →
        exec .evEdge s = .next { s with edgePend := false, pd := { x with lastErr := 2 } }) ∧
      ((fifo .pd .inq s).length ≠ s.params.rbCap → ∃ r, r.wf s.params.rbCap = true ∧
        r.seq s.params.rbCap = fifo .pd .inq s ++ [f.extractLsb' 6 8] ∧
        exec .evEdge s = .next { s with edgePend := false, pd := { x with qIn := r } }))

/-- R240, R241: taking an edge event saves nothing, changes no mode and restores nothing: RES, ST, IE, the tick flag,
the traces of the relay, PH, the queues other than PD.IN and both clock drivers are as before. -/
def Obligations.EdgeServiceLeavesControlAlone : Prop :=
  ∀ s t, exec .evEdge s = .next t →
    t = { s with pd := t.pd, edgePend := false, wtrace := t.wtrace } ∧
    t.pd = { s.pd with recvShift := t.pd.recvShift, sendShift := t.pd.sendShift,
                       busTimeout := s.params.tmoGuard, outData := t.pd.outData,
                       lastErr := t.pd.lastErr, qIn := t.pd.qIn }

/-- R134, R147, R148: for every byte, a peripheral that clocks the byte's frame into an idle PD in eleven serviced
edges delivers that byte to PD.IN and leaves PD Idle with no new error. The three turns of a clock are the model's
schedule (log 5, log 19). Levels that are read are the wired-AND of R122, general knowledge in the spec (log 16). -/
def Obligations.PeripheralFrameReachesQueue : Prop :=
  ∀ (d : Byte) (s : State) (sch : List Turn), s.sched = (wireFrame d).flatMap edgeTurns ++ sch → s.ie = true →
    s.edgePend = false → pdPhase s = .idle → s.pd.outClk = true → s.pd.outData = true → s.pd.extClk = true →
    s.pd.qIn.wf s.params.rbCap = true → (fifo .pd .inq s).length < s.params.rbCap →
    ∃ t, core.run 33 s = .next t ∧ fifo .pd .inq t = fifo .pd .inq s ++ [d] ∧ pdPhase t = .idle ∧
      t.pd.lastErr = s.pd.lastErr ∧ t.pd.busTimeout = s.params.tmoGuard ∧ t.sched = sch ∧ t.cmds = s.cmds ∧
      t.res = s.res ∧ t.wtrace = s.wtrace ∧ t.edgeOvr = s.edgeOvr

/-- R145, R128: after IRQ_SEND has armed byte c, eleven serviced edges drive d[0] to d[7], the parity bit, the stop bit
and a released slot onto PD.DATA, whatever levels the peripheral drives, and leave PD Idle with DATA released. The three
turns of a clock are the model's schedule (log 5, log 19). -/
def Obligations.ArmedFrameIsClockedOut : Prop :=
  ∀ (c : Byte) (levels : List Bool) (s : State) (sch : List Turn), levels.length = 11 →
    s.sched = levels.flatMap edgeTurns ++ sch → s.ie = true → s.edgePend = false → s.pd.outClk = true →
    s.pd.extClk = true → s.pd.sendShift = irqPattern c →
    ∃ t, core.run 33 s = .next t ∧ t.pd.sendShift = 0 ∧ t.pd.outData = true ∧ t.pd.recvShift = s.pd.recvShift ∧
      t.wtrace = s.wtrace ++ ((wireFrame c).drop 1 ++ [true]).map (.drive .pd .data) ∧
      t.pd.qIn = s.pd.qIn ∧ t.pd.lastErr = s.pd.lastErr ∧ t.res = s.res

/-- R150 to R153: IRQ_SEND on an idle PD with no latched edge loads the pattern and the timeout, drives the arming
sequence and returns OK, whatever turns fall into its two waits: no edge is serviced, latched or lost during it. -/
def Obligations.IrqSendArmsFrame : Prop :=
  ∀ (c : Byte) (s : State), s.pd.recvShift = 0 → s.pd.sendShift = 0 → s.edgePend = false →
    ∃ t, exec (.irqSend c) s = .next t ∧ t.res = 0x01000000 ∧
      t.pd = { s.pd with sendShift := irqPattern c, busTimeout := s.params.tmoGuard, outClk := true,
                         outData := false, extClk := t.pd.extClk, extData := t.pd.extData } ∧
      t.wtrace = s.wtrace ++ [.drive .pd .clk false, .wait s.params.tInh, .drive .pd .data false,
        .wait s.params.tStart, .drive .pd .clk true] ∧
      t.edgePend = false ∧ t.edgeOvr = s.edgeOvr ∧
      t.ph = { s.ph with extClk := t.ph.extClk, extData := t.ph.extData } ∧
      t.ie = s.ie ∧ t.st = s.st ∧ t.log = s.log ∧ t.cmds = s.cmds

/-- R150: with a receive in progress or an edge latched IRQ_SEND is REFUSED, else with a transmit in progress BUSY; it
then changes nothing but RES. -/
def Obligations.IrqSendRefusedOrBusy : Prop :=
  ∀ (c : Byte) (s : State),
    (s.pd.recvShift ≠ 0 ∨ s.edgePend = true → exec (.irqSend c) s = .next { s with res := 0x31000000 }) ∧
    (s.pd.recvShift = 0 → s.edgePend = false → s.pd.sendShift ≠ 0 →
      exec (.irqSend c) s = .next { s with res := 0x41000000 })

/-! ## E_ST -/

/-- R172, R176, R185: with the computer passive, ST_SEND drives the eleven bits of the frame with one pulse each,
returns OK with VALUE 11, writes no error and leaves PH as it was, whatever the other agents do on PD meanwhile.
Levels that are read are the wired-AND of R122, general knowledge in the spec (log 16). -/
def Obligations.StSendDrivesWholeFrame : Prop :=
  ∀ (c : Byte) (s : State), computerStill s → computerReleased s → phDriversReleased s →
    ∃ t, exec (.stSend c) s = .next t ∧ t.res = 0x0000000B ∧ t.ph = s.ph ∧
      phTrace t = phTrace s ++ sendTrace s.params c ∧ t.st.busy = false ∧ t.log = s.log ∧ t.ie = s.ie ∧ t.cmds = s.cmds ∧
      (quiet s → t = { s with res := 0x0000000B, wtrace := s.wtrace ++ sendTrace s.params c, st := t.st })

/-- R173, R174, R175. A computer that holds the clock low from the start aborts ST_SEND with INHIBITED before pulse 0;
one that holds only data low aborts it with RTS; each releases DATA once, records the status, and drives no pulse. A
computer that pulls the clock low just before the checks of pulse `k`, for each k from 0 to 10, aborts it there with
INHIBITED and VALUE k; one that pulls only data low then aborts it with RTS at the first check from k on at which the
block's own data driver is released, VALUE being that pulse's index, and not at all when there is none. An aborted
send has driven exactly the pulses VALUE counts, and then released DATA. The moment of the pull is a place in the
model's schedule (logs 5, 8, 19). Levels that are read are the wired-AND of R122, general knowledge in the spec (log
16). -/
def Obligations.StSendAbortsBeforeAnyPulse : Prop :=
  (∀ (c : Byte) (s : State), computerStill s → phDriversReleased s →
    (s.ph.extClk = false → ∃ t, exec (.stSend c) s = .next t ∧ t.res = 0x50000000 ∧
      t.ph = { s.ph with lastErr := 5 } ∧ phTrace t = phTrace s ++ [.drive .ph .data true] ∧ t.st.busy = false) ∧
    (s.ph.extClk = true → s.ph.extData = false → ∃ t, exec (.stSend c) s = .next t ∧ t.res = 0x60000000 ∧
      t.ph = { s.ph with lastErr := 6 } ∧ phTrace t = phTrace s ++ [.drive .ph .data true] ∧ t.st.busy = false)) ∧
  (∀ (c : Byte) (s : State) (k : Nat) (clk data : Bool), k ≤ 10 → s.sched = pullBefore c k clk data →
    computerReleased s → phDriversReleased s →
    (clk = false → ∃ t, exec (.stSend c) s = .next t ∧ t.res = BitVec.ofNat 32 (0x50000000 + k) ∧
      t.ph = { s.ph with lastErr := 5, extClk := clk, extData := data } ∧
      phTrace t = phTrace s ++ (sendTrace s.params c).take (6 * k) ++ [.drive .ph .data true] ∧ t.st.busy = false) ∧
    (clk = true → data = false → ∀ j, k ≤ j → j ≤ 10 → dataReleasedAt c j = true →
      (∀ i, k ≤ i → i < j → dataReleasedAt c i = false) →
      ∃ t, exec (.stSend c) s = .next t ∧ t.res = BitVec.ofNat 32 (0x60000000 + j) ∧
        t.ph = { s.ph with lastErr := 6, extData := false } ∧
        phTrace t = phTrace s ++ (sendTrace s.params c).take (6 * j) ++ [.drive .ph .data true] ∧ t.st.busy = false) ∧
    (clk = true → data = false → (∀ i, k ≤ i → i ≤ 10 → dataReleasedAt c i = false) →
      ∃ t, exec (.stSend c) s = .next t ∧ t.res = 0x0000000B ∧ t.ph = { s.ph with extData := false } ∧
        phTrace t = phTrace s ++ sendTrace s.params c ∧ t.st.busy = false))

/-- R172, R183: whatever the computer and the other agents do, ST_SEND returns OK with VALUE 11 and no error, or
INHIBITED or RTS with VALUE 0 to 10 recorded in PH.last_err; it ends with both PH drivers released and ST not busy. -/
def Obligations.StSendAlwaysEndsClean : Prop :=
  ∀ (c : Byte) (s : State), phDriversReleased s → ∃ t, exec (.stSend c) s = .next t ∧ phDriversReleased t ∧
    t.st.busy = false ∧ resNv t.res = false ∧
    ((resStatus t.res = 0 ∧ resValue t.res = 11 ∧ t.ph.lastErr = s.ph.lastErr) ∨
     (resStatus t.res = 5 ∧ (resValue t.res).toNat ≤ 10 ∧ t.ph.lastErr = 5) ∨
     (resStatus t.res = 6 ∧ (resValue t.res).toNat ≤ 10 ∧ t.ph.lastErr = 6))

/-- R177, R178: with PH.CLK low, or with a still computer not pulling PH.DATA low, ST_RECV returns NOFRAME and drives
nothing and writes no error. Levels that are read are the wired-AND of R122, general knowledge in the spec (log 16). -/
def Obligations.StRecvNeedsStartBit : Prop :=
  ∀ s : State, (readWire .ph .clk s = false ∨ (computerStill s ∧ readWire .ph .data s = true)) →
    ∃ t, exec .stRecv s = .next t ∧ t.res = 0x71000000 ∧ phTrace t = phTrace s ∧
      t.ph = { s.ph with extClk := t.ph.extClk, extData := t.ph.extData } ∧ t.st.busy = s.st.busy

/-- R134, R177, R180, R181: for every byte and either parity bit, a computer that holds data low and presents the
byte's bits, the parity bit and the stop bit at pulses 1 to 10: with the byte's odd parity the answer is OK with the
byte and no error is recorded; with the other bit it is PARITY with no value, recorded in PH.last_err, and DATA is
released once more. Both come after ten pulses and, with ST_RECV_ACK (log 4), the acknowledge pulse. The schedule's
shape is the model's (log 8). Levels that are read are the wired-AND of R122, general knowledge in the spec (log 16). -/
def Obligations.StRecvJudgesPresentedFrame : Prop :=
  ∀ (d : Byte) (b : Bool) (s : State) (driven : List WireEvent), s.params.wellFormed = true →
    s.sched = presentBits (((wireFrame d).drop 1).take 8 ++ [b, true]) → phDriversReleased s →
    s.ph.extClk = true → s.ph.extData = false →
    driven = (List.replicate 10 (pulseTrace s.params)).flatten ++ (if s.params.stRecvAck then
      [.drive .ph .data false] ++ pulseTrace s.params ++ [.drive .ph .data true] else []) →
    ∃ t, exec .stRecv s = .next t ∧ phDriversReleased t ∧ t.st.busy = false ∧
      (b = oddParity d → t.res = d.setWidth 32 ∧ t.ph.lastErr = s.ph.lastErr ∧ phTrace t = phTrace s ++ driven) ∧
      (b ≠ oddParity d → t.res = 0x81000000 ∧ t.ph.lastErr = 8 ∧
        phTrace t = phTrace s ++ driven ++ [.drive .ph .data true])

/-- R179, R182: a computer that holds data low for ever gets N_RECV_MAX pulses and FRAMING; one that presents any nine
bits and its first 1 after them at pulse `n`, from 11 to N_RECV_MAX, gets `n` pulses and FRAMING. The second's
schedule is the model's (log 8). Levels that are read are the wired-AND of R122, general knowledge in the spec (log
16). -/
def Obligations.StRecvFramingWithoutTimelyStop : Prop :=
  (∀ s : State, computerStill s → phDriversReleased s → s.ph.extClk = true → s.ph.extData = false →
    ∃ t, exec .stRecv s = .next t ∧ t.res = 0x91000000 ∧ t.ph = { s.ph with lastErr := 9 } ∧ t.st.busy = false ∧
      phTrace t = phTrace s ++ unansweredTrace s.params) ∧
  (∀ (bits : List Bool) (n : Nat) (s : State), bits.length = 9 → 11 ≤ n → n ≤ s.params.nRecvMax →
    s.sched = presentBits (bits ++ List.replicate (n - 10) false ++ [true]) → phDriversReleased s →
    s.ph.extClk = true → s.ph.extData = false →
    ∃ t, exec .stRecv s = .next t ∧ t.res = 0x91000000 ∧ t.ph.lastErr = 9 ∧ phDriversReleased t ∧ t.st.busy = false ∧
      phTrace t = phTrace s ++ (List.replicate n (pulseTrace s.params)).flatten ++ [.drive .ph .data true])

/-- R177, R182, R183: whatever the computer and the other agents do, ST_RECV returns OK with a byte, NOFRAME, FRAMING or
PARITY, a failure with no value; FRAMING and PARITY are recorded in PH.last_err and nothing else is; it ends with both
PH drivers released. -/
def Obligations.StRecvAlwaysEndsClean : Prop :=
  ∀ s : State, phDriversReleased s → s.st.busy = false → ∃ t, exec .stRecv s = .next t ∧ phDriversReleased t ∧
    t.st.busy = false ∧
    ((∃ d : Byte, t.res = d.setWidth 32 ∧ t.ph.lastErr = s.ph.lastErr) ∨
     (t.res = 0x71000000 ∧ t.ph.lastErr = s.ph.lastErr) ∨
     (t.res = 0x91000000 ∧ t.ph.lastErr = 9) ∨ (t.res = 0x81000000 ∧ t.ph.lastErr = 8))

/-- The frame of the E_ST commands (R41, R73, R183), under every schedule: no queue but PD.IN changes, and that one
only if the EDGE agent may step; PH's shift registers and timeout, IE, LOG and the command stream stay; with no other
agent moving, PD and its flags stay too. -/
def Obligations.StCommandsFrame : Prop :=
  ∀ (i : Instr) (s t : State), (i = .stRecv ∨ ∃ c, i = .stSend c) → exec i s = .next t →
    (∀ p q, ¬(p = .pd ∧ q = .inq) → getQueue p q t = getQueue p q s) ∧ (s.ie = false → t.pd.qIn = s.pd.qIn) ∧
    t.ph.recvShift = s.ph.recvShift ∧ t.ph.sendShift = s.ph.sendShift ∧ t.ph.busTimeout = s.ph.busTimeout ∧
    t.ie = s.ie ∧ t.log = s.log ∧ t.cmds = s.cmds ∧ t.pd.outClk = s.pd.outClk ∧
    (quiet s → t = { s with res := t.res, wtrace := t.wtrace, st := t.st,
                            ph := { s.ph with outClk := t.ph.outClk, outData := t.ph.outData, lastErr := t.ph.lastErr } })

/-! ## Timeout, critical sections, diagnostics -/

/-- R200, R203, R204: EV_TICK sets the tick flag and nothing else; CS_ENTER clears IE and CS_EXIT sets it, each with RES
OK and no value and nothing else changed. -/
def Obligations.TickAndCriticalSections : Prop :=
  ∀ s : State, exec .evTick s = .next { s with tickFlag := true } ∧
    exec .csEnter s = .next { s with ie := false, res := 0x01000000 } ∧
    exec .csExit s = .next { s with ie := true, res := 0x01000000 }

/-- R201, R202: TMO_SERVICE without a tick changes only RES; with one it consumes the flag, counts PD.bus_timeout down
while it is not 0, and on the step to 0 runs the recovery: both PD drivers released, both shift registers cleared,
TIMEOUT recorded exactly when a frame was in progress. Queues, EDGE_PEND and PH are untouched. -/
def Obligations.TmoServiceCountsAndRecovers : Prop :=
  ∀ s : State,
    (s.tickFlag = false → exec .tmoService s = .next { s with res := 0 }) ∧
    (s.tickFlag = true → s.pd.busTimeout = 0 → exec .tmoService s = .next { s with tickFlag := false, res := 0 }) ∧
    (s.tickFlag = true → s.pd.busTimeout ≠ 0 → s.pd.busTimeout ≠ 1 → exec .tmoService s = .next { s with
      tickFlag := false, res := 0, pd := { s.pd with busTimeout := s.pd.busTimeout - 1 } }) ∧
    (s.tickFlag = true → s.pd.busTimeout = 1 → exec .tmoService s = .next { s with
      tickFlag := false
      res := 1
      pd := { s.pd with busTimeout := 0, recvShift := 0, sendShift := 0, outClk := true, outData := true,
                        lastErr := if s.pd.recvShift ≠ 0 ∨ s.pd.sendShift ≠ 0 then 10 else s.pd.lastErr }
      wtrace := s.wtrace ++ [.drive .pd .clk true, .drive .pd .data true] })

/-- R201, R202, R235: with no edge meanwhile, as many ticks, each followed by TMO_SERVICE, as the timeout holds bring PD
back to Idle with both drivers released, TIMEOUT recorded for a frame in progress, and no queue touched. The order of the
turns is given in the model's schedule (log 5), the words in its command stream (log 6). -/
def Obligations.TicksRecoverStuckBus : Prop :=
  ∀ (s : State) (n : Nat), 0 < n → s.pd.busTimeout.toNat = n → s.edgePend = false →
    s.sched = (List.replicate n [Turn.tick, Turn.ctrl]).flatten → s.cmds = List.replicate n 0x8000 →
    ∃ t, core.run (2 * n) s = .next t ∧ pdPhase t = .idle ∧ t.pd.outClk = true ∧ t.pd.outData = true ∧
      t.pd.busTimeout = 0 ∧ t.res = 1 ∧ (pdPhase s ≠ .idle → t.pd.lastErr = 10) ∧
      (pdPhase s = .idle → t.pd.lastErr = s.pd.lastErr) ∧ (∀ p q, getQueue p q t = getQueue p q s) ∧ t.ph = s.ph

/-- R38, R205: REG_READ of each numbered register returns its value, zero-extended, and changes nothing but RES. Bits 2
and 3 of a LINE register are the wires' levels, the wired-AND of R122, which the spec marks as general knowledge
(log 16). -/
def Obligations.RegReadReturnsRegister : Prop :=
  ∀ (s : State) (p : Port) (base : Byte), base = (if p = .pd then 0x00 else 0x08) →
    exec (.regRead base) s = .next { s with res := (getPort p s).recvShift.setWidth 32 } ∧
    exec (.regRead (base + 1)) s = .next { s with res := (getPort p s).sendShift.setWidth 32 } ∧
    exec (.regRead (base + 2)) s = .next { s with res := (getPort p s).busTimeout.setWidth 32 } ∧
    (∃ v, exec (.regRead (base + 3)) s = .next { s with res := v } ∧ v.toNat < 16 ∧
      v.getLsbD 0 = (getPort p s).outClk ∧ v.getLsbD 1 = (getPort p s).outData ∧
      v.getLsbD 2 = ((getPort p s).outClk && (getPort p s).extClk) ∧
      v.getLsbD 3 = ((getPort p s).outData && (getPort p s).extData)) ∧
    exec (.regRead (base + 4)) s = .next { s with res := (getPort p s).lastErr.setWidth 32 } ∧
    (∃ v, exec (.regRead 0x10) s = .next { s with res := v } ∧ v.toNat < 16 ∧ v.getLsbD 0 = s.ie ∧
      v.getLsbD 1 = s.edgePend ∧ v.getLsbD 2 = s.edgeOvr ∧ v.getLsbD 3 = s.tickFlag) ∧
    (∀ q k, k = (match q with | .inq => 0 | .out => 1 | .aux0 => 2 | .aux1 => 3) →
      s.params.wellFormed = true → (getQueue p q s).wf s.params.rbCap = true →
      exec (.regRead (0x20 + (if p = .pd then 0 else 4) + k)) s =
        .next { s with res := BitVec.ofNat 32 (fifo p q s).length })

/-! ## The relay -/

/-- R206, R212: with the relay's queues empty, the computer passive and no other agent moving, RELAY_STEP is its step
5. Without a tick it changes nothing but RES (and the hidden position in ST); with one it consumes the flag and counts
PD.bus_timeout down while it is not 0; on the step to 0 it runs the recovery and reports m[4]. Levels that are read
are the wired-AND of R122, general knowledge in the spec (log 16). -/
def Obligations.RelayStepServicesTick : Prop :=
  ∀ s : State, quiet s → computerReleased s → phDriversReleased s → s.pd.qIn.count = 0 → s.pd.qOut.count = 0 →
    s.ph.qOut.count = 0 →
    ∃ x : StState, x = { s.st with pc := x.pc } ∧
      (s.tickFlag = false → exec .relayStep s = .next { s with res := 0, st := x }) ∧
      (s.tickFlag = true → s.pd.busTimeout = 0 →
        exec .relayStep s = .next { s with tickFlag := false, res := 0, st := x }) ∧
      (s.tickFlag = true → s.pd.busTimeout ≠ 0 → s.pd.busTimeout ≠ 1 → exec .relayStep s = .next { s with
        tickFlag := false, res := 0, st := x, pd := { s.pd with busTimeout := s.pd.busTimeout - 1 } }) ∧
      (s.tickFlag = true → s.pd.busTimeout = 1 → exec .relayStep s = .next { s with
        tickFlag := false
        res := 16
        st := x
        pd := { s.pd with busTimeout := 0, recvShift := 0, sendShift := 0, outClk := true, outData := true,
                          lastErr := if s.pd.recvShift ≠ 0 ∨ s.pd.sendShift ≠ 0 then 10 else s.pd.lastErr }
        wtrace := s.wtrace ++ [.drive .pd .clk true, .drive .pd .data true] })

/-- R206, R212: RELAY_STEP always completes with STATUS OK and the five bits of m, whatever the other agents do; its step 5
consumes the tick, and m[4] says that PD was recovered. -/
def Obligations.RelayStepAlwaysReports : Prop :=
  ∀ s : State, ∃ t, exec .relayStep s = .next t ∧ resStatus t.res = 0 ∧ resNv t.res = false ∧
    (resValue t.res).toNat < 32 ∧ (s.st.busy = false → t.st.busy = false) ∧ t.ie = s.ie ∧ t.cmds = s.cmds ∧
    t.tickFlag = false ∧ ((resValue t.res).getLsbD 4 = true →
      pdPhase t = .idle ∧ t.pd.busTimeout = 0 ∧ t.pd.outClk = true ∧ t.pd.outData = true)

/-- R207, R209, R213 (a), (b): for every byte, a computer that holds data low and presents the byte's frame to a
RELAY_STEP with room in PD.OUT: the byte goes to the tail of PD.OUT and is logged C2P, and m[0] is set. With PD idle
step 3 then arms the head of PD.OUT; with a frame in progress on PD it stays. The schedule's shape is the model's (log
8). Before a still computer that asks to send and presents nothing, under every schedule of the others: with PD.OUT
full step 1 is skipped, so nothing is clocked on PH and no error recorded; with room the receive ends in FRAMING after
N_RECV_MAX pulses, which the relay ignores. In both, nothing is queued for the peripheral or logged C2P. Levels that
are read are the wired-AND of R122, general knowledge in the spec (log 16). -/
def Obligations.RelayStepForwardsComputerByte : Prop :=
  (∀ (s : State) (d : Byte), BlockInv s → s.sched = presentBits ((wireFrame d).drop 1) → s.ph.extClk = true →
    s.ph.extData = false → s.tickFlag = false → s.edgePend = false → (fifo .pd .out s).length < s.params.rbCap →
    fifo .ph .out s = [] → fifo .pd .inq s = [] →
    ∃ t, exec .relayStep s = .next t ∧ t.log = s.log ++ [⟨.c2p, d⟩] ∧ fifo .ph .out t = [] ∧ fifo .pd .inq t = [] ∧
      t.ph.lastErr = s.ph.lastErr ∧
      (pdPhase s = .idle → ∀ v l, fifo .pd .out s ++ [d] = v :: l →
        t.res = 5 ∧ fifo .pd .out t = l ∧ t.pd.sendShift = irqPattern v) ∧
      (pdPhase s ≠ .idle → t.res = 1 ∧ fifo .pd .out t = fifo .pd .out s ++ [d] ∧
        t.pd.sendShift = s.pd.sendShift ∧ t.pd.recvShift = s.pd.recvShift)) ∧
  (∀ s : State, BlockInv s → computerStill s → s.ph.extClk = true → s.ph.extData = false → fifo .ph .out s = [] →
    ∃ (t : State) (m : Word) (b : List Byte), exec .relayStep s = .next t ∧ m = resValue t.res ∧
      m.getLsbD 0 = false ∧ m.getLsbD 1 = false ∧ fifo .pd .out t = (fifo .pd .out s).drop (m.getLsbD 2).toNat ∧
      t.log = s.log ++ b.map (⟨.p2c, ·⟩) ∧
      ((fifo .pd .out s).length = s.params.rbCap → t.ph.lastErr = s.ph.lastErr ∧
        phTrace t = phTrace s ++ armWaits s.params (m.getLsbD 2)) ∧
      ((fifo .pd .out s).length < s.params.rbCap → t.ph.lastErr = 9 ∧
        phTrace t = phTrace s ++ unansweredTrace s.params ++ armWaits s.params (m.getLsbD 2)))

/-- R210, R213 (a): with no other agent moving and the computer passive, a byte at the head of PD.IN is moved by one
RELAY_STEP to the tail of PH.OUT (here empty) and logged. Levels that are read are the wired-AND of R122, general
knowledge in the spec (log 16). -/
def Obligations.RelayStepForwardsPeripheralByte : Prop :=
  ∀ (s : State) (v : Byte) (l : List Byte), BlockInv s → quiet s → computerReleased s → s.tickFlag = false →
    fifo .pd .inq s = v :: l → fifo .ph .out s = [] → fifo .pd .out s = [] →
    ∃ t, exec .relayStep s = .next t ∧ t.res = 8 ∧ fifo .pd .inq t = l ∧ fifo .ph .out t = [v] ∧
      t.log = s.log ++ [⟨.p2c, v⟩] ∧ t.wtrace = s.wtrace ∧ fifo .pd .out t = []

/-- R208, R209, R213 (c): a byte whose send fails goes back to the head of its queue, in order, and its bit of m is 0.
To the peripheral: with a receive or a transmit in progress, or an edge latched (masked, where no other agent moves),
IRQ_SEND is refused and nothing of PD but the queue's slots changes. To the computer, under every schedule of the
others: a still computer that holds the clock low inhibits ST_SEND before pulse 0, and one that holds only data low,
after the receive of step 1 where PD.OUT has room for it, aborts it with RTS; PH.last_err says which, and DATA is
released once. Levels that are read are the wired-AND of R122, general knowledge in the spec (log 16). -/
def Obligations.RelayStepRetriesFailedSend : Prop :=
  (∀ (s : State) (v : Byte) (l : List Byte), BlockInv s → quiet s → computerReleased s → s.tickFlag = false →
    pdPhase s ≠ .idle ∨ s.edgePend = true → fifo .pd .out s = v :: l → fifo .ph .out s = [] → fifo .pd .inq s = [] →
    ∃ t, exec .relayStep s = .next t ∧ t.res = 0 ∧ fifo .pd .out t = v :: l ∧
      t.pd = { s.pd with qOut := t.pd.qOut } ∧ t.edgePend = s.edgePend ∧ t.log = s.log ∧ t.wtrace = s.wtrace) ∧
  (∀ (s : State) (v : Byte) (l : List Byte) (e : BitVec 4) (received : List WireEvent), BlockInv s → computerStill s →
    fifo .ph .out s = v :: l →
    (s.ph.extClk = false ∧ e = 5) ∨ (s.ph.extClk = true ∧ s.ph.extData = false ∧ e = 6) →
    received = (if s.ph.extClk = true ∧ (fifo .pd .out s).length < s.params.rbCap then unansweredTrace s.params
      else []) →
    ∃ (t : State) (m : Word) (b : List Byte), exec .relayStep s = .next t ∧ m = resValue t.res ∧
      m.getLsbD 0 = false ∧ m.getLsbD 1 = false ∧ fifo .ph .out t = v :: l ++ b ∧ b.length = (m.getLsbD 3).toNat ∧
      t.ph.lastErr = e ∧ t.log = s.log ++ b.map (⟨.p2c, ·⟩) ∧
      phTrace t = phTrace s ++ received ++ [.drive .ph .data true] ++ armWaits s.params (m.getLsbD 2))

/-- R208: with no other agent moving and the computer passive, one RELAY_STEP sends the byte at the head of PH.OUT to
the computer, whole and with no error, and takes it out of the queue. Levels that are read are the wired-AND of R122,
general knowledge in the spec (log 16). -/
def Obligations.RelayStepSendsToComputer : Prop :=
  ∀ (s : State) (v : Byte) (l : List Byte), BlockInv s → quiet s → computerReleased s → s.tickFlag = false →
    fifo .ph .out s = v :: l → fifo .pd .inq s = [] → fifo .pd .out s = [] →
    ∃ t, exec .relayStep s = .next t ∧ t.res = 2 ∧ fifo .ph .out t = l ∧ t.wtrace = s.wtrace ++ sendTrace s.params v ∧
      t.ph.lastErr = s.ph.lastErr ∧ phDriversReleased t ∧ t.log = s.log ∧ t.pd = s.pd

/-- R209: with no other agent moving, PD idle with no edge latched and the computer passive, one RELAY_STEP arms the
byte at the head of PD.OUT and takes it out of the queue. Levels that are read are the wired-AND of R122, general
knowledge in the spec (log 16). -/
def Obligations.RelayStepArmsPeripheralSend : Prop :=
  ∀ (s : State) (v : Byte) (l : List Byte), BlockInv s → quiet s → computerReleased s → s.tickFlag = false →
    pdPhase s = .idle → s.edgePend = false → fifo .pd .out s = v :: l → fifo .ph .out s = [] → fifo .pd .inq s = [] →
    ∃ t, exec .relayStep s = .next t ∧ t.res = 4 ∧ fifo .pd .out t = l ∧ t.pd.sendShift = irqPattern v ∧
      t.pd.busTimeout = s.params.tmoGuard ∧ t.pd.outClk = true ∧ t.pd.outData = false ∧ t.log = s.log ∧
      t.wtrace = s.wtrace ++ [.drive .pd .clk false, .wait s.params.tInh, .drive .pd .data false,
        .wait s.params.tStart, .drive .pd .clk true]

/-- R207 to R211, R213 (b) to (d): under every schedule RELAY_STEP loses, invents and reorders no byte. `a` is what step 1
received, which is the byte ST_RECV answers here, if it answers OK and PD.OUT has room, and else nothing; `b` is what
step 4 moved; `rcv` is what E_IRQ inserted meanwhile, nothing when no edge can be serviced (IE = 0, or none latched and no
turn of ENV_P). A byte leaves an outbound queue only from its head and only when its send was OK: with m[1] the whole
frame of PH.OUT's head was clocked on PH, and without it a byte that waits there was turned away with INHIBITED or RTS;
PD's clock was pulled low once with m[2], to arm the send, and not without it. Exactly the bytes placed in an outbound
queue are logged. -/
def Obligations.RelayStepConservesBytes : Prop :=
  ∀ s : State, (∀ p q, (getQueue p q s).wf s.params.rbCap = true) →
    ∃ (t : State) (m : Word) (a b rcv : List Byte), exec .relayStep s = .next t ∧ m = resValue t.res ∧
      (∀ u, exec .stRecv s = .next u → a = if (fifo .pd .out s).length < s.params.rbCap ∧ resStatus u.res = 0
        then [(resValue u.res).setWidth 8] else []) ∧
      (s.ie = false ∨ (s.edgePend = false ∧ ∀ u ∈ s.sched, ∀ c d, u ≠ .envP c d) → rcv = []) ∧
      a.length = (m.getLsbD 0).toNat ∧ b.length = (m.getLsbD 3).toNat ∧
      (m.getLsbD 1 = true → ∃ v l x y, fifo .ph .out s = v :: l ∧
        phTrace t = phTrace s ++ x ++ sendTrace s.params v ++ y) ∧
      (m.getLsbD 1 = false → fifo .ph .out s ≠ [] → t.ph.lastErr = 5 ∨ t.ph.lastErr = 6) ∧
      (m.getLsbD 2 = true → fifo .pd .out s ++ a ≠ []) ∧
      t.wtrace.count (.drive .pd .clk false) = s.wtrace.count (.drive .pd .clk false) + (m.getLsbD 2).toNat ∧
      fifo .pd .out t = (fifo .pd .out s ++ a).drop (m.getLsbD 2).toNat ∧
      fifo .ph .out t = (fifo .ph .out s).drop (m.getLsbD 1).toNat ++ b ∧
      fifo .pd .inq s ++ rcv = b ++ fifo .pd .inq t ∧
      t.log = s.log ++ a.map (⟨.c2p, ·⟩) ++ b.map (⟨.p2c, ·⟩)
end

