-- ==== Sys2Proof/Laws/State.lean ====
section
/-! SUPPORT. One lemma for each field and each update of the state, so that no later proof unfolds a record update:
first the fields an update leaves alone, then what it writes. -/

namespace Sys2Proof.Machine

/-! ## The parameters: one spelling, `s.params`, through every record update -/

@[simp] theorem State.params_mk (pd ph : PortState) (res : ResWord) (ie edgePend edgeOvr tickFlag : Bool) (st : StState)
    (log : List LogEvent) (wtrace : List WireEvent) (cmds : List Word) (sched : List Turn) (L : Literals) :
    (State.mk pd ph res ie edgePend edgeOvr tickFlag st log wtrace cmds sched L).params = L.params := rfl
@[simp] theorem State.literals_params (s : State) : s.literals.params = s.params := rfl

/-! ## Fields left alone -/

@[simp] theorem updPort_res (p : Port) (f : PortState → PortState) (s : State) : (updPort p f s).res = s.res := by cases p <;> rfl
@[simp] theorem updPort_ie (p : Port) (f : PortState → PortState) (s : State) : (updPort p f s).ie = s.ie := by cases p <;> rfl
@[simp] theorem updPort_edgePend (p : Port) (f : PortState → PortState) (s : State) : (updPort p f s).edgePend = s.edgePend := by cases p <;> rfl
@[simp] theorem updPort_edgeOvr (p : Port) (f : PortState → PortState) (s : State) : (updPort p f s).edgeOvr = s.edgeOvr := by cases p <;> rfl
@[simp] theorem updPort_tickFlag (p : Port) (f : PortState → PortState) (s : State) : (updPort p f s).tickFlag = s.tickFlag := by cases p <;> rfl
@[simp] theorem updPort_st (p : Port) (f : PortState → PortState) (s : State) : (updPort p f s).st = s.st := by cases p <;> rfl
@[simp] theorem updPort_log (p : Port) (f : PortState → PortState) (s : State) : (updPort p f s).log = s.log := by cases p <;> rfl
@[simp] theorem updPort_wtrace (p : Port) (f : PortState → PortState) (s : State) : (updPort p f s).wtrace = s.wtrace := by cases p <;> rfl
@[simp] theorem updPort_cmds (p : Port) (f : PortState → PortState) (s : State) : (updPort p f s).cmds = s.cmds := by cases p <;> rfl
@[simp] theorem updPort_sched (p : Port) (f : PortState → PortState) (s : State) : (updPort p f s).sched = s.sched := by cases p <;> rfl
@[simp] theorem updPort_params (p : Port) (f : PortState → PortState) (s : State) : (updPort p f s).params = s.params := by cases p <;> rfl

@[simp] theorem setQueue_res (p : Port) (q : QueueId) (r : Ring) (s : State) : (setQueue p q r s).res = s.res := by cases p <;> rfl
@[simp] theorem setQueue_ie (p : Port) (q : QueueId) (r : Ring) (s : State) : (setQueue p q r s).ie = s.ie := by cases p <;> rfl
@[simp] theorem setQueue_edgePend (p : Port) (q : QueueId) (r : Ring) (s : State) : (setQueue p q r s).edgePend = s.edgePend := by cases p <;> rfl
@[simp] theorem setQueue_edgeOvr (p : Port) (q : QueueId) (r : Ring) (s : State) : (setQueue p q r s).edgeOvr = s.edgeOvr := by cases p <;> rfl
@[simp] theorem setQueue_tickFlag (p : Port) (q : QueueId) (r : Ring) (s : State) : (setQueue p q r s).tickFlag = s.tickFlag := by cases p <;> rfl
@[simp] theorem setQueue_st (p : Port) (q : QueueId) (r : Ring) (s : State) : (setQueue p q r s).st = s.st := by cases p <;> rfl
@[simp] theorem setQueue_log (p : Port) (q : QueueId) (r : Ring) (s : State) : (setQueue p q r s).log = s.log := by cases p <;> rfl
@[simp] theorem setQueue_wtrace (p : Port) (q : QueueId) (r : Ring) (s : State) : (setQueue p q r s).wtrace = s.wtrace := by cases p <;> rfl
@[simp] theorem setQueue_cmds (p : Port) (q : QueueId) (r : Ring) (s : State) : (setQueue p q r s).cmds = s.cmds := by cases p <;> rfl
@[simp] theorem setQueue_sched (p : Port) (q : QueueId) (r : Ring) (s : State) : (setQueue p q r s).sched = s.sched := by cases p <;> rfl
@[simp] theorem setQueue_params (p : Port) (q : QueueId) (r : Ring) (s : State) : (setQueue p q r s).params = s.params := by cases p <;> rfl

@[simp] theorem setLastErr_res (p : Port) (e : Status) (s : State) : (setLastErr p e s).res = s.res := by cases p <;> rfl
@[simp] theorem setLastErr_ie (p : Port) (e : Status) (s : State) : (setLastErr p e s).ie = s.ie := by cases p <;> rfl
@[simp] theorem setLastErr_edgePend (p : Port) (e : Status) (s : State) : (setLastErr p e s).edgePend = s.edgePend := by cases p <;> rfl
@[simp] theorem setLastErr_edgeOvr (p : Port) (e : Status) (s : State) : (setLastErr p e s).edgeOvr = s.edgeOvr := by cases p <;> rfl
@[simp] theorem setLastErr_tickFlag (p : Port) (e : Status) (s : State) : (setLastErr p e s).tickFlag = s.tickFlag := by cases p <;> rfl
@[simp] theorem setLastErr_st (p : Port) (e : Status) (s : State) : (setLastErr p e s).st = s.st := by cases p <;> rfl
@[simp] theorem setLastErr_log (p : Port) (e : Status) (s : State) : (setLastErr p e s).log = s.log := by cases p <;> rfl
@[simp] theorem setLastErr_wtrace (p : Port) (e : Status) (s : State) : (setLastErr p e s).wtrace = s.wtrace := by cases p <;> rfl
@[simp] theorem setLastErr_cmds (p : Port) (e : Status) (s : State) : (setLastErr p e s).cmds = s.cmds := by cases p <;> rfl
@[simp] theorem setLastErr_sched (p : Port) (e : Status) (s : State) : (setLastErr p e s).sched = s.sched := by cases p <;> rfl
@[simp] theorem setLastErr_params (p : Port) (e : Status) (s : State) : (setLastErr p e s).params = s.params := by cases p <;> rfl

@[simp] theorem driveWire_res (p : Port) (w : Wire) (v : Bool) (s : State) : (driveWire p w v s).res = s.res := by cases p <;> rfl
@[simp] theorem driveWire_ie (p : Port) (w : Wire) (v : Bool) (s : State) : (driveWire p w v s).ie = s.ie := by cases p <;> rfl
@[simp] theorem driveWire_edgePend (p : Port) (w : Wire) (v : Bool) (s : State) : (driveWire p w v s).edgePend = s.edgePend := by cases p <;> rfl
@[simp] theorem driveWire_edgeOvr (p : Port) (w : Wire) (v : Bool) (s : State) : (driveWire p w v s).edgeOvr = s.edgeOvr := by cases p <;> rfl
@[simp] theorem driveWire_tickFlag (p : Port) (w : Wire) (v : Bool) (s : State) : (driveWire p w v s).tickFlag = s.tickFlag := by cases p <;> rfl
@[simp] theorem driveWire_st (p : Port) (w : Wire) (v : Bool) (s : State) : (driveWire p w v s).st = s.st := by cases p <;> rfl
@[simp] theorem driveWire_log (p : Port) (w : Wire) (v : Bool) (s : State) : (driveWire p w v s).log = s.log := by cases p <;> rfl
@[simp] theorem driveWire_cmds (p : Port) (w : Wire) (v : Bool) (s : State) : (driveWire p w v s).cmds = s.cmds := by cases p <;> rfl
@[simp] theorem driveWire_sched (p : Port) (w : Wire) (v : Bool) (s : State) : (driveWire p w v s).sched = s.sched := by cases p <;> rfl
@[simp] theorem driveWire_params (p : Port) (w : Wire) (v : Bool) (s : State) : (driveWire p w v s).params = s.params := by cases p <;> rfl

@[simp] theorem writeRes_pd (r : CmdResult) (s : State) : (writeRes r s).pd = s.pd := rfl
@[simp] theorem writeRes_ph (r : CmdResult) (s : State) : (writeRes r s).ph = s.ph := rfl
@[simp] theorem writeRes_ie (r : CmdResult) (s : State) : (writeRes r s).ie = s.ie := rfl
@[simp] theorem writeRes_edgePend (r : CmdResult) (s : State) : (writeRes r s).edgePend = s.edgePend := rfl
@[simp] theorem writeRes_edgeOvr (r : CmdResult) (s : State) : (writeRes r s).edgeOvr = s.edgeOvr := rfl
@[simp] theorem writeRes_tickFlag (r : CmdResult) (s : State) : (writeRes r s).tickFlag = s.tickFlag := rfl
@[simp] theorem writeRes_st (r : CmdResult) (s : State) : (writeRes r s).st = s.st := rfl
@[simp] theorem writeRes_log (r : CmdResult) (s : State) : (writeRes r s).log = s.log := rfl
@[simp] theorem writeRes_wtrace (r : CmdResult) (s : State) : (writeRes r s).wtrace = s.wtrace := rfl
@[simp] theorem writeRes_cmds (r : CmdResult) (s : State) : (writeRes r s).cmds = s.cmds := rfl
@[simp] theorem writeRes_sched (r : CmdResult) (s : State) : (writeRes r s).sched = s.sched := rfl
@[simp] theorem writeRes_params (r : CmdResult) (s : State) : (writeRes r s).params = s.params := rfl

@[simp] theorem appendLog_pd (d : Dir) (c : Byte) (s : State) : (appendLog d c s).pd = s.pd := rfl
@[simp] theorem appendLog_ph (d : Dir) (c : Byte) (s : State) : (appendLog d c s).ph = s.ph := rfl
@[simp] theorem appendLog_res (d : Dir) (c : Byte) (s : State) : (appendLog d c s).res = s.res := rfl
@[simp] theorem appendLog_ie (d : Dir) (c : Byte) (s : State) : (appendLog d c s).ie = s.ie := rfl
@[simp] theorem appendLog_edgePend (d : Dir) (c : Byte) (s : State) : (appendLog d c s).edgePend = s.edgePend := rfl
@[simp] theorem appendLog_edgeOvr (d : Dir) (c : Byte) (s : State) : (appendLog d c s).edgeOvr = s.edgeOvr := rfl
@[simp] theorem appendLog_tickFlag (d : Dir) (c : Byte) (s : State) : (appendLog d c s).tickFlag = s.tickFlag := rfl
@[simp] theorem appendLog_st (d : Dir) (c : Byte) (s : State) : (appendLog d c s).st = s.st := rfl
@[simp] theorem appendLog_wtrace (d : Dir) (c : Byte) (s : State) : (appendLog d c s).wtrace = s.wtrace := rfl
@[simp] theorem appendLog_cmds (d : Dir) (c : Byte) (s : State) : (appendLog d c s).cmds = s.cmds := rfl
@[simp] theorem appendLog_sched (d : Dir) (c : Byte) (s : State) : (appendLog d c s).sched = s.sched := rfl
@[simp] theorem appendLog_params (d : Dir) (c : Byte) (s : State) : (appendLog d c s).params = s.params := rfl

@[simp] theorem waitFor_pd (t : Nat) (s : State) : (waitFor t s).pd = s.pd := rfl
@[simp] theorem waitFor_ph (t : Nat) (s : State) : (waitFor t s).ph = s.ph := rfl
@[simp] theorem waitFor_res (t : Nat) (s : State) : (waitFor t s).res = s.res := rfl
@[simp] theorem waitFor_ie (t : Nat) (s : State) : (waitFor t s).ie = s.ie := rfl
@[simp] theorem waitFor_edgePend (t : Nat) (s : State) : (waitFor t s).edgePend = s.edgePend := rfl
@[simp] theorem waitFor_edgeOvr (t : Nat) (s : State) : (waitFor t s).edgeOvr = s.edgeOvr := rfl
@[simp] theorem waitFor_tickFlag (t : Nat) (s : State) : (waitFor t s).tickFlag = s.tickFlag := rfl
@[simp] theorem waitFor_st (t : Nat) (s : State) : (waitFor t s).st = s.st := rfl
@[simp] theorem waitFor_log (t : Nat) (s : State) : (waitFor t s).log = s.log := rfl
@[simp] theorem waitFor_cmds (t : Nat) (s : State) : (waitFor t s).cmds = s.cmds := rfl
@[simp] theorem waitFor_sched (t : Nat) (s : State) : (waitFor t s).sched = s.sched := rfl
@[simp] theorem waitFor_params (t : Nat) (s : State) : (waitFor t s).params = s.params := rfl

@[simp] theorem tickTurn_pd (s : State) : (tickTurn s).pd = s.pd := rfl
@[simp] theorem tickTurn_ph (s : State) : (tickTurn s).ph = s.ph := rfl
@[simp] theorem tickTurn_res (s : State) : (tickTurn s).res = s.res := rfl
@[simp] theorem tickTurn_ie (s : State) : (tickTurn s).ie = s.ie := rfl
@[simp] theorem tickTurn_edgePend (s : State) : (tickTurn s).edgePend = s.edgePend := rfl
@[simp] theorem tickTurn_edgeOvr (s : State) : (tickTurn s).edgeOvr = s.edgeOvr := rfl
@[simp] theorem tickTurn_st (s : State) : (tickTurn s).st = s.st := rfl
@[simp] theorem tickTurn_log (s : State) : (tickTurn s).log = s.log := rfl
@[simp] theorem tickTurn_wtrace (s : State) : (tickTurn s).wtrace = s.wtrace := rfl
@[simp] theorem tickTurn_cmds (s : State) : (tickTurn s).cmds = s.cmds := rfl
@[simp] theorem tickTurn_sched (s : State) : (tickTurn s).sched = s.sched := rfl
@[simp] theorem tickTurn_params (s : State) : (tickTurn s).params = s.params := rfl

@[simp] theorem envHTurn_pd (clk data : Bool) (s : State) : (envHTurn clk data s).pd = s.pd := rfl
@[simp] theorem envHTurn_res (clk data : Bool) (s : State) : (envHTurn clk data s).res = s.res := rfl
@[simp] theorem envHTurn_ie (clk data : Bool) (s : State) : (envHTurn clk data s).ie = s.ie := rfl
@[simp] theorem envHTurn_edgePend (clk data : Bool) (s : State) : (envHTurn clk data s).edgePend = s.edgePend := rfl
@[simp] theorem envHTurn_edgeOvr (clk data : Bool) (s : State) : (envHTurn clk data s).edgeOvr = s.edgeOvr := rfl
@[simp] theorem envHTurn_tickFlag (clk data : Bool) (s : State) : (envHTurn clk data s).tickFlag = s.tickFlag := rfl
@[simp] theorem envHTurn_st (clk data : Bool) (s : State) : (envHTurn clk data s).st = s.st := rfl
@[simp] theorem envHTurn_log (clk data : Bool) (s : State) : (envHTurn clk data s).log = s.log := rfl
@[simp] theorem envHTurn_wtrace (clk data : Bool) (s : State) : (envHTurn clk data s).wtrace = s.wtrace := rfl
@[simp] theorem envHTurn_cmds (clk data : Bool) (s : State) : (envHTurn clk data s).cmds = s.cmds := rfl
@[simp] theorem envHTurn_sched (clk data : Bool) (s : State) : (envHTurn clk data s).sched = s.sched := rfl
@[simp] theorem envHTurn_params (clk data : Bool) (s : State) : (envHTurn clk data s).params = s.params := rfl

@[simp] theorem stFinish_pd (s : State) : (stFinish s).pd = s.pd := rfl
@[simp] theorem stFinish_ph (s : State) : (stFinish s).ph = s.ph := rfl
@[simp] theorem stFinish_res (s : State) : (stFinish s).res = s.res := rfl
@[simp] theorem stFinish_ie (s : State) : (stFinish s).ie = s.ie := rfl
@[simp] theorem stFinish_edgePend (s : State) : (stFinish s).edgePend = s.edgePend := rfl
@[simp] theorem stFinish_edgeOvr (s : State) : (stFinish s).edgeOvr = s.edgeOvr := rfl
@[simp] theorem stFinish_tickFlag (s : State) : (stFinish s).tickFlag = s.tickFlag := rfl
@[simp] theorem stFinish_log (s : State) : (stFinish s).log = s.log := rfl
@[simp] theorem stFinish_wtrace (s : State) : (stFinish s).wtrace = s.wtrace := rfl
@[simp] theorem stFinish_cmds (s : State) : (stFinish s).cmds = s.cmds := rfl
@[simp] theorem stFinish_sched (s : State) : (stFinish s).sched = s.sched := rfl
@[simp] theorem stFinish_params (s : State) : (stFinish s).params = s.params := rfl

@[simp] theorem stAdvance_pd (s : State) : (stAdvance s).pd = s.pd := rfl
@[simp] theorem stAdvance_ph (s : State) : (stAdvance s).ph = s.ph := rfl
@[simp] theorem stAdvance_res (s : State) : (stAdvance s).res = s.res := rfl
@[simp] theorem stAdvance_ie (s : State) : (stAdvance s).ie = s.ie := rfl
@[simp] theorem stAdvance_edgePend (s : State) : (stAdvance s).edgePend = s.edgePend := rfl
@[simp] theorem stAdvance_edgeOvr (s : State) : (stAdvance s).edgeOvr = s.edgeOvr := rfl
@[simp] theorem stAdvance_tickFlag (s : State) : (stAdvance s).tickFlag = s.tickFlag := rfl
@[simp] theorem stAdvance_log (s : State) : (stAdvance s).log = s.log := rfl
@[simp] theorem stAdvance_wtrace (s : State) : (stAdvance s).wtrace = s.wtrace := rfl
@[simp] theorem stAdvance_cmds (s : State) : (stAdvance s).cmds = s.cmds := rfl
@[simp] theorem stAdvance_sched (s : State) : (stAdvance s).sched = s.sched := rfl
@[simp] theorem stAdvance_params (s : State) : (stAdvance s).params = s.params := rfl

@[simp] theorem stBeginSend_pd (c : Byte) (s : State) : (stBeginSend c s).pd = s.pd := rfl
@[simp] theorem stBeginSend_ph (c : Byte) (s : State) : (stBeginSend c s).ph = s.ph := rfl
@[simp] theorem stBeginSend_res (c : Byte) (s : State) : (stBeginSend c s).res = s.res := rfl
@[simp] theorem stBeginSend_ie (c : Byte) (s : State) : (stBeginSend c s).ie = s.ie := rfl
@[simp] theorem stBeginSend_edgePend (c : Byte) (s : State) : (stBeginSend c s).edgePend = s.edgePend := rfl
@[simp] theorem stBeginSend_edgeOvr (c : Byte) (s : State) : (stBeginSend c s).edgeOvr = s.edgeOvr := rfl
@[simp] theorem stBeginSend_tickFlag (c : Byte) (s : State) : (stBeginSend c s).tickFlag = s.tickFlag := rfl
@[simp] theorem stBeginSend_log (c : Byte) (s : State) : (stBeginSend c s).log = s.log := rfl
@[simp] theorem stBeginSend_wtrace (c : Byte) (s : State) : (stBeginSend c s).wtrace = s.wtrace := rfl
@[simp] theorem stBeginSend_cmds (c : Byte) (s : State) : (stBeginSend c s).cmds = s.cmds := rfl
@[simp] theorem stBeginSend_sched (c : Byte) (s : State) : (stBeginSend c s).sched = s.sched := rfl
@[simp] theorem stBeginSend_params (c : Byte) (s : State) : (stBeginSend c s).params = s.params := rfl

@[simp] theorem stBeginRecv_pd (s : State) : (stBeginRecv s).pd = s.pd := rfl
@[simp] theorem stBeginRecv_ph (s : State) : (stBeginRecv s).ph = s.ph := rfl
@[simp] theorem stBeginRecv_res (s : State) : (stBeginRecv s).res = s.res := rfl
@[simp] theorem stBeginRecv_ie (s : State) : (stBeginRecv s).ie = s.ie := rfl
@[simp] theorem stBeginRecv_edgePend (s : State) : (stBeginRecv s).edgePend = s.edgePend := rfl
@[simp] theorem stBeginRecv_edgeOvr (s : State) : (stBeginRecv s).edgeOvr = s.edgeOvr := rfl
@[simp] theorem stBeginRecv_tickFlag (s : State) : (stBeginRecv s).tickFlag = s.tickFlag := rfl
@[simp] theorem stBeginRecv_log (s : State) : (stBeginRecv s).log = s.log := rfl
@[simp] theorem stBeginRecv_wtrace (s : State) : (stBeginRecv s).wtrace = s.wtrace := rfl
@[simp] theorem stBeginRecv_cmds (s : State) : (stBeginRecv s).cmds = s.cmds := rfl
@[simp] theorem stBeginRecv_sched (s : State) : (stBeginRecv s).sched = s.sched := rfl
@[simp] theorem stBeginRecv_params (s : State) : (stBeginRecv s).params = s.params := rfl

/-! ## What an update writes -/

@[simp] theorem getPort_pd (s : State) : getPort .pd s = s.pd := rfl
@[simp] theorem getPort_ph (s : State) : getPort .ph s = s.ph := rfl
@[simp] theorem updPort_pd_pd (f : PortState → PortState) (s : State) : (updPort .pd f s).pd = f s.pd := rfl
@[simp] theorem updPort_pd_ph (f : PortState → PortState) (s : State) : (updPort .pd f s).ph = s.ph := rfl
@[simp] theorem updPort_ph_pd (f : PortState → PortState) (s : State) : (updPort .ph f s).pd = s.pd := rfl
@[simp] theorem updPort_ph_ph (f : PortState → PortState) (s : State) : (updPort .ph f s).ph = f s.ph := rfl

@[simp] theorem setQueue_pd_pd (q : QueueId) (r : Ring) (s : State) : (setQueue .pd q r s).pd = s.pd.setQueue q r := rfl
@[simp] theorem setQueue_pd_ph (q : QueueId) (r : Ring) (s : State) : (setQueue .pd q r s).ph = s.ph := rfl
@[simp] theorem setQueue_ph_pd (q : QueueId) (r : Ring) (s : State) : (setQueue .ph q r s).pd = s.pd := rfl
@[simp] theorem setQueue_ph_ph (q : QueueId) (r : Ring) (s : State) : (setQueue .ph q r s).ph = s.ph.setQueue q r := rfl

@[simp] theorem setLastErr_pd_pd (e : Status) (s : State) :
    (setLastErr .pd e s).pd = { s.pd with lastErr := statusCode e } := rfl
@[simp] theorem setLastErr_pd_ph (e : Status) (s : State) : (setLastErr .pd e s).ph = s.ph := rfl
@[simp] theorem setLastErr_ph_pd (e : Status) (s : State) : (setLastErr .ph e s).pd = s.pd := rfl
@[simp] theorem setLastErr_ph_ph (e : Status) (s : State) :
    (setLastErr .ph e s).ph = { s.ph with lastErr := statusCode e } := rfl

@[simp] theorem setHigh_eq (p : Port) (w : Wire) (s : State) : setHigh p w s = driveWire p w true s := rfl
@[simp] theorem setLow_eq (p : Port) (w : Wire) (s : State) : setLow p w s = driveWire p w false s := rfl
@[simp] theorem driveWire_pd_pd (w : Wire) (v : Bool) (s : State) : (driveWire .pd w v s).pd = s.pd.setOut w v := rfl
@[simp] theorem driveWire_pd_ph (w : Wire) (v : Bool) (s : State) : (driveWire .pd w v s).ph = s.ph := rfl
@[simp] theorem driveWire_ph_pd (w : Wire) (v : Bool) (s : State) : (driveWire .ph w v s).pd = s.pd := rfl
@[simp] theorem driveWire_ph_ph (w : Wire) (v : Bool) (s : State) : (driveWire .ph w v s).ph = s.ph.setOut w v := rfl
@[simp] theorem driveWire_wtrace (p : Port) (w : Wire) (v : Bool) (s : State) :
    (driveWire p w v s).wtrace = s.wtrace ++ [.drive p w v] := rfl
@[simp] theorem setOut_clk (v : Bool) (x : PortState) : x.setOut .clk v = { x with outClk := v } := rfl
@[simp] theorem setOut_data (v : Bool) (x : PortState) : x.setOut .data v = { x with outData := v } := rfl

@[simp] theorem writeRes_res (r : CmdResult) (s : State) : (writeRes r s).res = packRes r := rfl
@[simp] theorem appendLog_log (d : Dir) (c : Byte) (s : State) : (appendLog d c s).log = s.log ++ [⟨d, c⟩] := rfl
@[simp] theorem waitFor_wtrace (t : Nat) (s : State) : (waitFor t s).wtrace = s.wtrace ++ [.wait t] := rfl
@[simp] theorem tickTurn_tickFlag (s : State) : (tickTurn s).tickFlag = true := rfl
@[simp] theorem envHTurn_ph (clk data : Bool) (s : State) :
    (envHTurn clk data s).ph = { s.ph with extClk := clk, extData := data } := rfl
@[simp] theorem stFinish_st (s : State) : (stFinish s).st = { s.st with busy := false, pc := .finish } := rfl
@[simp] theorem stAdvance_st (s : State) : (stAdvance s).st = { s.st with i := s.st.i + 1 } := rfl
@[simp] theorem stBeginSend_st (c : Byte) (s : State) :
    (stBeginSend c s).st = { s.st with busy := true, op := .stSend, frame := stFrame c, i := 0 } := rfl
@[simp] theorem stBeginRecv_st (s : State) :
    (stBeginRecv s).st = { s.st with busy := true, op := .stRecv, acc := 0, i := 1 } := rfl

/-! ## Wires and queues -/

@[simp] theorem readWire_pd_data (s : State) : readWire .pd .data s = (s.pd.outData && s.pd.extData) := rfl
@[simp] theorem readWire_pd_clk (s : State) : readWire .pd .clk s = (s.pd.outClk && s.pd.extClk) := rfl
@[simp] theorem readWire_ph_data (s : State) : readWire .ph .data s = (s.ph.outData && s.ph.extData) := rfl
@[simp] theorem readWire_ph_clk (s : State) : readWire .ph .clk s = (s.ph.outClk && s.ph.extClk) := rfl

theorem queue_setQueue (q q' : QueueId) (r : Ring) (x : PortState) :
    (x.setQueue q r).queue q' = if q' = q then r else x.queue q' := by cases q <;> cases q' <;> rfl

/-- A queue reads back what was put into it, and every other queue is as before. -/
theorem getQueue_setQueue (p p' : Port) (q q' : QueueId) (r : Ring) (s : State) :
    getQueue p' q' (setQueue p q r s) = if p' = p ∧ q' = q then r else getQueue p' q' s := by
  cases p <;> cases p' <;> simp [getQueue, queue_setQueue]

@[simp] theorem getQueue_setQueue_self (p : Port) (q : QueueId) (r : Ring) (s : State) :
    getQueue p q (setQueue p q r s) = r := by simp [getQueue_setQueue]

/-- The queues depend on the two ports only. -/
theorem getQueue_congr {s t : State} (hpd : t.pd.qIn = s.pd.qIn ∧ t.pd.qOut = s.pd.qOut ∧ t.pd.qAux0 = s.pd.qAux0 ∧
    t.pd.qAux1 = s.pd.qAux1) (hph : t.ph.qIn = s.ph.qIn ∧ t.ph.qOut = s.ph.qOut ∧ t.ph.qAux0 = s.ph.qAux0 ∧
    t.ph.qAux1 = s.ph.qAux1) (p : Port) (q : QueueId) : getQueue p q t = getQueue p q s := by
  cases p <;> cases q <;> simp [getQueue, PortState.queue, hpd, hph]

end Sys2Proof.Machine
end

