-- ==== Sys2Proof/Laws/Ring.lean ====
section
/-! SUPPORT. What each ring-buffer primitive does to the FIFO sequence and that it keeps the ring's form: one lemma for
each primitive, which callers cite instead of unfolding it (40_ring_buffer.md R100 to R104). -/

namespace Sys2Proof.Machine

theorem Ring.wf_iff {cap : Nat} {r : Ring} :
    r.wf cap = true ↔ r.buf.length = cap ∧ r.head < cap ∧ r.count ≤ cap := by
  simp [Ring.wf, and_assoc]

theorem Ring.wf_cap_pos {cap : Nat} {r : Ring} (h : r.wf cap = true) : 0 < cap := by
  have := Ring.wf_iff.mp h; omega

@[simp] theorem Ring.seq_length (cap : Nat) (r : Ring) : (r.seq cap).length = r.count := by simp [Ring.seq]

theorem Ring.seq_eq_nil {cap : Nat} {r : Ring} : r.seq cap = [] ↔ r.count = 0 := by
  rw [← List.length_eq_zero_iff, Ring.seq_length]

/-- Two slots of the sequence are different slots of the buffer. -/
theorem slot_index_ne {cap h a b : Nat} (ha : a < cap) (hb : b < cap) (hab : a ≠ b) :
    (h + a) % cap ≠ (h + b) % cap := by
  intro he
  have : a % cap = b % cap := Nat.ModEq.add_left_cancel' h he
  rw [Nat.mod_eq_of_lt ha, Nat.mod_eq_of_lt hb] at this
  exact hab this

theorem getD_set_self (l : List Byte) (i : Nat) (v : Byte) (h : i < l.length) : (l.set i v).getD i 0 = v := by
  simp [List.getD, h]

theorem getD_set_ne (l : List Byte) {i j : Nat} (v : Byte) (h : i ≠ j) : (l.set i v).getD j 0 = l.getD j 0 := by
  simp [List.getD, h]

/-- R101: on a full ring nothing, else the sequence grows by `v` at its end. -/
theorem Ring.insert_spec {cap : Nat} {r : Ring} (v : Byte) (h : r.wf cap = true) :
    (r.count = cap ∧ r.insert cap v = none) ∨
    (r.count < cap ∧ ∃ r', r.insert cap v = some r' ∧ r'.wf cap = true ∧ r'.seq cap = r.seq cap ++ [v]) := by
  obtain ⟨hl, hh, hc⟩ := Ring.wf_iff.mp h
  by_cases hfull : r.count = cap
  · exact .inl ⟨hfull, by simp [Ring.insert, hfull]⟩
  · have hlt : r.count < cap := by omega
    refine .inr ⟨hlt, _, by simp [Ring.insert, hfull]; rfl, ?_, ?_⟩
    · exact Ring.wf_iff.mpr ⟨by simpa using hl, hh, hlt⟩
    · have hidx : (r.head + r.count) % cap < r.buf.length := by rw [hl]; exact Nat.mod_lt _ (by omega)
      simp only [Ring.seq, List.range_succ, List.map_append, List.map_cons, List.map_nil, Ring.slot]
      congr 1
      · refine List.map_congr_left fun k hk => ?_
        have hk : k < r.count := List.mem_range.mp hk
        exact getD_set_ne _ _ (slot_index_ne hlt (by omega) (by omega))
      · simp [hidx]

/-- R102: on an empty ring nothing, else the head of the sequence is taken. -/
theorem Ring.remove_spec {cap : Nat} {r : Ring} (h : r.wf cap = true) :
    (r.seq cap = [] ∧ r.remove cap = none) ∨
    (∃ v l r', r.seq cap = v :: l ∧ r.remove cap = some (v, r') ∧ r'.wf cap = true ∧ r'.seq cap = l ∧
      r'.count < cap) := by
  obtain ⟨hl, hh, hc⟩ := Ring.wf_iff.mp h
  by_cases h0 : r.count = 0
  · exact .inl ⟨Ring.seq_eq_nil.mpr h0, by simp [Ring.remove, h0]⟩
  · obtain ⟨n, hn⟩ : ∃ n, r.count = n + 1 := ⟨r.count - 1, by omega⟩
    refine .inr ⟨r.slot r.head, _, _, ?_, by simp [Ring.remove, h0]; rfl, ?_, rfl, ?_⟩
    · simp only [Ring.seq, hn, List.range_succ_eq_map, List.map_cons, List.map_map, Nat.add_zero,
        Nat.mod_eq_of_lt hh, Nat.add_sub_cancel]
      congr 1
      refine List.map_congr_left fun k _ => ?_
      simp [Ring.slot, Function.comp, Nat.add_comm, Nat.add_left_comm]
    · exact Ring.wf_iff.mpr ⟨hl, Nat.mod_lt _ (by omega), by simp; omega⟩
    · simp; omega

/-- R103: the head of the sequence. -/
theorem Ring.peek_spec {cap : Nat} {r : Ring} (h : r.wf cap = true) : r.peek = (r.seq cap).head? := by
  obtain ⟨hl, hh, hc⟩ := Ring.wf_iff.mp h
  by_cases h0 : r.count = 0
  · simp [Ring.peek, h0, Ring.seq]
  · obtain ⟨n, hn⟩ : ∃ n, r.count = n + 1 := ⟨r.count - 1, by omega⟩
    simp [Ring.peek, Ring.seq, hn, List.range_succ_eq_map, Nat.mod_eq_of_lt hh]

/-- R104: on a full ring nothing, else `v` is the new head of the sequence. -/
theorem Ring.pushBack_spec {cap : Nat} {r : Ring} (v : Byte) (h : r.wf cap = true) :
    (r.count = cap ∧ r.pushBack cap v = none) ∨
    (r.count < cap ∧ ∃ r', r.pushBack cap v = some r' ∧ r'.wf cap = true ∧ r'.seq cap = v :: r.seq cap) := by
  obtain ⟨hl, hh, hc⟩ := Ring.wf_iff.mp h
  by_cases hfull : r.count = cap
  · exact .inl ⟨hfull, by simp [Ring.pushBack, hfull]⟩
  · have hlt : r.count < cap := by omega
    have hcap : 0 < cap := by omega
    refine .inr ⟨hlt, _, by simp [Ring.pushBack, hfull]; rfl, ?_, ?_⟩
    · exact Ring.wf_iff.mpr ⟨by simpa using hl, Nat.mod_lt _ hcap, hlt⟩
    · have hidx : (r.head + cap - 1) % cap < r.buf.length := by rw [hl]; exact Nat.mod_lt _ hcap
      have hslot : ∀ k, ((r.head + cap - 1) % cap + (k + 1)) % cap = (r.head + k) % cap := by
        intro k
        rw [Nat.mod_add_mod, show r.head + cap - 1 + (k + 1) = r.head + k + cap by omega, Nat.add_mod_right]
      have hne : ∀ k, k < r.count → (r.head + cap - 1) % cap ≠ (r.head + k) % cap := by
        intro k hk
        rw [show r.head + cap - 1 = r.head + (cap - 1) by omega]
        exact slot_index_ne (by omega) (by omega) (by omega)
      simp only [Ring.seq, List.range_succ_eq_map, List.map_cons, List.map_map, Nat.add_zero, Nat.mod_mod]
      congr 1
      · exact getD_set_self _ _ _ hidx
      · refine List.map_congr_left fun k hk => ?_
        simp only [Function.comp, Nat.succ_eq_add_one, Ring.slot, hslot]
        exact getD_set_ne _ _ (hne k (List.mem_range.mp hk))

/-- After reset every queue is an empty well-formed ring. -/
theorem Ring.reset_wf {L : Literals} (h : 0 < L.rbCap) : (Ring.reset L).wf L.rbCap = true := by
  simp [Ring.wf, Ring.reset, h]

/-! ## On the machine's queues -/

/-- Every queue of the state keeps the form of 10_state.md R29. -/
def queuesWf (s : State) : Prop := ∀ p q, (getQueue p q s).wf s.params.rbCap = true

theorem queuesWf_setQueue {s : State} (h : queuesWf s) (p : Port) (q : QueueId) {r : Ring}
    (hr : r.wf s.params.rbCap = true) : queuesWf (setQueue p q r s) := by
  intro p' q'
  rw [getQueue_setQueue, setQueue_params]
  split
  · exact hr
  · exact h p' q'

/-- R101 on a queue of the machine. -/
theorem rbInsert_spec {P : Params} {s : State} (hP : s.params = P) (p : Port) (q : QueueId) (v : Byte)
    (h : (getQueue p q s).wf P.rbCap = true) :
    ((fifo p q s).length = P.rbCap ∧ rbInsert P p q v s = (.full, s)) ∨
    ((fifo p q s).length < P.rbCap ∧ ∃ r, rbInsert P p q v s = (.ok, setQueue p q r s) ∧
      r.wf P.rbCap = true ∧ r.seq P.rbCap = fifo p q s ++ [v]) := by
  subst hP
  rcases Ring.insert_spec v h with ⟨hc, hn⟩ | ⟨hc, r', hs, hw, hq⟩
  · exact .inl ⟨by simp [fifo, hc], by simp [rbInsert, hn]⟩
  · exact .inr ⟨by simp [fifo, hc], r', by simp [rbInsert, hs], hw, hq⟩

/-- R102 on a queue of the machine. -/
theorem rbRemove_spec {P : Params} {s : State} (hP : s.params = P) (p : Port) (q : QueueId)
    (h : (getQueue p q s).wf P.rbCap = true) :
    (fifo p q s = [] ∧ rbRemove P p q s = (none, s)) ∨
    (∃ v l r, fifo p q s = v :: l ∧ rbRemove P p q s = (some v, setQueue p q r s) ∧
      r.wf P.rbCap = true ∧ r.seq P.rbCap = l ∧ r.count < P.rbCap) := by
  subst hP
  rcases Ring.remove_spec h with ⟨hc, hn⟩ | ⟨v, l, r', hs, hr, hw, hq, hc⟩
  · exact .inl ⟨hc, by simp [rbRemove, hn]⟩
  · exact .inr ⟨v, l, r', hs, by simp [rbRemove, hr], hw, hq, hc⟩

/-- R103 on a queue of the machine. -/
theorem rbPeek_spec {s : State} (p : Port) (q : QueueId) (h : (getQueue p q s).wf s.params.rbCap = true) :
    rbPeek p q s = (fifo p q s).head? := Ring.peek_spec h

/-- R104 on a queue of the machine. -/
theorem rbPushBack_spec {P : Params} {s : State} (hP : s.params = P) (p : Port) (q : QueueId) (v : Byte)
    (h : (getQueue p q s).wf P.rbCap = true) :
    ((fifo p q s).length = P.rbCap ∧ rbPushBack P p q v s = (.full, s)) ∨
    ((fifo p q s).length < P.rbCap ∧ ∃ r, rbPushBack P p q v s = (.ok, setQueue p q r s) ∧
      r.wf P.rbCap = true ∧ r.seq P.rbCap = v :: fifo p q s) := by
  subst hP
  rcases Ring.pushBack_spec v h with ⟨hc, hn⟩ | ⟨hc, r', hs, hw, hq⟩
  · exact .inl ⟨by simp [fifo, hc], by simp [rbPushBack, hn]⟩
  · exact .inr ⟨by simp [fifo, hc], r', by simp [rbPushBack, hs], hw, hq⟩

theorem fifo_setQueue (p p' : Port) (q q' : QueueId) (r : Ring) (s : State) :
    fifo p' q' (setQueue p q r s) = if p' = p ∧ q' = q then r.seq s.params.rbCap else fifo p' q' s := by
  simp only [fifo, getQueue_setQueue, setQueue_params]
  split <;> rfl

@[simp] theorem fifo_setQueue_self (p : Port) (q : QueueId) (r : Ring) (s : State) :
    fifo p q (setQueue p q r s) = r.seq s.params.rbCap := by simp [fifo_setQueue]

end Sys2Proof.Machine
end

