-- ==== Sys2Proof/Laws/Turns.lean ====
section
/-! SUPPORT. What the other agents can do between two atomic units of CTRL, said once: an induction principle over the
turns, and a frame that every unit and every run of turns satisfies. -/

namespace Sys2Proof.Machine

/-! ## The edge service -/

theorem edgeService_eq (P : Params) (s : State) : edgeService P s =
    if s.pd.sendShift ≠ 0 then
      edgeTransmit { s with edgePend := false, pd := { s.pd with busTimeout := P.tmoGuard } }
    else edgeReceive P { s with edgePend := false, pd := { s.pd with busTimeout := P.tmoGuard } } := rfl

/-- The transmit path spelled out (R145). -/
theorem edgeTransmit_eq (s : State) : edgeTransmit s =
    { s with
      pd := { s.pd with outData := s.pd.sendShift.getLsbD 0, sendShift := s.pd.sendShift >>> 1 }
      wtrace := s.wtrace ++ [.drive .pd .data (s.pd.sendShift.getLsbD 0)] } := rfl

/-- What becomes of a complete frame, in its four cases (R148, R149). -/
theorem deliverFrame_cases (P : Params) (f : Word) (s : State) :
    (frameStop f = false ∧ deliverFrame P f s = setLastErr .pd .framing s) ∨
    (frameStop f = true ∧ parityOk (frameGroup f) = false ∧ deliverFrame P f s = setLastErr .pd .parity s) ∨
    (frameStop f = true ∧ parityOk (frameGroup f) = true ∧ s.pd.qIn.insert P.rbCap (frameData f) = none ∧
      deliverFrame P f s = setLastErr .pd .full s) ∨
    (∃ r, frameStop f = true ∧ parityOk (frameGroup f) = true ∧ s.pd.qIn.insert P.rbCap (frameData f) = some r ∧
      deliverFrame P f s = setQueue .pd .inq r s) := by
  have hq : getQueue .pd .inq s = s.pd.qIn := rfl
  cases hs : frameStop f
  · simp [deliverFrame, hs]
  · cases hp : parityOk (frameGroup f)
    · simp [deliverFrame, hs, hp]
    · cases hi : s.pd.qIn.insert P.rbCap (frameData f) <;> simp [deliverFrame, hs, hp, rbInsert, hq, hi]

/-- What becomes of a complete frame touches only PD.IN and PD's LAST_ERR. -/
theorem deliverFrame_frame (P : Params) (f : Word) (s : State) : ∃ e r, deliverFrame P f s =
    { s with pd := { s.pd with lastErr := e, qIn := r } } := by
  rcases deliverFrame_cases P f s with ⟨-, h⟩ | ⟨-, -, h⟩ | ⟨-, -, -, h⟩ | ⟨r, -, -, -, h⟩
  · exact ⟨9, s.pd.qIn, h⟩
  · exact ⟨8, s.pd.qIn, h⟩
  · exact ⟨2, s.pd.qIn, h⟩
  · exact ⟨s.pd.lastErr, r, h⟩

/-- The frame of an edge service (60_exceptions.md R240): the fields it writes, and no entry of WTRACE but PD's. -/
theorem edgeService_frame (P : Params) (s : State) : ∃ r v o e q w, edgeService P s =
    { s with
      edgePend := false
      wtrace := s.wtrace ++ w
      pd := ⟨r, v, P.tmoGuard, s.pd.outClk, o, e, s.pd.extClk, s.pd.extData, q, s.pd.qOut, s.pd.qAux0, s.pd.qAux1⟩ } ∧
    w.filter notPd = [] := by
  rw [edgeService_eq]
  split
  · exact ⟨_, _, _, _, _, [.drive .pd .data (s.pd.sendShift.getLsbD 0)], edgeTransmit_eq _, rfl⟩
  · have hr : ∀ t : State, t = { t with wtrace := t.wtrace ++ [] } := by simp
    simp only [edgeReceive]
    split
    · obtain ⟨e, r, h⟩ := deliverFrame_frame P (recvNext (readWire .pd .data
        { s with edgePend := false, pd := { s.pd with busTimeout := P.tmoGuard } }) s.pd.recvShift)
        (updPort .pd (fun x => { x with recvShift := 0 })
          { s with edgePend := false, pd := { s.pd with busTimeout := P.tmoGuard } })
      exact ⟨0, s.pd.sendShift, s.pd.outData, e, r, [], h.trans (hr _), rfl⟩
    · exact ⟨_, s.pd.sendShift, s.pd.outData, s.pd.lastErr, s.pd.qIn, [], hr _, rfl⟩

/-! ## The turns -/

theorem envPTurn_frame (clk data : Bool) (s : State) : ∃ p o, envPTurn clk data s =
    { s with pd := { s.pd with extClk := clk, extData := data }, edgePend := p, edgeOvr := o } ∧
    (s.edgePend = true → p = true) ∧ (s.edgeOvr = true → o = true) := by
  simp only [envPTurn, latchEdge]
  split
  · split
    · exact ⟨s.edgePend, true, rfl, id, fun _ => rfl⟩
    · exact ⟨true, s.edgeOvr, rfl, fun _ => rfl, id⟩
  · exact ⟨s.edgePend, s.edgeOvr, rfl, id, id⟩

/-- The induction over the turns at a boundary, packaged once: what each turn of the list keeps, and what moving the
schedule on keeps, holds after all of them. -/
theorem othersMove_keeps {P : Params} {atEdge : Bool} {I : State → Prop}
    (hsched : ∀ s l, I s → I { s with sched := l })
    (hedge : ∀ s, edgeEnabled s = true → I s → I (edgeService P s))
    (htick : ∀ s, I s → I (tickTurn s)) :
    ∀ (l : List Turn), (∀ s c d, Turn.envP c d ∈ l → I s → I (envPTurn c d s)) →
      (∀ s c d, Turn.envH c d ∈ l → I s → I (envHTurn c d s)) → ∀ s, I s → I (othersMove P atEdge l s) := by
  have hturn : ∀ s, I s → I (if atEdge = true then edgeTurn P s else s) := by
    intro s hs
    unfold edgeTurn
    split
    · split
      · exact hedge s ‹_› hs
      · exact hs
    · exact hs
  intro l
  induction l with
  | nil => intro _ _ s hs; exact hsched _ _ (hturn s hs)
  | cons t rest ih =>
    intro hP hH s hs
    have ih := ih (fun s c d hm => hP s c d (List.mem_cons_of_mem _ hm))
      (fun s c d hm => hH s c d (List.mem_cons_of_mem _ hm))
    cases t with
    | ctrl => exact hsched _ _ hs
    | edge => exact ih _ (hturn s hs)
    | tick => exact ih _ (htick s hs)
    | envP c d => exact ih _ (hP s c d (List.mem_cons_self ..) hs)
    | envH c d => exact ih _ (hH s c d (List.mem_cons_self ..) hs)

/-- What the other agents leave alone: PH but for its external drivers, PD's clock driver and its queues other than
PD.IN, RES, IE, ST, LOG, the command stream, the parameters, the part of WTRACE that is not PD's; the traces only grow and EDGE_OVR is
only set; with IE = 0 PD keeps all but its external drivers, and the latch is only set. -/
structure OtherFrame (s t : State) : Prop where
  ph : t.ph = { s.ph with extClk := t.ph.extClk, extData := t.ph.extData }
  pd : t.pd = { t.pd with outClk := s.pd.outClk, qOut := s.pd.qOut, qAux0 := s.pd.qAux0, qAux1 := s.pd.qAux1 }
  res : t.res = s.res
  ie : t.ie = s.ie
  st : t.st = s.st
  log : t.log = s.log
  cmds : t.cmds = s.cmds
  params : t.params = s.params
  phTrace : phTrace t = phTrace s
  grows : ∃ l, t.wtrace = s.wtrace ++ l
  ovr : s.edgeOvr = true → t.edgeOvr = true
  masked : s.ie = false → t.pd = { s.pd with extClk := t.pd.extClk, extData := t.pd.extData } ∧
    t.wtrace = s.wtrace ∧ (s.edgePend = true → t.edgePend = true)

theorem OtherFrame.refl (s : State) : OtherFrame s s :=
  ⟨rfl, rfl, rfl, rfl, rfl, rfl, rfl, rfl, rfl, ⟨[], by simp⟩, id, fun _ => ⟨rfl, rfl, id⟩⟩

theorem OtherFrame.trans {s t u : State} (h : OtherFrame s t) (g : OtherFrame t u) : OtherFrame s u where
  ph := by rw [g.ph, h.ph]
  pd := by rw [g.pd, h.pd]
  res := g.res.trans h.res
  ie := g.ie.trans h.ie
  st := g.st.trans h.st
  log := g.log.trans h.log
  cmds := g.cmds.trans h.cmds
  params := g.params.trans h.params
  phTrace := g.phTrace.trans h.phTrace
  grows := by
    obtain ⟨a, ha⟩ := h.grows
    obtain ⟨b, hb⟩ := g.grows
    exact ⟨a ++ b, by rw [hb, ha, List.append_assoc]⟩
  ovr := fun o => g.ovr (h.ovr o)
  masked := fun hi => by
    obtain ⟨h1, h2, h3⟩ := h.masked hi
    obtain ⟨g1, g2, g3⟩ := g.masked (h.ie.trans hi)
    exact ⟨by rw [g1, h1], g2.trans h2, fun p => g3 (h3 p)⟩

theorem OtherFrame.sched (s : State) (l : List Turn) : OtherFrame s { s with sched := l } :=
  ⟨rfl, rfl, rfl, rfl, rfl, rfl, rfl, rfl, rfl, ⟨[], by simp⟩, id, fun _ => ⟨rfl, rfl, id⟩⟩

theorem OtherFrame.tick (s : State) : OtherFrame s (tickTurn s) :=
  ⟨rfl, rfl, rfl, rfl, rfl, rfl, rfl, rfl, rfl, ⟨[], by simp⟩, id, fun _ => ⟨rfl, rfl, id⟩⟩

theorem OtherFrame.envH (s : State) (c d : Bool) : OtherFrame s (envHTurn c d s) :=
  ⟨rfl, rfl, rfl, rfl, rfl, rfl, rfl, rfl, rfl, ⟨[], by simp⟩, id, fun _ => ⟨rfl, rfl, id⟩⟩

theorem OtherFrame.envP (s : State) (c d : Bool) : OtherFrame s (envPTurn c d s) := by
  obtain ⟨p, o, h, hp, ho⟩ := envPTurn_frame c d s
  rw [h]
  exact ⟨rfl, rfl, rfl, rfl, rfl, rfl, rfl, rfl, rfl, ⟨[], by simp⟩, ho, fun _ => ⟨rfl, rfl, hp⟩⟩

theorem OtherFrame.edge (P : Params) (s : State) (he : edgeEnabled s = true) : OtherFrame s (edgeService P s) := by
  obtain ⟨r, v, o, e, q, w, h, hw⟩ := edgeService_frame P s
  have hie : s.ie = true := by simp [edgeEnabled] at he; exact he.2
  rw [h]
  exact ⟨rfl, rfl, rfl, rfl, rfl, rfl, rfl, rfl, by simp [Machine.phTrace, hw], ⟨w, rfl⟩, id, by simp [hie]⟩

/-- Every run of other agents' turns is framed. -/
theorem othersMove_frame (P : Params) (atEdge : Bool) (l : List Turn) (s : State) :
    OtherFrame s (othersMove P atEdge l s) :=
  othersMove_keeps (I := OtherFrame s) (fun t l h => h.trans (.sched t l)) (fun t he h => h.trans (.edge P t he))
    (fun t h => h.trans (.tick t)) l (fun t c d _ h => h.trans (.envP t c d)) (fun t c d _ h => h.trans (.envH t c d))
    s (.refl s)

theorem yieldTurn_frame (P : Params) (s : State) : OtherFrame s (yieldTurn P s) := othersMove_frame P true s.sched s

theorem yieldInSend_frame (P : Params) (s : State) : OtherFrame s (yieldInSend P s) :=
  othersMove_frame P false s.sched s

/-- With no other agent to move a boundary changes nothing. -/
theorem yieldTurn_quiet {P : Params} {s : State} (h : quiet s) : yieldTurn P s = s := by
  obtain ⟨hs, he⟩ := h
  cases s
  simp_all [yieldTurn, othersMove, edgeTurn]

/-- The schedule only gets shorter: what is left after a boundary was in it before. -/
theorem othersMove_sched (P : Params) (atEdge : Bool) :
    ∀ (l : List Turn) (s : State), ∃ k, (othersMove P atEdge l s).sched = l.drop k := by
  intro l
  induction l with
  | nil => intro s; exact ⟨0, rfl⟩
  | cons t rest ih =>
    intro s
    cases t with
    | ctrl => exact ⟨1, rfl⟩
    | edge => obtain ⟨k, h⟩ := ih (if atEdge then edgeTurn P s else s); exact ⟨k + 1, h⟩
    | tick => obtain ⟨k, h⟩ := ih (tickTurn s); exact ⟨k + 1, h⟩
    | envP c d => obtain ⟨k, h⟩ := ih (envPTurn c d s); exact ⟨k + 1, h⟩
    | envH c d => obtain ⟨k, h⟩ := ih (envHTurn c d s); exact ⟨k + 1, h⟩

/-- A still computer keeps its drivers over a boundary, and stays still. -/
theorem yieldTurn_still {P : Params} {s : State} (h : computerStill s) :
    computerStill (yieldTurn P s) ∧ (yieldTurn P s).ph = s.ph := by
  constructor
  · obtain ⟨k, hk⟩ := othersMove_sched P true s.sched s
    intro t ht
    rw [yieldTurn, hk] at ht
    exact h t (List.mem_of_mem_drop ht)
  · refine othersMove_keeps (I := fun t => t.ph = s.ph) (fun _ _ h => h) ?_ (fun _ h => h) s.sched ?_ ?_ s rfl
    · intro t _ ht
      obtain ⟨r, v, o, e, q, w, hx, -⟩ := edgeService_frame P t
      rw [hx]; exact ht
    · intro t c d _ ht
      obtain ⟨p, o, hx, -⟩ := envPTurn_frame c d t
      rw [hx]; exact ht
    · intro t c d hm _
      exact absurd rfl (h _ hm c d)

end Sys2Proof.Machine
end

