-- ==== Sys2Proof/Laws/SelfTimed.lean ====
section
/-! SUPPORT. The E_ST commands as sequences of micro-steps: what one micro-step and one clock pulse do, and the two
inductions over a whole command, packaged once (43_selftimed_engine.md R170 to R182). -/

namespace Sys2Proof.Machine

/-- The position of a blocking command set before a micro-step. -/
def atPc (pc : MicroPc) (s : State) : State := { s with st := { s.st with pc := pc } }

@[simp] theorem atPc_ph (pc : MicroPc) (s : State) : (atPc pc s).ph = s.ph := rfl
@[simp] theorem atPc_pd (pc : MicroPc) (s : State) : (atPc pc s).pd = s.pd := rfl
@[simp] theorem atPc_wtrace (pc : MicroPc) (s : State) : (atPc pc s).wtrace = s.wtrace := rfl
@[simp] theorem atPc_sched (pc : MicroPc) (s : State) : (atPc pc s).sched = s.sched := rfl
@[simp] theorem atPc_st (pc : MicroPc) (s : State) : (atPc pc s).st = { s.st with pc := pc } := rfl

theorem micro_eq (P : Params) (pc : MicroPc) (f : State → State) (s : State) :
    micro P pc f s = yieldTurn P (f (atPc pc s)) := rfl

/-- A micro-step is its own write, then a run of other agents' turns. -/
theorem micro_frame (P : Params) (pc : MicroPc) (f : State → State) (s : State) :
    OtherFrame (f (atPc pc s)) (micro P pc f s) := yieldTurn_frame P _

theorem micro_st (P : Params) (pc : MicroPc) (f : State → State) (s : State) :
    (micro P pc f s).st = (f (atPc pc s)).st := (micro_frame P pc f s).st

/-- The other agents change no driver of the block on PH (10_state.md R26, R27). -/
theorem OtherFrame.phOut {s t : State} (h : OtherFrame s t) : t.ph.outClk = s.ph.outClk ∧ t.ph.outData = s.ph.outData ∧
    t.ph.lastErr = s.ph.lastErr := by
  rw [h.ph]; exact ⟨rfl, rfl, rfl⟩

/-! ## One clock pulse -/

/-- A clock pulse moves nothing in ST but the position, and leaves the block's clock driver released and its data
driver as it was (R171). -/
theorem clockPulse_out (P : Params) (s : State) :
    (∃ pc, (clockPulse P s).st = { s.st with pc := pc }) ∧ (clockPulse P s).ph.outClk = true ∧
    (clockPulse P s).ph.outData = s.ph.outData ∧ (clockPulse P s).ph.lastErr = s.ph.lastErr := by
  have e1 := micro_frame P .waitSetup (waitFor P.tSetup) s
  have e2 := micro_frame P .clkLow (setLow .ph .clk) (micro P .waitSetup (waitFor P.tSetup) s)
  have e3 := micro_frame P .waitLow (waitFor P.tLow) (micro P .clkLow (setLow .ph .clk) (micro P .waitSetup
    (waitFor P.tSetup) s))
  have e4 := micro_frame P .clkHigh (setHigh .ph .clk) (micro P .waitLow (waitFor P.tLow) (micro P .clkLow
    (setLow .ph .clk) (micro P .waitSetup (waitFor P.tSetup) s)))
  have e5 := micro_frame P .waitHold (waitFor P.tHold) (micro P .clkHigh (setHigh .ph .clk) (micro P .waitLow
    (waitFor P.tLow) (micro P .clkLow (setLow .ph .clk) (micro P .waitSetup (waitFor P.tSetup) s))))
  refine ⟨⟨.waitHold, ?_⟩, ?_, ?_, ?_⟩
  · simp [clockPulse, micro_st]
  · simp [clockPulse, e5.phOut.1, e4.phOut.1]
  · simp [clockPulse, e5.phOut.2.1, e4.phOut.2.1, e3.phOut.2.1, e2.phOut.2.1, e1.phOut.2.1]
  · simp [clockPulse, e5.phOut.2.2, e4.phOut.2.2, e3.phOut.2.2, e2.phOut.2.2, e1.phOut.2.2]

/-! ## What every micro-step of a command keeps -/

/-- What must hold of `I` for a whole E_ST command to keep it: the boundary, and the five kinds of write an E_ST command
makes. -/
structure MicroKeeps (P : Params) (I : State → Prop) : Prop where
  yield : ∀ s, I s → I (yieldTurn P s)
  wait : ∀ n s, I s → I (waitFor n s)
  drive : ∀ w v s, I s → I (driveWire .ph w v s)
  st : ∀ s x, x.i = s.st.i ∨ x.i ≤ max 10 (P.nRecvMax + 1) → I s → I { s with st := x }
  err : ∀ e s, e ∈ [Status.inhibited, .rts, .framing, .parity] → I s → I (setLastErr .ph e s)

theorem MicroKeeps.micro {P : Params} {I : State → Prop} (h : MicroKeeps P I) (pc : MicroPc) {f : State → State}
    (hf : ∀ s, I s → I (f s)) {s : State} (hs : I s) : I (micro P pc f s) :=
  h.yield _ (hf _ (h.st s _ (.inl rfl) hs))

theorem MicroKeeps.pulse {P : Params} {I : State → Prop} (h : MicroKeeps P I) {s : State} (hs : I s) :
    I (clockPulse P s) :=
  h.micro _ (h.wait _) <| h.micro _ (h.drive _ _) <| h.micro _ (h.wait _) <| h.micro _ (h.drive _ _) <|
    h.micro _ (h.wait _) hs

theorem MicroKeeps.finish {P : Params} {I : State → Prop} (h : MicroKeeps P I) {s : State} (hs : I s) :
    I (stFinish s) := h.st s _ (.inl rfl) hs

theorem MicroKeeps.abort {P : Params} {I : State → Prop} (h : MicroKeeps P I) {e : Status}
    (he : e ∈ [Status.inhibited, .rts, .framing, .parity]) {s : State} (hs : I s) : I (stAbort P e s).1 :=
  h.finish (h.err _ _ he (h.micro _ (h.drive _ _) hs))

theorem MicroKeeps.fail {P : Params} {I : State → Prop} (h : MicroKeeps P I) {e : Status}
    (he : e ∈ [Status.inhibited, .rts, .framing, .parity]) {s : State} (hs : I s) : I (stFail P e s).1 :=
  h.finish (h.err _ _ he (h.micro _ (h.drive _ _) hs))

/-- The state after the read of the clock in the checks. -/
def afterClkRead (P : Params) (s : State) : State := micro P .readClk id s

/-- The state after the read of the data wire in the checks. -/
def afterDataRead (P : Params) (s : State) : State := micro P .readData id (afterClkRead P s)

/-- The checks before a pulse, in their four cases (R173, R174). -/
theorem stCheck_split (P : Params) (s : State) :
    (readWire .ph .clk s = false ∧ stCheck P s = (some .inhibited, afterClkRead P s)) ∨
    (readWire .ph .clk s = true ∧ (afterClkRead P s).ph.outData = false ∧ stCheck P s = (none, afterClkRead P s)) ∨
    (readWire .ph .clk s = true ∧ (afterClkRead P s).ph.outData = true ∧
      readWire .ph .data (afterClkRead P s) = false ∧ stCheck P s = (some .rts, afterDataRead P s)) ∨
    (readWire .ph .clk s = true ∧ (afterClkRead P s).ph.outData = true ∧
      readWire .ph .data (afterClkRead P s) = true ∧ stCheck P s = (none, afterDataRead P s)) := by
  have h : stCheck P s = if !readWire .ph .clk s then (some .inhibited, afterClkRead P s)
      else if (afterClkRead P s).ph.outData then
        if !readWire .ph .data (afterClkRead P s) then (some .rts, afterDataRead P s) else (none, afterDataRead P s)
      else (none, afterClkRead P s) := rfl
  rw [h]
  rcases readWire .ph .clk s with - | - <;> rcases (afterClkRead P s).ph.outData with - | - <;>
    rcases readWire .ph .data (afterClkRead P s) with - | - <;> simp

theorem afterClkRead_out (P : Params) (s : State) : (afterClkRead P s).st = { s.st with pc := .readClk } ∧
    (afterClkRead P s).ph.outClk = s.ph.outClk ∧ (afterClkRead P s).ph.outData = s.ph.outData ∧
    (afterClkRead P s).ph.lastErr = s.ph.lastErr :=
  ⟨micro_st .., (micro_frame P .readClk id s).phOut⟩

theorem afterDataRead_out (P : Params) (s : State) : (afterDataRead P s).st = { s.st with pc := .readData } ∧
    (afterDataRead P s).ph.outClk = s.ph.outClk ∧ (afterDataRead P s).ph.outData = s.ph.outData ∧
    (afterDataRead P s).ph.lastErr = s.ph.lastErr := by
  obtain ⟨a, b, c, d⟩ := afterClkRead_out P s
  obtain ⟨b', c', d'⟩ := (micro_frame P .readData id (afterClkRead P s)).phOut
  exact ⟨by rw [afterDataRead, micro_st]; simp [a], b'.trans b, c'.trans c, d'.trans d⟩

/-- The checks move only the position, and an abort is for one of two reasons. -/
theorem stCheck_cases (P : Params) (s : State) :
    ((stCheck P s).1 = none ∨ (stCheck P s).1 = some .inhibited ∨ (stCheck P s).1 = some .rts) ∧
    (∃ pc, (stCheck P s).2.st = { s.st with pc := pc }) ∧ (stCheck P s).2.ph.outClk = s.ph.outClk ∧
    (stCheck P s).2.ph.outData = s.ph.outData ∧ (stCheck P s).2.ph.lastErr = s.ph.lastErr := by
  obtain ⟨a, b⟩ := afterClkRead_out P s
  obtain ⟨c, d⟩ := afterDataRead_out P s
  rcases stCheck_split P s with ⟨-, h⟩ | ⟨-, -, h⟩ | ⟨-, -, -, h⟩ | ⟨-, -, -, h⟩ <;> rw [h]
  · exact ⟨.inr (.inl rfl), ⟨_, a⟩, b⟩
  · exact ⟨.inl rfl, ⟨_, a⟩, b⟩
  · exact ⟨.inr (.inr rfl), ⟨_, c⟩, d⟩
  · exact ⟨.inl rfl, ⟨_, c⟩, d⟩

theorem MicroKeeps.check {P : Params} {I : State → Prop} (h : MicroKeeps P I) {s : State} (hs : I s) :
    I (stCheck P s).2 := by
  have h1 : I (afterClkRead P s) := h.micro _ (fun _ => id) hs
  have h2 : I (afterDataRead P s) := h.micro _ (fun _ => id) h1
  rcases stCheck_split P s with ⟨-, h⟩ | ⟨-, -, h⟩ | ⟨-, -, -, h⟩ | ⟨-, -, -, h⟩ <;> rw [h]
  exacts [h1, h1, h2, h2]

/-- The last pulse of a send whose checks pass (R176). -/
theorem stSendLoop_last {P : Params} {s t : State} (h : stCheck P s = (none, t)) :
    stSendLoop P 0 s = (stFinish (stDriveBit P t), ⟨.ok, false, 11⟩) := by rw [stSendLoop, h]

/-- A pulse before the last whose checks pass (R172). -/
theorem stSendLoop_more {P : Params} {n : Nat} {s t : State} (h : stCheck P s = (none, t)) :
    stSendLoop P (n + 1) s = stSendLoop P n (micro P .advance stAdvance (stDriveBit P t)) := by rw [stSendLoop, h]

/-- Checks that fail abort the send (R175). -/
theorem stSendLoop_abort {P : Params} {n : Nat} {e : Status} {s t : State} (h : stCheck P s = (some e, t)) :
    stSendLoop P n s = stAbort P e t := by cases n <;> rw [stSendLoop, h]

/-- A whole ST_SEND keeps what each of its micro-steps keeps. -/
theorem MicroKeeps.sendLoop {P : Params} {I : State → Prop} (h : MicroKeeps P I) :
    ∀ (more : Nat) (s : State), s.st.i + more = 10 → I s → I (stSendLoop P more s).1 := by
  intro more
  induction more with
  | zero =>
    intro s _ hs
    obtain ⟨hc, -, -, -, -⟩ := stCheck_cases P s
    have hk := h.check hs
    rcases hx : stCheck P s with ⟨_ | e, t⟩ <;> rw [hx] at hc hk
    · rw [stSendLoop_last hx]
      exact h.finish (h.pulse (h.micro _ (h.drive _ _) hk))
    · rw [stSendLoop_abort hx]
      refine h.abort ?_ hk
      rcases hc with hc | hc | hc <;> simp_all
  | succ n ih =>
    intro s hi hs
    obtain ⟨hc, ⟨pc, hst⟩, -, -, -⟩ := stCheck_cases P s
    have hk := h.check hs
    rcases hx : stCheck P s with ⟨_ | e, t⟩ <;> rw [hx] at hc hk hst
    · rw [stSendLoop_more hx]
      obtain ⟨⟨pc', hp⟩, -⟩ := clockPulse_out P (Machine.micro P .driveData (driveWire .ph .data
        (t.st.frame.getLsbD t.st.i)) t)
      have hi' : (stDriveBit P t).st.i = s.st.i := by
        have : t.st.i = s.st.i := by rw [hst]
        rw [stDriveBit, hp, ← this, micro_st]; rfl
      refine ih _ ?_ (h.yield _ (h.st _ _ (.inr ?_) (h.st _ _ (.inl rfl) (h.pulse (h.micro _ (h.drive _ _) hk)))))
      · have : (Machine.micro P .advance stAdvance (stDriveBit P t)).st.i = (stDriveBit P t).st.i + 1 := by
          rw [micro_st]; rfl
        show (Machine.micro P .advance stAdvance (stDriveBit P t)).st.i + n = 10
        omega
      · show (stDriveBit P t).st.i + 1 ≤ _
        omega
    · rw [stSendLoop_abort hx]
      refine h.abort ?_ hk
      rcases hc with hc | hc | hc <;> simp_all

theorem MicroKeeps.send {P : Params} {I : State → Prop} (h : MicroKeeps P I) (c : Byte)
    {s : State} (hs : I s) : I (stSend P c s).1 := by
  refine h.sendLoop 10 _ ?_ (h.yield _ (h.st _ _ (.inr ?_) (h.st s _ (.inl rfl) hs)))
  · rw [micro_st]; rfl
  · exact Nat.zero_le _

/-- The state after the acknowledge, if any (R180). -/
def afterAck (P : Params) (s : State) : State := if P.stRecvAck then ackPulse P s else s

/-- The good end of an ST_RECV, in its two cases (R180, R181). -/
theorem stStopOk_split (P : Params) (s : State) :
    (parityOk (afterAck P s).st.acc = true ∧ stStopOk P s = (stFinish (afterAck P s),
      ⟨.ok, false, zext16 ((afterAck P s).st.acc.extractLsb' 0 8)⟩)) ∨
    (parityOk (afterAck P s).st.acc = false ∧ stStopOk P s = stFail P .parity (afterAck P s)) := by
  have h : stStopOk P s = if parityOk (afterAck P s).st.acc then (stFinish (afterAck P s),
      ⟨.ok, false, zext16 ((afterAck P s).st.acc.extractLsb' 0 8)⟩) else stFail P .parity (afterAck P s) := rfl
  rw [h]
  rcases parityOk (afterAck P s).st.acc with - | - <;> simp

theorem MicroKeeps.stopOk {P : Params} {I : State → Prop} (h : MicroKeeps P I) {s : State} (hs : I s) :
    I (stStopOk P s).1 := by
  have ha : I (afterAck P s) := by
    rw [afterAck]
    split
    · exact h.micro _ (h.drive _ _) (h.pulse (h.micro _ (h.drive _ _) hs))
    · exact hs
  rcases stStopOk_split P s with ⟨-, e⟩ | ⟨-, e⟩ <;> rw [e]
  · exact h.finish ha
  · exact h.fail (by simp) ha

/-- The level an ST_RECV samples after the pulse that starts in `s`. -/
def sampleOf (P : Params) (s : State) : Bool := readWire .ph .data (clockPulse P s)

/-- The state after that sample. -/
def afterSample (P : Params) (s : State) : State := micro P .sample id (clockPulse P s)

theorem afterSample_out (P : Params) (s : State) : (∃ pc, (afterSample P s).st = { s.st with pc := pc }) ∧
    (afterSample P s).ph.outClk = true ∧ (afterSample P s).ph.outData = s.ph.outData ∧
    (afterSample P s).ph.lastErr = s.ph.lastErr := by
  obtain ⟨⟨pc, a⟩, b, c, d⟩ := clockPulse_out P s
  obtain ⟨b', c', d'⟩ := (micro_frame P .sample id (clockPulse P s)).phOut
  exact ⟨⟨_, by rw [afterSample, micro_st]; simp [a]; rfl⟩, b'.trans b, c'.trans c, d'.trans d⟩

/-- One round of the receive loop, in its three cases (R177, R179). -/
theorem stRecvLoop_split (P : Params) (left : Nat) (s : State) :
    ((9 < s.st.i → sampleOf P s = false) ∧ stRecvLoop P (left + 1) s =
      stRecvLoop P left (micro P .advance (stStore (sampleOf P s)) (afterSample P s))) ∨
    (s.st.i = 10 ∧ sampleOf P s = true ∧ stRecvLoop P (left + 1) s = stStopOk P (afterSample P s)) ∨
    (10 < s.st.i ∧ sampleOf P s = true ∧ stRecvLoop P (left + 1) s = stFail P .framing (afterSample P s)) := by
  have h : stRecvLoop P (left + 1) s = if 9 < (afterSample P s).st.i ∧ sampleOf P s then
      if (afterSample P s).st.i = 10 then stStopOk P (afterSample P s) else stFail P .framing (afterSample P s)
      else stRecvLoop P left (micro P .advance (stStore (sampleOf P s)) (afterSample P s)) := rfl
  obtain ⟨⟨pc, a⟩, -⟩ := afterSample_out P s
  have hi : (afterSample P s).st.i = s.st.i := by rw [a]
  rw [h, hi]
  rcases hb : sampleOf P s with - | -
  · exact .inl ⟨fun _ => rfl, by simp⟩
  · rcases Nat.lt_or_ge 9 s.st.i with h9 | h9
    · rcases Nat.lt_or_ge 10 s.st.i with h10 | h10
      · exact .inr (.inr ⟨h10, rfl, by simp [h9, Nat.ne_of_gt h10]⟩)
      · exact .inr (.inl ⟨by omega, rfl, by simp [show s.st.i = 10 by omega]⟩)
    · exact .inl ⟨by omega, by simp [Nat.not_lt.mpr h9]⟩

/-- Storing a sample steps the index and writes ST only. -/
theorem stStore_eq (b : Bool) (s : State) : stStore b s = { s with st := (stStore b s).st } ∧
    (stStore b s).st.i = s.st.i + 1 ∧ (stStore b s).st.busy = s.st.busy ∧
    (stStore b s).st.acc = if s.st.i ≤ 9 then setAccBit s.st.acc (s.st.i - 1) b else s.st.acc := by
  simp only [stStore, stAdvance]
  split <;> exact ⟨rfl, rfl, rfl, rfl⟩

/-- A whole ST_RECV keeps what each of its micro-steps keeps. -/
theorem MicroKeeps.recvLoop {P : Params} {I : State → Prop} (h : MicroKeeps P I) :
    ∀ (left : Nat) (s : State), s.st.i + left ≤ P.nRecvMax + 1 → I s → I (stRecvLoop P left s).1 := by
  intro left
  induction left with
  | zero => intro s _ hs; exact h.fail (by simp) hs
  | succ n ih =>
    intro s hi hs
    obtain ⟨⟨pc, hst⟩, -⟩ := afterSample_out P s
    have hk : I (afterSample P s) := h.micro _ (fun _ => id) (h.pulse hs)
    have hki : (afterSample P s).st.i = s.st.i := by rw [hst]
    rcases stRecvLoop_split P n s with ⟨-, e⟩ | ⟨-, -, e⟩ | ⟨-, -, e⟩ <;> rw [e]
    · obtain ⟨hs', hi', -, -⟩ := stStore_eq (sampleOf P s) (atPc .advance (afterSample P s))
      have hi'' : (stStore (sampleOf P s) (atPc .advance (afterSample P s))).st.i = s.st.i + 1 := by
        rw [hi', atPc_st]; simp [hki]
      refine ih _ ?_ (h.yield _ ?_)
      · rw [micro_st]; omega
      · show I (stStore (sampleOf P s) (atPc .advance (afterSample P s)))
        rw [hs']
        exact h.st _ _ (.inr (by omega)) (h.st _ _ (.inl rfl) hk)
    · exact h.stopOk hk
    · exact h.fail (by simp) hk

/-- The whole of ST_RECV, in its three cases (R177, R178). -/
theorem stRecv_split (P : Params) (s : State) :
    (readWire .ph .clk s = false ∧ stRecv P s = stNoFrame (afterClkRead P s)) ∨
    (readWire .ph .clk s = true ∧ readWire .ph .data (afterClkRead P s) = true ∧
      stRecv P s = stNoFrame (afterDataRead P s)) ∨
    (readWire .ph .clk s = true ∧ readWire .ph .data (afterClkRead P s) = false ∧
      stRecv P s = stRecvLoop P P.nRecvMax (micro P .begin stBeginRecv (afterDataRead P s))) := by
  have h : stRecv P s = if !readWire .ph .clk s then stNoFrame (afterClkRead P s)
      else if readWire .ph .data (afterClkRead P s) then stNoFrame (afterDataRead P s)
      else stRecvLoop P P.nRecvMax (micro P .begin stBeginRecv (afterDataRead P s)) := rfl
  rw [h]
  rcases readWire .ph .clk s with - | - <;> rcases readWire .ph .data (afterClkRead P s) with - | - <;> simp

theorem MicroKeeps.recv {P : Params} {I : State → Prop} (h : MicroKeeps P I) {s : State} (hs : I s) :
    I (stRecv P s).1 := by
  have h1 : I (afterClkRead P s) := h.micro _ (fun _ => id) hs
  have h2 : I (afterDataRead P s) := h.micro _ (fun _ => id) h1
  rcases stRecv_split P s with ⟨-, e⟩ | ⟨-, -, e⟩ | ⟨-, -, e⟩ <;> rw [e]
  · exact h1
  · exact h2
  · refine h.recvLoop _ _ ?_ (h.yield _ (h.st _ _ (.inr ?_) (h.st _ _ (.inl rfl) h2)))
    · rw [micro_st]; simp; omega
    · simp

end Sys2Proof.Machine
end

