-- ==== Sys2Proof/Laws/Relay.lean ====
section
/-! SUPPORT. What IRQ_SEND, TMO_SERVICE and each sub-step of RELAY_STEP can do, said once by cases, and the induction
over a whole RELAY_STEP (42_irq_engine.md R150 to R153, 44_supervisor.md R201, R202, R206 to R212). -/

namespace Sys2Proof.Machine

/-! ## IRQ_SEND -/

/-- The state in which the arming sequence begins (R152). -/
def irqLoaded (P : Params) (c : Byte) (s : State) : State :=
  updPort .pd (fun x => { x with sendShift := irqPattern c, busTimeout := P.tmoGuard }) s

/-- IRQ_SEND in its three cases (R150). -/
theorem irqSend_split (P : Params) (c : Byte) (s : State) :
    ((s.pd.recvShift ≠ 0 ∨ s.edgePend = true) ∧ irqSend P c s = (s, ⟨.refused, true, 0⟩)) ∨
    (s.pd.recvShift = 0 ∧ s.edgePend = false ∧ s.pd.sendShift ≠ 0 ∧ irqSend P c s = (s, ⟨.busy, true, 0⟩)) ∨
    (s.pd.recvShift = 0 ∧ s.edgePend = false ∧ s.pd.sendShift = 0 ∧
      irqSend P c s = (armingSequence P (irqLoaded P c s), ⟨.ok, true, 0⟩)) := by
  have h : irqSend P c s = if s.pd.recvShift ≠ 0 ∨ s.edgePend then (s, ⟨.refused, true, 0⟩)
      else if s.pd.sendShift ≠ 0 then (s, ⟨.busy, true, 0⟩)
      else (armingSequence P (irqLoaded P c s), ⟨.ok, true, 0⟩) := rfl
  rw [h]
  by_cases h1 : s.pd.recvShift ≠ 0 ∨ s.edgePend = true
  · exact .inl ⟨h1, if_pos h1⟩
  · obtain ⟨hr, he⟩ := not_or.mp h1
    have hr := not_not.mp hr
    have he : s.edgePend = false := by simpa using he
    rw [if_neg h1]
    by_cases h2 : s.pd.sendShift ≠ 0
    · exact .inr (.inl ⟨hr, he, h2, if_pos h2⟩)
    · exact .inr (.inr ⟨hr, he, not_not.mp h2, if_neg h2⟩)

/-- At a wait of IRQ_SEND, with the clock held low, the other agents change only the external drivers, the tick flag
and the schedule: nothing is latched and no edge is serviced (R153). -/
theorem yieldInSend_eq (P : Params) (s : State) (h : s.pd.outClk = false) : ∃ a b c d f l, yieldInSend P s =
    { s with
      pd := { s.pd with extClk := a, extData := b }
      ph := { s.ph with extClk := c, extData := d }
      tickFlag := f
      sched := l } := by
  have key : ∀ (l : List Turn) (s : State), s.pd.outClk = false → ∃ a b c d f l', othersMove P false l s =
      { s with
        pd := { s.pd with extClk := a, extData := b }
        ph := { s.ph with extClk := c, extData := d }
        tickFlag := f
        sched := l' } := by
    intro l
    induction l with
    | nil => intro s _; exact ⟨s.pd.extClk, s.pd.extData, s.ph.extClk, s.ph.extData, s.tickFlag, [], rfl⟩
    | cons t rest ih =>
      intro s h
      cases t with
      | ctrl => exact ⟨s.pd.extClk, s.pd.extData, s.ph.extClk, s.ph.extData, s.tickFlag, rest, rfl⟩
      | edge => exact ih s h
      | tick =>
        obtain ⟨a, b, c, d, f, l', e⟩ := ih (tickTurn s) h
        exact ⟨a, b, c, d, f, l', e⟩
      | envP x y =>
        have hm : envPTurn x y s = { s with pd := { s.pd with extClk := x, extData := y } } := by
          simp [envPTurn, qualifiedFall, h]
        obtain ⟨a, b, c, d, f, l', e⟩ := ih (envPTurn x y s) (by rw [hm]; exact h)
        exact ⟨a, b, c, d, f, l', by rw [othersMove, e, hm]⟩
      | envH x y =>
        obtain ⟨a, b, c, d, f, l', e⟩ := ih (envHTurn x y s) h
        exact ⟨a, b, c, d, f, l', e⟩
  exact key s.sched s h

/-- The trace of an arming sequence (R151). -/
def armTrace (P : Params) : List WireEvent :=
  [.drive .pd .clk false, .wait P.tInh, .drive .pd .data false, .wait P.tStart, .drive .pd .clk true]

/-- An arming sequence leaves the clock released and the start bit driven, and the other agents' turns in it change only
the external drivers, the tick flag and the schedule (R151, R153). -/
theorem armingSequence_eq (P : Params) (s : State) : ∃ a b c d f l, armingSequence P s =
    { s with
      pd := { s.pd with outClk := true, outData := false, extClk := a, extData := b }
      ph := { s.ph with extClk := c, extData := d }
      tickFlag := f
      sched := l
      wtrace := s.wtrace ++ armTrace P } := by
  obtain ⟨a, b, c, d, f, l, e⟩ := yieldInSend_eq P (waitFor P.tInh (setLow .pd .clk s)) rfl
  obtain ⟨a', b', c', d', f', l', e'⟩ := yieldInSend_eq P (waitFor P.tStart (setLow .pd .data
    (yieldInSend P (waitFor P.tInh (setLow .pd .clk s))))) (by rw [e]; rfl)
  refine ⟨a', b', c', d', f', l', ?_⟩
  rw [armingSequence, e', e]
  simp [armTrace, driveWire, waitFor, updPort]

/-! ## TMO_SERVICE -/

/-- The recovery spelled out (R202). -/
theorem recovery_eq (s : State) : recovery s =
    { s with
      pd := { s.pd with
        recvShift := 0
        sendShift := 0
        outClk := true
        outData := true
        lastErr := if pdBusy s then 10 else s.pd.lastErr }
      wtrace := s.wtrace ++ [.drive .pd .clk true, .drive .pd .data true] } := by
  by_cases h : pdBusy s = true <;>
    simp [recovery, h, driveWire, updPort, PortState.setOut, setLastErr, statusCode]

/-- TMO_SERVICE in its four cases (R201). -/
theorem tmoService_split (s : State) :
    (s.tickFlag = false ∧ tmoService s = (false, s)) ∨
    (s.tickFlag = true ∧ s.pd.busTimeout = 0 ∧ tmoService s = (false, { s with tickFlag := false })) ∨
    (s.tickFlag = true ∧ s.pd.busTimeout ≠ 0 ∧ s.pd.busTimeout - 1 ≠ 0 ∧ tmoService s =
      (false, { s with tickFlag := false, pd := { s.pd with busTimeout := s.pd.busTimeout - 1 } })) ∨
    (s.tickFlag = true ∧ s.pd.busTimeout ≠ 0 ∧ s.pd.busTimeout - 1 = 0 ∧ tmoService s =
      (true, recovery { s with tickFlag := false, pd := { s.pd with busTimeout := 0 } })) := by
  have hcount : ∀ t : State, countDown t = if t.pd.busTimeout - 1 = 0
      then (true, recovery { t with pd := { t.pd with busTimeout := t.pd.busTimeout - 1 } })
      else (false, { t with pd := { t.pd with busTimeout := t.pd.busTimeout - 1 } }) := fun _ => rfl
  have h : tmoService s = if s.tickFlag then
      if s.pd.busTimeout ≠ 0 then countDown { s with tickFlag := false } else (false, { s with tickFlag := false })
      else (false, s) := rfl
  rw [h]
  rcases hf : s.tickFlag with - | -
  · exact .inl ⟨rfl, rfl⟩
  · rw [if_pos rfl]
    by_cases h0 : s.pd.busTimeout = 0
    · exact .inr (.inl ⟨rfl, h0, if_neg (not_not.mpr h0)⟩)
    · rw [if_pos h0, hcount]
      by_cases h1 : s.pd.busTimeout - 1 = 0
      · exact .inr (.inr (.inr ⟨rfl, h0, h1, by rw [if_pos h1, h1]⟩))
      · exact .inr (.inr (.inl ⟨rfl, h0, h1, if_neg h1⟩))

/-! ## The relay's sub-steps -/

/-- Step 1 in its three cases (R207). -/
theorem relayStep1_split (P : Params) (s : State) :
    (s.pd.qOut.count = P.rbCap ∧ relayStep1 P s = (false, s)) ∨
    (s.pd.qOut.count ≠ P.rbCap ∧ (stRecv P s).2.status ≠ .ok ∧ relayStep1 P s = (false, yieldTurn P (stRecv P s).1)) ∨
    (s.pd.qOut.count ≠ P.rbCap ∧ (stRecv P s).2.status = .ok ∧ relayStep1 P s =
      (true, yieldTurn P (appendLog .c2p ((stRecv P s).2.value.setWidth 8)
        (yieldTurn P (rbInsert P .pd .out ((stRecv P s).2.value.setWidth 8) (yieldTurn P (stRecv P s).1)).2)))) := by
  by_cases hc : s.pd.qOut.count = P.rbCap
  · exact .inl ⟨hc, by simp [relayStep1, hc]⟩
  · by_cases ho : (stRecv P s).2.status = .ok
    · exact .inr (.inr ⟨hc, ho, by simp [relayStep1, hc, ho]⟩)
    · exact .inr (.inl ⟨hc, ho, by simp [relayStep1, hc, ho]⟩)

/-- The common shape of steps 2 and 3: a byte removed from a queue, a send of it, and on a failure the push-back
(R208, R209). -/
def sendFrom (P : Params) (p : Port) (send : Byte → State → State × CmdResult) (s : State) : Bool × State :=
  match (rbRemove P p .out s).1 with
  | none => (false, yieldTurn P (rbRemove P p .out s).2)
  | some c =>
    let x := send c (yieldTurn P (rbRemove P p .out s).2)
    if x.2.status = .ok then (true, yieldTurn P x.1)
    else (false, yieldTurn P (rbPushBack P p .out c (yieldTurn P x.1)).2)

theorem relayStep2_eq (P : Params) (s : State) : relayStep2 P s = sendFrom P .ph (stSend P) s := rfl

theorem relayStep3_eq (P : Params) (s : State) : relayStep3 P s = sendFrom P .pd (irqSend P) s := rfl

/-- Step 4's unit in its two cases (R210). -/
theorem relayMove_split (P : Params) (s : State) :
    ((s.pd.qIn.count = 0 ∨ s.ph.qOut.count = P.rbCap) ∧ relayMove P s = (false, s)) ∨
    (s.pd.qIn.count ≠ 0 ∧ s.ph.qOut.count ≠ P.rbCap ∧ ∃ c t, rbRemove P .pd .inq s = (some c, t) ∧
      relayMove P s = (true, appendLog .p2c c (rbInsert P .ph .out c t).2)) := by
  by_cases h : s.pd.qIn.count = 0 ∨ s.ph.qOut.count = P.rbCap
  · exact .inl ⟨h, by simp only [relayMove, h, if_true]⟩
  · obtain ⟨h1, h2⟩ := not_or.mp h
    have hr : rbRemove P .pd .inq s = (some (s.pd.qIn.slot s.pd.qIn.head), (rbRemove P .pd .inq s).2) := by
      simp [rbRemove, Ring.remove, getQueue, PortState.queue, h1]
    refine .inr ⟨h1, h2, _, _, hr, ?_⟩
    simp only [relayMove, h, if_false]
    rw [hr]

/-- What must hold of `I` for a whole RELAY_STEP to keep it: what an E_ST command asks, and the relay's own units. -/
structure RelayKeeps (P : Params) (I : State → Prop) : Prop extends MicroKeeps P I where
  insertOut : ∀ p v s, I s → I (rbInsert P p .out v s).2
  removeOut : ∀ p s, I s → I (rbRemove P p .out s).2
  pushBackOut : ∀ p v s, I s → I (rbPushBack P p .out v s).2
  removeIn : ∀ s, I s → I (rbRemove P .pd .inq s).2
  log : ∀ d c s, I s → I (appendLog d c s)
  irq : ∀ c s, I s → I (irqSend P c s).1
  tmo : ∀ s, I s → I (tmoService s).2

theorem RelayKeeps.sendFrom {P : Params} {I : State → Prop} (h : RelayKeeps P I) (p : Port)
    {send : Byte → State → State × CmdResult} (hsend : ∀ c s, I s → I (send c s).1) {s : State} (hs : I s) :
    I (Machine.sendFrom P p send s).2 := by
  have hr := h.yield _ (h.removeOut p s hs)
  unfold Machine.sendFrom
  rcases (rbRemove P p .out s).1 with - | c
  · exact hr
  · have hx := h.yield _ (hsend c _ hr)
    by_cases ho : (send c (yieldTurn P (rbRemove P p .out s).2)).2.status = .ok
    · simpa [ho] using hx
    · simpa [ho] using h.yield _ (h.pushBackOut p c _ hx)

/-- A whole RELAY_STEP keeps what each of its units keeps. -/
theorem RelayKeeps.relay {P : Params} {I : State → Prop} (h : RelayKeeps P I) {s : State}
    (hs : I s) : I (relay P s).2 := by
  have h1 : I (relayStep1 P s).2 := by
    rcases relayStep1_split P s with ⟨-, e⟩ | ⟨-, -, e⟩ | ⟨-, -, e⟩ <;> rw [e]
    · exact hs
    · exact h.yield _ (h.recv hs)
    · exact h.yield _ (h.log _ _ _ (h.yield _ (h.insertOut _ _ _ (h.yield _ (h.recv hs)))))
  have h2 : I (relayStep2 P (relayStep1 P s).2).2 := h.sendFrom .ph (fun c _ => h.send c) h1
  have h3 : I (relayStep3 P (relayStep2 P (relayStep1 P s).2).2).2 := h.sendFrom .pd h.irq h2
  refine h.tmo _ (h.yield _ ?_)
  rcases relayMove_split P (relayStep3 P (relayStep2 P (relayStep1 P s).2).2).2 with ⟨-, e⟩ | ⟨-, -, c, t, hr, e⟩
  · rw [e]; exact h3
  · have := h.removeIn _ h3
    rw [hr] at this
    rw [e]
    exact h.log _ _ _ (h.insertOut _ _ _ this)

end Sys2Proof.Machine
end

