-- ==== Sys2Proof/Laws/Step.lean ====
section
/-! SUPPORT. What one step can be, said once: which instruction it runs on which state, or which other agent's move it
is (00_scope.md R8, 20_memory.md R67). -/

namespace Sys2Proof.Machine

/-- The state after an instruction, as a function: every meaning answers a next state (60_exceptions.md R230). -/
def after (i : Instr) (s : State) : State :=
  match i with
  | .rbInsert p q v => writeRes ⟨(rbInsert s.params p q v s).1, true, 0⟩ (rbInsert s.params p q v s).2
  | .rbRemove p q => writeRes (byteOrEmpty (rbRemove s.params p q s).1) (rbRemove s.params p q s).2
  | .rbPeek p q => writeRes (byteOrEmpty (rbPeek p q s)) s
  | .rbPushback p q v => writeRes ⟨(rbPushBack s.params p q v s).1, true, 0⟩ (rbPushBack s.params p q v s).2
  | .irqSend c => writeRes (irqSend s.params c s).2 (irqSend s.params c s).1
  | .stSend c => writeRes (stSend s.params c s).2 (stSend s.params c s).1
  | .stRecv => writeRes (stRecv s.params s).2 (stRecv s.params s).1
  | .tmoService => writeRes ⟨.ok, false, bitAt (tmoService s).1 0⟩ (tmoService s).2
  | .csEnter => writeRes ⟨.ok, true, 0⟩ { s with ie := false }
  | .csExit => writeRes ⟨.ok, true, 0⟩ { s with ie := true }
  | .relayStep => writeRes ⟨.ok, false, (relay s.params s).1⟩ (relay s.params s).2
  | .regRead n => writeRes (regResult (regValue n s)) s
  | .evEdge => edgeService s.params s
  | .evTick => tickTurn s

/-- Running an instruction is the function `after`. -/
theorem exec_eq (i : Instr) (s : State) : exec i s = .next (after i s) := by cases i <;> rfl

theorem exec_next_iff {i : Instr} {s t : State} : exec i s = .next t ↔ after i s = t := by
  rw [exec_eq]; exact ⟨fun h => by injection h, fun h => by rw [h]⟩

/-- Every instruction but the two events is a command: what its unit does, then RES. -/
theorem step_cases {s t : State} (h : step s = .next t) :
    (∃ i sch cm, t = after i { s with sched := sch, cmds := cm } ∧
      (i = .evEdge → s.edgePend = true ∧ s.ie = true)) ∨
    (∃ sch cm, t = illegalWord { s with sched := sch, cmds := cm }) ∨
    (∃ sch, t = { s with sched := sch }) ∨
    (∃ c d sch, t = envPTurn c d { s with sched := sch }) ∨
    (∃ c d sch, t = envHTurn c d { s with sched := sch }) := by
  have hword : ∀ (w : Word) (u : State), ctrlWord w u = .next t →
      (∃ i, t = after i u ∧ i ≠ .evEdge) ∨ t = illegalWord u := by
    intro w u hu
    rw [ctrlWord] at hu
    split at hu
    · refine .inl ⟨_, (exec_next_iff.mp hu).symm, ?_⟩
      rintro rfl
      rename_i hd
      simp only [decode, whenFixed] at hd
      repeat' split at hd
      all_goals simp at hd
    · injection hu with hu; exact .inr hu.symm
  have hctrl : ∀ sch, ctrlTurn { s with sched := sch } = .next t →
      (∃ i sch cm, t = after i { s with sched := sch, cmds := cm } ∧
        (i = .evEdge → s.edgePend = true ∧ s.ie = true)) ∨
      (∃ sch cm, t = illegalWord { s with sched := sch, cmds := cm }) ∨ (∃ sch, t = { s with sched := sch }) := by
    intro sch hu
    rw [ctrlTurn] at hu
    split at hu
    · injection hu with hu; exact .inr (.inr ⟨sch, hu.symm⟩)
    · rename_i w rest hc
      rcases hword w _ hu with ⟨i, hi, hn⟩ | hi
      · exact .inl ⟨i, sch, rest, hi, fun h => absurd h hn⟩
      · exact .inr (.inl ⟨sch, rest, hi⟩)
  rw [step] at h
  split at h
  · split at h
    · rename_i he
      refine .inl ⟨.evEdge, s.sched, s.cmds, (exec_next_iff.mp h).symm, fun _ => by simpa [edgeEnabled] using he⟩
    · rename_i hs _
      rcases hctrl s.sched h with h | h | h
      · exact .inl h
      · exact .inr (.inl h)
      · exact .inr (.inr (.inl h))
  · rename_i rest _
    rcases hctrl rest h with h | h | h
    · exact .inl h
    · exact .inr (.inl h)
    · exact .inr (.inr (.inl h))
  · rename_i rest _
    rw [stepEdge] at h
    split at h
    · rename_i he
      exact .inl ⟨.evEdge, rest, s.cmds, (exec_next_iff.mp h).symm, fun _ => by simpa [edgeEnabled] using he⟩
    · injection h with h; exact .inr (.inr (.inl ⟨rest, h.symm⟩))
  · rename_i rest _
    exact .inl ⟨.evTick, rest, s.cmds, (exec_next_iff.mp h).symm, by simp⟩
  · rename_i c d rest _
    injection h with h; exact .inr (.inr (.inr (.inl ⟨c, d, rest, h.symm⟩)))
  · rename_i c d rest _
    injection h with h; exact .inr (.inr (.inr (.inr ⟨c, d, rest, h.symm⟩)))

end Sys2Proof.Machine
end

