-- ==== Sys2Proof/Laws/Frame.lean ====
section
/-! SUPPORT. The frame of the commands and of the other agents together: what none of them changes but those the rules
name, and the bits of RES (10_state.md R21, R30, R31, R33, R36, R37, R41). -/

namespace Sys2Proof.Machine

/-- The bits of the result register (R21). -/
theorem packRes_getLsbD (r : CmdResult) (i : Nat) : (packRes r).getLsbD i =
    if i < 16 then r.value.getLsbD i else if i < 24 then false else if i < 25 then r.nv else if i < 28 then false
    else (statusCode r.status).getLsbD (i - 28) := by
  have h : (packRes r).getLsbD i = BitVec.getLsbD (w := 4 + 3 + 1 + 8 + 16)
    (statusCode r.status ++ 0#3 ++ BitVec.ofBool r.nv ++ 0#8 ++ r.value) i := rfl
  rw [h, BitVec.getLsbD_append, BitVec.getLsbD_append, BitVec.getLsbD_append, BitVec.getLsbD_append]
  rcases Nat.lt_or_ge i 16 with h1 | h1
  · simp [h1]
  rcases Nat.lt_or_ge i 24 with h2 | h2
  · simp [show ¬ i < 16 by omega, h2, show i - 16 < 8 by omega]
  rcases Nat.lt_or_ge i 25 with h3 | h3
  · obtain rfl : i = 24 := by omega
    simp
  rcases Nat.lt_or_ge i 28 with h4 | h4
  · simp [show ¬ i < 16 by omega, show ¬ i < 24 by omega, show ¬ i < 25 by omega, h4, show ¬ i - 16 < 8 by omega,
      show ¬ i - 16 - 8 = 0 by omega, show i - 16 - 8 - 1 < 3 by omega]
  · simp [show ¬ i < 16 by omega, show ¬ i < 24 by omega, show ¬ i < 25 by omega, show ¬ i < 28 by omega,
      show ¬ i - 16 < 8 by omega, show ¬ i - 16 - 8 = 0 by omega, show ¬ i - 16 - 8 - 1 < 3 by omega,
      show i - 16 - 8 - 1 - 3 = i - 28 by omega]

/-- What neither a command other than an RB or a CS command, nor another agent's turn other than an edge service,
changes, from `s` to `t`. -/
structure CmdFrame (s t : State) : Prop where
  ie : t.ie = s.ie
  aux : ∀ p, getQueue p .aux0 t = getQueue p .aux0 s ∧ getQueue p .aux1 t = getQueue p .aux1 s
  phReg : t.ph.recvShift = s.ph.recvShift ∧ t.ph.sendShift = s.ph.sendShift ∧ t.ph.busTimeout = s.ph.busTimeout
  grows : ∃ l, t.wtrace = s.wtrace ++ l
  ovr : s.edgeOvr = true → t.edgeOvr = true
  cmds : t.cmds = s.cmds
  params : t.params = s.params
  logs : ∃ l, t.log = s.log ++ l
  masked : s.ie = false → s.edgePend = true → t.edgePend = true

theorem CmdFrame.refl (s : State) : CmdFrame s s :=
  ⟨rfl, fun _ => ⟨rfl, rfl⟩, ⟨rfl, rfl, rfl⟩, ⟨[], by simp⟩, id, rfl, rfl, ⟨[], by simp⟩, fun _ => id⟩

theorem CmdFrame.trans {s t u : State} (h : CmdFrame s t) (g : CmdFrame t u) : CmdFrame s u where
  ie := g.ie.trans h.ie
  aux p := ⟨(g.aux p).1.trans (h.aux p).1, (g.aux p).2.trans (h.aux p).2⟩
  phReg := ⟨g.phReg.1.trans h.phReg.1, g.phReg.2.1.trans h.phReg.2.1, g.phReg.2.2.trans h.phReg.2.2⟩
  grows := by
    obtain ⟨a, ha⟩ := h.grows
    obtain ⟨b, hb⟩ := g.grows
    exact ⟨a ++ b, by rw [hb, ha, List.append_assoc]⟩
  ovr o := g.ovr (h.ovr o)
  cmds := g.cmds.trans h.cmds
  params := g.params.trans h.params
  logs := by
    obtain ⟨a, ha⟩ := h.logs
    obtain ⟨b, hb⟩ := g.logs
    exact ⟨a ++ b, by rw [hb, ha, List.append_assoc]⟩
  masked hi he := g.masked (h.ie.trans hi) (h.masked hi he)

/-- A run of other agents' turns is framed so. -/
theorem OtherFrame.cmd {s t : State} (h : OtherFrame s t) : CmdFrame s t := by
  refine ⟨h.ie, ?_, ?_, h.grows, h.ovr, h.cmds, h.params, ⟨[], by simp [h.log]⟩, fun hi => (h.masked hi).2.2⟩
  · intro p
    cases p
    · constructor <;> simp only [getQueue, getPort_pd, PortState.queue] <;> rw [h.pd]
    · constructor <;> simp only [getQueue, getPort_ph, PortState.queue] <;> rw [h.ph]
  · rw [h.ph]
    exact ⟨rfl, rfl, rfl⟩

/-- A write that leaves the framed fields alone, but for growth of WTRACE and LOG. -/
theorem CmdFrame.of {s t : State} (ie : t.ie = s.ie) (pd : t.pd.qAux0 = s.pd.qAux0 ∧ t.pd.qAux1 = s.pd.qAux1)
    (ph : t.ph.qAux0 = s.ph.qAux0 ∧ t.ph.qAux1 = s.ph.qAux1 ∧ t.ph.recvShift = s.ph.recvShift ∧
      t.ph.sendShift = s.ph.sendShift ∧ t.ph.busTimeout = s.ph.busTimeout) {w : List WireEvent} {l : List LogEvent}
    (tr : t.wtrace = s.wtrace ++ w) (lg : t.log = s.log ++ l) (ovr : t.edgeOvr = s.edgeOvr)
    (pend : t.edgePend = s.edgePend) (cmds : t.cmds = s.cmds) (params : t.params = s.params) : CmdFrame s t where
  ie := ie
  aux p := by cases p <;> simp [getQueue, PortState.queue, pd, ph]
  phReg := ⟨ph.2.2.1, ph.2.2.2.1, ph.2.2.2.2⟩
  grows := ⟨w, tr⟩
  ovr h := ovr.trans h
  cmds := cmds
  params := params
  logs := ⟨l, lg⟩
  masked _ h := pend.trans h

theorem CmdFrame.writeRes (r : CmdResult) (s : State) : CmdFrame s (writeRes r s) :=
  .of rfl ⟨rfl, rfl⟩ ⟨rfl, rfl, rfl, rfl, rfl⟩ (w := []) (l := []) (by simp) (by simp) rfl rfl rfl rfl

/-- Every micro-step of an E_ST command is framed so. -/
theorem CmdFrame.microKeeps (P : Params) (s0 : State) : MicroKeeps P (CmdFrame s0) where
  yield s h := h.trans (yieldTurn_frame P s).cmd
  wait n s h := h.trans (.of rfl ⟨rfl, rfl⟩ ⟨rfl, rfl, rfl, rfl, rfl⟩ (l := []) rfl (by simp) rfl rfl rfl rfl)
  drive w v s h := h.trans (by
    cases w <;> exact .of rfl ⟨rfl, rfl⟩ ⟨rfl, rfl, rfl, rfl, rfl⟩ (l := []) rfl (by simp) rfl rfl rfl rfl)
  st s x _ h := h.trans (.of rfl ⟨rfl, rfl⟩ ⟨rfl, rfl, rfl, rfl, rfl⟩ (w := []) (l := []) (by simp) (by simp) rfl rfl rfl rfl)
  err e s _ h := h.trans
    (.of rfl ⟨rfl, rfl⟩ ⟨rfl, rfl, rfl, rfl, rfl⟩ (w := []) (l := []) (by simp) (by simp) rfl rfl rfl rfl)

theorem CmdFrame.setQueue {q : QueueId} (hq : q = .inq ∨ q = .out) (p : Port) (r : Ring) (s : State) :
    CmdFrame s (setQueue p q r s) := by
  rcases hq with rfl | rfl <;> cases p <;>
    exact .of rfl ⟨rfl, rfl⟩ ⟨rfl, rfl, rfl, rfl, rfl⟩ (w := []) (l := []) (by simp) (by simp) rfl rfl rfl rfl

theorem CmdFrame.insert (P : Params) {q : QueueId} (hq : q = .inq ∨ q = .out) (p : Port) (v : Byte) (s : State) :
    CmdFrame s (rbInsert P p q v s).2 := by
  unfold rbInsert
  split
  · exact .refl s
  · exact .setQueue hq p _ s

theorem CmdFrame.pushBack (P : Params) {q : QueueId} (hq : q = .inq ∨ q = .out) (p : Port) (v : Byte) (s : State) :
    CmdFrame s (rbPushBack P p q v s).2 := by
  unfold rbPushBack
  split
  · exact .refl s
  · exact .setQueue hq p _ s

theorem CmdFrame.remove (P : Params) {q : QueueId} (hq : q = .inq ∨ q = .out) (p : Port) (s : State) :
    CmdFrame s (rbRemove P p q s).2 := by
  unfold rbRemove
  split
  · exact .refl s
  · exact .setQueue hq p _ s

theorem CmdFrame.irqSend (P : Params) (c : Byte) (s : State) : CmdFrame s (irqSend P c s).1 := by
  rcases irqSend_split P c s with ⟨-, h⟩ | ⟨-, -, -, h⟩ | ⟨-, -, -, h⟩ <;> rw [h]
  · exact .refl s
  · exact .refl s
  · obtain ⟨a, b, c', d, f, l, e⟩ := armingSequence_eq P (irqLoaded P c s)
    simp only
    rw [e]
    exact .of rfl ⟨rfl, rfl⟩ ⟨rfl, rfl, rfl, rfl, rfl⟩ (l := []) rfl (by simp [irqLoaded]) rfl rfl rfl rfl

theorem CmdFrame.tmoService (s : State) : CmdFrame s (tmoService s).2 := by
  rcases tmoService_split s with ⟨-, h⟩ | ⟨-, -, h⟩ | ⟨-, -, -, h⟩ | ⟨-, -, -, h⟩ <;> rw [h]
  · exact .refl s
  · exact .of rfl ⟨rfl, rfl⟩ ⟨rfl, rfl, rfl, rfl, rfl⟩ (w := []) (l := []) (by simp) (by simp) rfl rfl rfl rfl
  · exact .of rfl ⟨rfl, rfl⟩ ⟨rfl, rfl, rfl, rfl, rfl⟩ (w := []) (l := []) (by simp) (by simp) rfl rfl rfl rfl
  · simp only
    rw [recovery_eq]
    exact .of rfl ⟨rfl, rfl⟩ ⟨rfl, rfl, rfl, rfl, rfl⟩ (l := []) rfl (by simp) rfl rfl rfl rfl

/-- Every unit of a RELAY_STEP is framed so. -/
theorem CmdFrame.relayKeeps (P : Params) (s0 : State) : RelayKeeps P (CmdFrame s0) where
  toMicroKeeps := CmdFrame.microKeeps P s0
  insertOut p v s h := h.trans (.insert P (.inr rfl) p v s)
  removeOut p s h := h.trans (.remove P (.inr rfl) p s)
  pushBackOut p v s h := h.trans (.pushBack P (.inr rfl) p v s)
  removeIn s h := h.trans (.remove P (.inl rfl) .pd s)
  log d c s h := h.trans (.of rfl ⟨rfl, rfl⟩ ⟨rfl, rfl, rfl, rfl, rfl⟩ (w := []) (by simp) rfl rfl rfl rfl rfl)
  irq c s h := h.trans (.irqSend P c s)
  tmo s h := h.trans (.tmoService s)

end Sys2Proof.Machine
end

