-- ==== Sys2Proof/Laws/PerInstr.lean ====
section
/-! SUPPORT. Statements made for each constructor of Instr. -/

namespace Sys2Proof.Laws.EncodesInRow

/-- The word of an instruction selects the instruction's own row of the opcode map, on the input the instruction belongs
to (30_encoding.md R83, R87, R88). -/
def Statement (i : Instr) : Prop :=
  i.row ∈ opcodeRows ∧ i.row.source = i.source ∧ i.row.selectedBy (encode i) = true


theorem rbInsert (p : Port) (q : QueueId) (v : Byte) : Statement (.rbInsert p q v) := by
  refine ⟨by simp [Instr.row, opcodeRows], rfl, ?_⟩
  cases p <;> cases q <;> revert v <;> decide

theorem rbRemove (p : Port) (q : QueueId) : Statement (.rbRemove p q) := by
  cases p <;> cases q <;> exact ⟨by simp [Instr.row, opcodeRows], rfl, by decide⟩

theorem rbPeek (p : Port) (q : QueueId) : Statement (.rbPeek p q) := by
  cases p <;> cases q <;> exact ⟨by simp [Instr.row, opcodeRows], rfl, by decide⟩

theorem rbPushback (p : Port) (q : QueueId) (v : Byte) : Statement (.rbPushback p q v) := by
  refine ⟨by simp [Instr.row, opcodeRows], rfl, ?_⟩
  cases p <;> cases q <;> revert v <;> decide

theorem irqSend (c : Byte) : Statement (.irqSend c) := ⟨by simp [Instr.row, opcodeRows], rfl, by revert c; decide⟩

theorem stSend (c : Byte) : Statement (.stSend c) := ⟨by simp [Instr.row, opcodeRows], rfl, by revert c; decide⟩

theorem stRecv : Statement .stRecv := ⟨by simp [Instr.row, opcodeRows], rfl, by decide⟩

theorem tmoService : Statement .tmoService := ⟨by simp [Instr.row, opcodeRows], rfl, by decide⟩

theorem csEnter : Statement .csEnter := ⟨by simp [Instr.row, opcodeRows], rfl, by decide⟩

theorem csExit : Statement .csExit := ⟨by simp [Instr.row, opcodeRows], rfl, by decide⟩

theorem relayStep : Statement .relayStep := ⟨by simp [Instr.row, opcodeRows], rfl, by decide⟩

theorem regRead (n : Byte) : Statement (.regRead n) := ⟨by simp [Instr.row, opcodeRows], rfl, by revert n; decide⟩

theorem evEdge : Statement .evEdge := ⟨by simp [Instr.row, opcodeRows], rfl, by decide⟩

theorem evTick : Statement .evTick := ⟨by simp [Instr.row, opcodeRows], rfl, by decide⟩

end Sys2Proof.Laws.EncodesInRow
end

