-- ==== Sys2Proof/Tests/Slice0.lean ====
section
/-! SUPPORT. The model's own tests: the checks of WellFormed, every constructor's decoding by a word written out from the
spec's encoding, one or two steps of each instruction against spec/95_test_vectors.md, and for every obligation that has
hypotheses a concrete state that meets them. -/

namespace Sys2Proof.Tests

open Sys2Proof.Machine

/-! ## WellFormed -/

theorem test_event_on_command_port_refused : Instr.evEdge.wellFormed .commandPort = false := by decide
theorem test_command_on_event_input_refused : Instr.csEnter.wellFormed .eventInput = false := by decide
theorem test_command_accepted : (Instr.irqSend 0xFF).wellFormed .commandPort = true := by decide
theorem test_no_ring_slot_refused : { Config.literals with rbCap := 0 }.wellFormed = false := by decide
theorem test_count_beyond_five_bits_refused : { Config.literals with rbCap := 32 }.wellFormed = false := by decide
theorem test_too_few_pulses_refused : { Config.literals with nRecvMax := 9 }.wellFormed = false := by decide
theorem test_no_guard_refused : { Config.literals with tmoGuard := 0 }.wellFormed = false := by decide
theorem test_defaults_accepted : Config.literals.wellFormed = true := by decide

/-! ## Decoding: words written from the encodings of 30_encoding.md R80, R81, R83, R85, R87 -/

theorem test_decode_rbInsert : decode 0b0001101001000001 = .instr (.rbInsert .ph .out 0x41) := by decide
theorem test_decode_rbRemove : decode 0b0010010000000000 = .instr (.rbRemove .pd .aux0) := by decide
theorem test_decode_rbPeek : decode 0b0011111000000000 = .instr (.rbPeek .ph .aux1) := by decide
theorem test_decode_rbPushback : decode 0b0100000011111010 = .instr (.rbPushback .pd .inq 0xFA) := by decide
theorem test_decode_irqSend : decode 0b0101000000011011 = .instr (.irqSend 0x1B) := by decide
theorem test_decode_stSend : decode 0b0110100001000001 = .instr (.stSend 0x41) := by decide
theorem test_decode_stRecv : decode 0b0111100000000000 = .instr .stRecv := by decide
theorem test_decode_tmoService : decode 0b1000000000000000 = .instr .tmoService := by decide
theorem test_decode_csEnter : decode 0b1001000000000000 = .instr .csEnter := by decide
theorem test_decode_csExit : decode 0b1010000000000000 = .instr .csExit := by decide
theorem test_decode_relayStep : decode 0b1011000000000000 = .instr .relayStep := by decide
theorem test_decode_regRead : decode 0b1100000000010000 = .instr (.regRead 0x10) := by decide
theorem test_decode_evEdge : decodeEvent 0b0000000000000001 = .instr .evEdge := by decide
theorem test_decode_evTick : decodeEvent 0b0000000000000010 = .instr .evTick := by decide

theorem test_decode_rejects : decode 0x0000 = .illegal .reservedOpcode ∧ decode 0xF000 = .illegal .reservedOpcode ∧
    decode 0x1100 = .illegal .reservedBit ∧ decode 0x6041 = .illegal .fixedField ∧ decode 0x7801 = .illegal .fixedField ∧
    decodeEvent 0x0003 = .illegal .unknownEvent := by decide

/-- No two rows of the opcode map share a word (R83). -/
theorem test_rows_disjoint : opcodeRows.Pairwise (fun r r' => r.pattern &&& r'.mask ≠ r'.pattern &&& r.mask) := by decide

/-- The examples of R88, and what is outside its syntax. -/
theorem test_assembler : assembleLine "rb.insert pd, out, 0x41" = some [0x1241] ∧
    assembleLine "rb.remove ph, out" = some [0x2A00] ∧ assembleLine "irq.send 0x1B ; a comment" = some [0x501B] ∧
    assembleLine "st.send 0b01000001" = some [0x6841] ∧ assembleLine "reg.read CTRL" = some [0xC010] ∧
    assembleLine "st.recv 1" = none ∧ assembleLine "st.send 256" = none := by decide

/-! ## Steps: the vectors of 95_test_vectors.md -/

/-- The state after the step that runs the table word `w` on `s`. -/
def runWord (w : Nat) (s : State) : State :=
  match step (s.withFetchWord 16 w) with
  | .next t => t
  | _ => s

/-- `s` after `k` steps. -/
def runSteps : Nat → State → State
  | 0, s => s
  | k + 1, s =>
    match step s with
    | .next t => runSteps k t
    | _ => s

/-- Reset with the bytes `l` in queue `p.q`. -/
def withBytes (p : Port) (q : QueueId) (l : List Byte) (s : State) : State :=
  l.foldl (fun t v => (rbInsert s.params p q v t).2) s

/-- Sixteen bytes, a full queue. -/
def sixteen : List Byte := (List.range 16).map (BitVec.ofNat 8)

/-- Reset with a receive in progress after the edges 0, 1, 0, 0 of 0x41 (V-L1-3), the timeout at `n`. -/
def receiving (n : BitVec 8) : State :=
  { State.reset with pd := { PortState.reset Config.literals with recvShift := 0x2080, busTimeout := n, extData := false } }

/-- Reset with a transmit of 0x41 in progress after one edge (V-L2-T5). -/
def transmitting : State :=
  { State.reset with pd := { PortState.reset Config.literals with sendShift := 0x3A0, busTimeout := 10 } }

/-- Reset with the computer's drivers at the given levels. -/
def computerDrives (clk data : Bool) (s : State) : State := { s with ph := { s.ph with extClk := clk, extData := data } }

-- V-L2-B9, V-L2-B6
theorem test_rbInsert : (runWord 0x105A State.reset).res = 0x01000000 ∧
    fifo .pd .inq (runWord 0x105A State.reset) = [0x5A] := by decide
theorem test_rbInsert_full : (runWord 0x1A99 (withBytes .ph .out sixteen State.reset)).res = 0x21000000 ∧
    fifo .ph .out (runWord 0x1A99 (withBytes .ph .out sixteen State.reset)) = sixteen := by decide
-- 40_ring_buffer.md R101 at RB_CAP = 1 (00_scope.md R9): the second byte finds the queue full
theorem test_rbCap_is_an_argument :
    (runWord 0x105A (runWord 0x105B (State.resetAt { Config.literals with rbCap := 1 }))).res = 0x21000000 := by decide
-- V-L2-B5, V-L2-B1
theorem test_rbRemove : (runWord 0x2000 (withBytes .pd .inq [0x41, 0xFA] State.reset)).res = 0x00000041 ∧
    fifo .pd .inq (runWord 0x2000 (withBytes .pd .inq [0x41, 0xFA] State.reset)) = [0xFA] := by decide
theorem test_rbRemove_empty : (runWord 0x2000 State.reset).res = 0x11000000 := by decide
-- V-L2-B4, V-L2-B2
theorem test_rbPeek : (runWord 0x3000 (withBytes .pd .inq [0x41, 0xFA] State.reset)).res = 0x00000041 ∧
    fifo .pd .inq (runWord 0x3000 (withBytes .pd .inq [0x41, 0xFA] State.reset)) = [0x41, 0xFA] := by decide
theorem test_rbPeek_empty : (runWord 0x3C00 State.reset).res = 0x11000000 := by decide
-- V-L2-B8, V-L2-B7
theorem test_rbPushback : (runWord 0x4A41 (withBytes .ph .out [0x42] State.reset)).res = 0x01000000 ∧
    fifo .ph .out (runWord 0x4A41 (withBytes .ph .out [0x42] State.reset)) = [0x41, 0x42] := by decide
theorem test_rbPushback_full : (runWord 0x4A99 (withBytes .ph .out sixteen State.reset)).res = 0x21000000 := by decide
-- V-L1-4, V-L2-T5
theorem test_irqSend : (runWord 0x501B State.reset).res = 0x01000000 ∧ (runWord 0x501B State.reset).pd.sendShift = 0x71B ∧
    (runWord 0x501B State.reset).pd.busTimeout = 10 ∧ (runWord 0x501B State.reset).wtrace =
      [.drive .pd .clk false, .wait 40, .drive .pd .data false, .wait 40, .drive .pd .clk true] := by decide
theorem test_irqSend_busy : (runWord 0x501B transmitting).res = 0x41000000 ∧
    (runWord 0x501B transmitting).pd.sendShift = 0x3A0 := by decide
-- V-L2-SS1, V-L2-SS4
theorem test_stSend : (runWord 0x6841 State.reset).res = 0x0000000B ∧ (runWord 0x6841 State.reset).wtrace.length = 66 := by
  decide +kernel
theorem test_stSend_rts : (runWord 0x6841 (computerDrives true false State.reset)).res = 0x60000000 ∧
    (runWord 0x6841 (computerDrives true false State.reset)).ph.lastErr = 6 ∧
    (runWord 0x6841 (computerDrives true false State.reset)).wtrace = [.drive .ph .data true] := by decide
-- V-L2-SR1; V-L2-SR4 and V-L2-SR4a, at each value of ST_RECV_ACK
theorem test_stRecv_noframe : (runWord 0x7800 State.reset).res = 0x71000000 ∧ (runWord 0x7800 State.reset).wtrace = [] := by
  decide
theorem test_stRecv_parity : ∀ ack : Bool,
    let r := stRecv { Config.literals with stRecvAck := ack }
      { computerDrives true false State.reset with
        sched := presentBits [true, false, false, false, false, false, true, false, false, true] }
    packRes r.2 = 0x81000000 ∧ r.1.ph.lastErr = 8 ∧ r.1.wtrace.length = (if ack then 58 else 51) := by decide
-- V-L2-M4, V-L2-M3
theorem test_tmoService_recovers : (runWord 0x8000 (tickTurn (receiving 1))).res = 1 ∧
    (runWord 0x8000 (tickTurn (receiving 1))).pd.recvShift = 0 ∧
    (runWord 0x8000 (tickTurn (receiving 1))).pd.lastErr = 0xA ∧
    (runWord 0x8000 (tickTurn (receiving 1))).wtrace = [.drive .pd .clk true, .drive .pd .data true] := by decide
theorem test_tmoService_counts : (runWord 0x8000 (tickTurn (receiving 5))).res = 0 ∧
    (runWord 0x8000 (tickTurn (receiving 5))).pd.busTimeout = 4 := by decide
-- V-L2-K2, V-L2-K3
theorem test_csEnter : (runWord 0x9000 State.reset).res = 0x01000000 ∧
    (runWord 0xC010 (runWord 0x9000 State.reset)).res = 0 := by decide
theorem test_csExit : (runWord 0xC010 (runWord 0xA000 (runWord 0x9000 State.reset))).res = 1 := by decide
-- V-L1-3 (its last command), V-L2-L5
theorem test_relayStep : (runWord 0xB000 (withBytes .pd .inq [0x41] State.reset)).res = 8 ∧
    fifo .ph .out (runWord 0xB000 (withBytes .pd .inq [0x41] State.reset)) = [0x41] ∧
    (runWord 0xB000 (withBytes .pd .inq [0x41] State.reset)).log = [⟨.p2c, 0x41⟩] ∧
    (runWord 0xB000 (tickTurn (receiving 1))).res = 0x10 ∧
    (runWord 0xB000 (tickTurn (receiving 1))).pd.lastErr = 0xA := by decide
/-- V-L2-L2: PD.OUT full, a transmit armed, the computer asking to send. -/
def noRoomForComputer : State :=
  computerDrives true false (withBytes .pd .out sixteen { transmitting with pd := { transmitting.pd with sendShift := 0x755 } })

/-- V-L2-L3: PH.OUT full, a byte in PD.IN, the computer holding the clock low. -/
def inhibitedRelay : State :=
  computerDrives false true (withBytes .pd .inq [0x41] (withBytes .ph .out sixteen State.reset))

theorem test_relayStep_retry : (runWord 0xB000 noRoomForComputer).res = 0 ∧
    (runWord 0xB000 noRoomForComputer).wtrace = [] ∧ fifo .pd .out (runWord 0xB000 noRoomForComputer) = sixteen ∧
    (runWord 0xB000 inhibitedRelay).res = 0 ∧ (runWord 0xB000 inhibitedRelay).ph.lastErr = 5 ∧
    (runWord 0xB000 inhibitedRelay).wtrace = [.drive .ph .data true] ∧
    fifo .ph .out (runWord 0xB000 inhibitedRelay) = sixteen ∧ fifo .pd .inq (runWord 0xB000 inhibitedRelay) = [0x41] ∧
    (runWord 0xB000 inhibitedRelay).log = [] := by decide
-- V-L2-K4, V-L2-K5
theorem test_regRead : (runWord 0xC003 State.reset).res = 0xF ∧ (runWord 0xC00B State.reset).res = 0xF := by decide
theorem test_regRead_reserved : (runWord 0xC005 State.reset).res = 0xF1000000 := by decide
-- V-L1-3 after edge 4 and edge 5; R155's eleventh edge
theorem test_evEdge : (runWord 1 (receiving 3)).pd.recvShift = 0x1040 ∧ (runWord 1 (receiving 3)).pd.busTimeout = 10 := by
  decide
theorem test_evEdge_completes :
    fifo .pd .inq (runWord 1 { State.reset with pd := { PortState.reset Config.literals with recvShift := 0xA082 } }) = [0x41] ∧
    (runWord 1 { State.reset with pd := { PortState.reset Config.literals with recvShift := 0xA082 } }).pd.recvShift = 0 := by decide
-- V-L2-K8
theorem test_evTick : (runWord 0xC010 (runWord 2 State.reset)).res = 9 := by decide
-- V-L2-RX15: a masked edge is latched, a second one is lost
theorem test_lost_edge : (runWord 0xC010 (runSteps 4 { runWord 0x9000 State.reset with
    sched := [.envP false false, .envP true false, .envP false true, .envP true true] })).res = 6 := by decide
-- 30_encoding.md R86, R90: a reserved word
theorem test_illegal : runWord 0xD000 State.reset = { State.reset with res := 0xF1000000 } := by decide

/-! ## Witnesses: for each obligation with hypotheses, a state and operands that meet them all, clause by clause -/

/-- A receive in progress, an edge latched (V-L1-3 after its fifth edge's fall). -/
def latched : State := { receiving 10 with edgePend := true }

/-- Reset with one word delivered and CTRL's turn. -/
def delivered (w : Word) : State := { State.reset with cmds := [w], sched := [.ctrl] }

/-- Sixteen bytes in PH.OUT, a full queue. -/
def fullOut : State := withBytes .ph .out sixteen State.reset

theorem latched_blockInv : BlockInv latched := by
  refine ⟨⟨by decide, by decide, by decide, by decide, fun p q => ?_, by decide, by decide, by decide, by decide,
    by decide, by decide, by decide, by decide⟩, by decide, by decide, by decide⟩
  cases p <;> cases q <;> decide

theorem transmitting_blockInv : BlockInv transmitting := by
  refine ⟨⟨by decide, by decide, by decide, by decide, fun p q => ?_, by decide, by decide, by decide, by decide,
    by decide, by decide, by decide, by decide⟩, by decide, by decide, by decide⟩
  cases p <;> cases q <;> decide

/-- PD Idle with its clock held low by the peripheral. -/
def idleLow : State := { State.reset with pd := { PortState.reset Config.literals with extClk := false, busTimeout := 10 } }

theorem idleLow_blockInv : BlockInv idleLow := by
  refine ⟨⟨by decide, by decide, by decide, by decide, fun p q => ?_, by decide, by decide, by decide, by decide,
    by decide, by decide, by decide, by decide⟩, by decide, by decide, by decide⟩
  cases p <;> cases q <;> decide

/-- A computer is still when the schedule is at its end. -/
theorem no_turns {s : State} (h : s.sched = []) : computerStill s := by
  intro t ht
  rw [h] at ht
  cases ht

theorem witness_ResetMeetsInvariant : Config.literals.wellFormed = true ∧
    { Config.literals with rbCap := 31, tmoGuard := 255, nRecvMax := 10 }.wellFormed = true := by decide

theorem witness_StepKeepsInvariant : ∃ t, BlockInv latched ∧ step latched = .next t := ⟨_, latched_blockInv, rfl⟩

theorem witness_OtherAgentsKeepUnitInvariant : UnitInv latched := latched_blockInv.unit

theorem witness_OnlyCriticalSectionCommandsWriteIE : (∃ t, exec .csEnter latched = .next t) ∧
    (∃ t, exec .csExit latched = .next t) ∧
    Instr.stRecv ≠ .csEnter ∧ Instr.stRecv ≠ .csExit ∧ ∃ t, exec .stRecv latched = .next t :=
  ⟨⟨_, rfl⟩, ⟨_, rfl⟩, by decide, by decide, ⟨_, exec_eq _ _⟩⟩

theorem witness_EdgeOverrunIsSticky : ∃ t, step { latched with edgeOvr := true } = .next t := ⟨_, rfl⟩

theorem witness_OnlyRingCommandsWriteAuxQueues : (∀ p q v, Instr.relayStep ≠ .rbInsert p q v) ∧
    (∀ p q, Instr.relayStep ≠ .rbRemove p q) ∧ (∀ p q v, Instr.relayStep ≠ .rbPushback p q v) ∧
    ∃ t, exec .relayStep latched = .next t :=
  ⟨fun _ _ _ => by simp, fun _ _ => by simp, fun _ _ _ => by simp, _, exec_eq _ _⟩

theorem witness_OnlyRelayStepAppendsToLog : Instr.tmoService ≠ .relayStep ∧ (∃ t, exec .tmoService latched = .next t) ∧
    ∃ t, exec .relayStep latched = .next t := ⟨by decide, ⟨_, exec_eq _ _⟩, ⟨_, exec_eq _ _⟩⟩

theorem witness_WireTraceOnlyGrows : ∃ t, step (delivered 0x6841) = .next t := ⟨_, rfl⟩

theorem witness_PhShiftRegistersNeverWritten : ∃ t, exec (.stSend 0x41) latched = .next t := ⟨_, exec_eq _ _⟩

theorem witness_OnlyEnvironmentWritesExternalDrivers :
    (∀ u ∈ [Turn.edge, .tick, .ctrl], ∀ c d, u ≠ .envP c d ∧ u ≠ .envH c d) ∧
    ∃ t, exec (.stSend 0x41) { latched with sched := [.edge, .tick, .ctrl] } = .next t :=
  ⟨by intro u hu c d; simp at hu; rcases hu with rfl | rfl | rfl <;> simp, _, exec_eq _ _⟩

theorem witness_PdPhaseTransitions :
    (UnitInv idleLow ∧ pdPhase idleLow = .idle ∧ ∃ t, exec .evEdge idleLow = .next t) ∧
    (UnitInv latched ∧ pdPhase latched = .receiving ∧ ∃ t, exec .evEdge latched = .next t) ∧
    (UnitInv transmitting ∧ pdPhase transmitting = .transmitting ∧ ∃ t, exec .evEdge transmitting = .next t) ∧
    (pdPhase idleLow = .idle ∧ idleLow.edgePend = false ∧ ∃ t, exec (.irqSend 0xFF) idleLow = .next t) ∧
    (pdPhase latched ≠ .idle ∧ ∃ t, exec (.irqSend 0) latched = .next t) ∧
    ∃ t, exec .tmoService latched = .next t :=
  ⟨⟨idleLow_blockInv.unit, by decide, _, rfl⟩, ⟨latched_blockInv.unit, by decide, _, rfl⟩,
   ⟨transmitting_blockInv.unit, by decide, _, rfl⟩, ⟨by decide, by decide, _, rfl⟩, ⟨by decide, _, rfl⟩, _, rfl⟩

theorem witness_StepRunsDecodedCommand : (delivered 0x9000).cmds = 0x9000 :: [] ∧ decode 0x9000 = .instr .csEnter ∧
    (delivered 0x9000).sched = .ctrl :: [] ∧
    { delivered 0x9000 with sched := [] }.sched = [] ∧ edgeEnabled { delivered 0x9000 with sched := [] } = false := by decide

theorem witness_TurnsRunTheirEvents : { latched with sched := [.tick] }.sched = .tick :: [] ∧
    ({ latched with sched := [.edge] }.sched = .edge :: [] ∧ latched.edgePend = true ∧ latched.ie = true) ∧
    (idleLow.edgePend = false ∨ idleLow.ie = false) ∧ { latched with ie := false }.ie = false ∧ latched.sched = [] ∧
    (delivered 0).sched = .ctrl :: [] ∧ { delivered 0 with cmds := [] }.cmds = [] := by decide

/-- At a boundary: an enabled edge, a turn of the peripheral that clocks one, and a command with an edge latched. -/
theorem witness_TurnsRunTheirEvents_boundary : (∃ u, exec .evEdge latched = .next u) ∧
    (Turn.envP false true ≠ .ctrl ∧ Turn.envP false true ≠ .edge ∧
      ∃ u, step { State.reset with sched := [.envP false true] } = .next u) ∧
    latched.sched = [] ∧ { latched with sched := [.edge] }.sched = [.edge] ∧ latched.edgePend = true ∧ latched.ie = true ∧
    ∃ t, exec .relayStep latched = .next t :=
  ⟨⟨_, rfl⟩, ⟨by decide, by decide, _, rfl⟩, rfl, rfl, rfl, rfl, _, exec_eq _ _⟩

theorem witness_FetchWordIsRunNext : (Instr.regRead 0xFF).source = .commandPort := by decide

theorem witness_DecodeOfEncodeIsIdentity : (Instr.rbInsert .ph .aux1 0xFF).wellFormed .commandPort = true ∧
    Instr.evEdge.wellFormed .eventInput = true := by decide

theorem witness_EncodeOfDecodeIsIdentity : decodeFrom .commandPort 0xC0FF = .instr (.regRead 0xFF) ∧
    decodeFrom .eventInput 1 = .instr .evEdge := by decide

theorem witness_DecodeFollowsOpcodeMap : decode 0x7800 = .instr .stRecv ∧
    (∃ r ∈ opcodeRows, r.source = .commandPort ∧ r.selectedBy 0x7800 = true) ∧
    ∀ r ∈ opcodeRows, r.source = .commandPort → r.selectedBy 0x7801 = false :=
  ⟨by decide, ⟨Instr.row .stRecv, by decide, by decide, by decide⟩, by decide⟩

theorem witness_IllegalChangesOnlyRes :
    (∀ r ∈ opcodeRows, r.source = .commandPort → r.selectedBy 0x0FFF = false) ∧
    (∀ r ∈ opcodeRows, r.source = .commandPort → r.selectedBy 0xD000 = false) ∧
    (delivered 0xD000).cmds = 0xD000 :: [] ∧ (delivered 0xD000).sched = .ctrl :: [] ∧
    { delivered 0xD000 with sched := [] }.sched = [] ∧ edgeEnabled { delivered 0xD000 with sched := [] } = false ∧
    (0x28 : Byte).toNat ∉ [0x00, 0x01, 0x02, 0x03, 0x04, 0x08, 0x09, 0x0A, 0x0B, 0x0C, 0x10,
      0x20, 0x21, 0x22, 0x23, 0x24, 0x25, 0x26, 0x27] := by decide

theorem witness_InsertAppendsOrIsFull : (getQueue .ph .out fullOut).wf fullOut.params.rbCap = true ∧
    (fifo .ph .out fullOut).length = fullOut.params.rbCap ∧ (getQueue .pd .aux0 fullOut).wf fullOut.params.rbCap = true ∧
    (fifo .pd .aux0 fullOut).length ≠ fullOut.params.rbCap := by decide

theorem witness_RemoveTakesHeadOrIsEmpty : (getQueue .ph .out fullOut).wf fullOut.params.rbCap = true ∧
    fifo .ph .out fullOut = 0 :: sixteen.drop 1 ∧ (getQueue .pd .inq fullOut).wf fullOut.params.rbCap = true ∧
    fifo .pd .inq fullOut = [] := by decide

theorem witness_PeekReadsHeadOrIsEmpty : (getQueue .ph .out fullOut).wf fullOut.params.rbCap = true ∧
    fifo .ph .out fullOut = 0 :: sixteen.drop 1 ∧ fifo .pd .inq fullOut = [] := by decide

theorem witness_PushBackPutsHeadOrIsFull : (getQueue .ph .out fullOut).wf fullOut.params.rbCap = true ∧
    (fifo .ph .out fullOut).length = fullOut.params.rbCap ∧ (fifo .pd .aux1 fullOut).length ≠ fullOut.params.rbCap := by decide

theorem witness_PushBackUndoesRemove : (getQueue .ph .out fullOut).wf fullOut.params.rbCap = true ∧
    fifo .ph .out fullOut = 0 :: sixteen.drop 1 ∧ (∃ t u, exec (.rbRemove .ph .out) fullOut = .next t ∧
      exec (.rbPushback .ph .out 0) t = .next u) ∧ (getQueue .ph .inq fullOut).wf fullOut.params.rbCap = true ∧
    (fifo .ph .inq fullOut).length ≠ fullOut.params.rbCap ∧ ∃ t u, exec (.rbPushback .ph .inq 7) fullOut = .next t ∧
      exec (.rbRemove .ph .inq) t = .next u :=
  ⟨by decide, by decide, ⟨_, _, exec_eq _ _, exec_eq _ _⟩, by decide, by decide, ⟨_, _, exec_eq _ _, exec_eq _ _⟩⟩

theorem witness_RingIsFifo : (Ring.reset Config.literals).wf 16 = true ∧ (Ring.reset Config.literals).count = 0 ∧ sixteen.length ≤ 16 := by decide

theorem witness_QualifiedFallIsLatched :
    ({ State.reset with sched := [.envP false true] }.sched = .envP false true :: [] ∧ State.reset.pd.extClk = true ∧
      State.reset.pd.outClk = true) ∧ idleLow.pd.extClk = false ∧
    { State.reset with sched := [.envH false true] }.sched = .envH false true :: [] := by decide

theorem witness_MaskedEdgeStaysLatched : { latched with ie := false }.ie = false ∧
    { latched with ie := false }.edgePend = true ∧ ∃ t, step { latched with ie := false } = .next t :=
  ⟨by decide, by decide, _, rfl⟩

theorem witness_EdgeShiftsOneBitOut : transmitting.pd.sendShift ≠ 0 := by decide

/-- Reset with `recv_shift = r`, the peripheral driving `data`, and the bytes `l` in PD.IN. -/
def shifting (r : Word) (data : Bool) (l : List Byte) : State :=
  withBytes .pd .inq l { State.reset with pd := { PortState.reset Config.literals with recvShift := r, extData := data } }

/-- The shifted register of R146 for a state, as the statement has it. -/
def shifted (s : State) : Word :=
  ((if s.pd.recvShift = 0 then 0x800 else s.pd.recvShift) >>> 1) ||| (if s.pd.outData && s.pd.extData then 0x8000 else 0)

/-- The clauses in order: the arming edge; V-L2-RX7, RX6, RX12 and RX5 at their eleventh edge. -/
theorem witness_EdgeShiftsOneBitIn :
    ((shifting 0 true []).pd.sendShift = 0 ∧ (shifting 0 true []).pd.qIn.wf (shifting 0 true []).params.rbCap = true ∧
      shifted (shifting 0 true []) = 0x8400 ∧ (0x8400 : Word).getLsbD 0 = false) ∧
    ((shifting 0xA082 false []).pd.sendShift = 0 ∧ (shifting 0xA082 false []).pd.qIn.wf (shifting 0xA082 false []).params.rbCap = true ∧
      shifted (shifting 0xA082 false []) = 0x5041 ∧ (0x5041 : Word).getLsbD 0 = true ∧ (0x5041 : Word).getLsbD 15 = false) ∧
    ((shifting 0x2082 true []).pd.sendShift = 0 ∧ (shifting 0x2082 true []).pd.qIn.wf (shifting 0x2082 true []).params.rbCap = true ∧
      shifted (shifting 0x2082 true []) = 0x9041 ∧ (0x9041 : Word).getLsbD 0 = true ∧ (0x9041 : Word).getLsbD 15 = true ∧
      popcount ((0x9041 : Word).extractLsb' 6 9) % 2 = 0) ∧
    ((shifting 0xA082 true sixteen).pd.sendShift = 0 ∧ (shifting 0xA082 true sixteen).pd.qIn.wf (shifting 0xA082 true sixteen).params.rbCap = true ∧
      shifted (shifting 0xA082 true sixteen) = 0xD041 ∧ (0xD041 : Word).getLsbD 0 = true ∧
      (0xD041 : Word).getLsbD 15 = true ∧ popcount ((0xD041 : Word).extractLsb' 6 9) % 2 = 1 ∧
      (fifo .pd .inq (shifting 0xA082 true sixteen)).length = (shifting 0xA082 true sixteen).params.rbCap) ∧
    (shifted (shifting 0xA082 true (sixteen.drop 1)) = 0xD041 ∧
      (shifting 0xA082 true (sixteen.drop 1)).pd.qIn.wf (shifting 0xA082 true (sixteen.drop 1)).params.rbCap = true ∧
      (fifo .pd .inq (shifting 0xA082 true (sixteen.drop 1))).length ≠ (shifting 0xA082 true (sixteen.drop 1)).params.rbCap) := by decide

theorem witness_EdgeServiceLeavesControlAlone : ∃ t, exec .evEdge latched = .next t := ⟨_, rfl⟩

/-- PD idle and clocked by a peripheral, for the frames of eleven edges. -/
theorem witness_PeripheralFrameReachesQueue :
    { State.reset with sched := (wireFrame 0x41).flatMap edgeTurns ++ [Turn.ctrl] }.sched =
      (wireFrame 0x41).flatMap edgeTurns ++ [Turn.ctrl] ∧ State.reset.ie = true ∧ State.reset.edgePend = false ∧
    pdPhase State.reset = .idle ∧ State.reset.pd.outClk = true ∧ State.reset.pd.outData = true ∧
    State.reset.pd.extClk = true ∧ State.reset.pd.qIn.wf State.reset.params.rbCap = true ∧
    (fifo .pd .inq State.reset).length < State.reset.params.rbCap := by decide

theorem witness_ArmedFrameIsClockedOut : (List.replicate 11 true).length = 11 ∧
    { State.reset with pd := { PortState.reset Config.literals with sendShift := irqPattern 0 } }.pd.sendShift = irqPattern 0 ∧
    State.reset.ie = true ∧ State.reset.edgePend = false ∧ State.reset.pd.outClk = true ∧
    State.reset.pd.extClk = true := by decide

theorem witness_IrqSendArmsFrame : idleLow.pd.recvShift = 0 ∧ idleLow.pd.sendShift = 0 ∧ idleLow.edgePend = false := by
  decide

theorem witness_IrqSendRefusedOrBusy : latched.pd.recvShift ≠ 0 ∧ { idleLow with edgePend := true }.edgePend = true ∧
    transmitting.pd.recvShift = 0 ∧ transmitting.edgePend = false ∧ transmitting.pd.sendShift ≠ 0 := by decide

theorem witness_StSendDrivesWholeFrame : computerStill { latched with sched := [.edge, .ctrl, .tick] } ∧
    computerReleased latched ∧ phDriversReleased latched ∧ quiet idleLow :=
  ⟨by intro t ht c d; simp at ht; rcases ht with rfl | rfl | rfl <;> simp, ⟨rfl, rfl⟩, ⟨rfl, rfl⟩, ⟨rfl, rfl⟩⟩

theorem witness_StSendAbortsBeforeAnyPulse_fromStart : computerStill (computerDrives false true State.reset) ∧
    phDriversReleased (computerDrives false true State.reset) ∧
    (computerDrives false true State.reset).ph.extClk = false ∧
    computerStill (computerDrives true false State.reset) ∧ phDriversReleased (computerDrives true false State.reset) ∧
    (computerDrives true false State.reset).ph.extClk = true ∧
    (computerDrives true false State.reset).ph.extData = false :=
  ⟨no_turns rfl, ⟨rfl, rfl⟩, rfl, no_turns rfl, ⟨rfl, rfl⟩, rfl, rfl⟩

/-- A computer with released drivers that pulls just before the checks of pulse `k` of an ST_SEND of `c`. -/
def pulls (c : Byte) (k : Nat) (clk data : Bool) : State := { State.reset with sched := pullBefore c k clk data }

/-- The clauses in order: an inhibit before pulse 10; a request to send before pulse 2 of 0x02 (0,0,1,0,…), whose check
is skipped at 2, where the bit sent last is 0, and made at 3; one before pulse 10 of 0x01, whose parity bit is 0. -/
theorem witness_StSendAbortsBeforeAnyPulse :
    ((pulls 0x41 10 false true).sched = pullBefore 0x41 10 false true ∧ computerReleased (pulls 0x41 10 false true) ∧
      phDriversReleased (pulls 0x41 10 false true)) ∧
    ((pulls 0x02 2 true false).sched = pullBefore 0x02 2 true false ∧ dataReleasedAt 0x02 3 = true ∧
      ∀ i, 2 ≤ i → i < 3 → dataReleasedAt 0x02 i = false) ∧
    ((pulls 0x01 10 true false).sched = pullBefore 0x01 10 true false ∧
      ∀ i, 10 ≤ i → i ≤ 10 → dataReleasedAt 0x01 i = false) := by
  refine ⟨⟨rfl, ⟨rfl, rfl⟩, rfl, rfl⟩, ⟨rfl, by decide, fun i h1 h2 => ?_⟩, rfl, fun i h1 h2 => ?_⟩
  · obtain rfl : i = 2 := by omega
    decide
  · obtain rfl : i = 10 := by omega
    decide

-- 43_selftimed_engine.md R173, R174, R175: INHIBITED with VALUE 10; RTS with VALUE 3
theorem test_stSend_inhibited_late : (runWord 0x6841 { State.reset with
    sched := pullBefore 0x41 10 false true }).res = 0x5000000A := by decide +kernel
theorem test_stSend_rts_skipped : (runWord 0x6802 { State.reset with
    sched := pullBefore 0x02 2 true false }).res = 0x60000003 := by decide +kernel

theorem witness_StSendAlwaysEndsClean : phDriversReleased { latched with sched := [.envH false true, .ctrl] } := ⟨rfl, rfl⟩

theorem witness_StRecvNeedsStartBit : readWire .ph .clk (computerDrives false false State.reset) = false ∧
    computerStill latched ∧ readWire .ph .data latched = true := ⟨rfl, no_turns rfl, rfl⟩

/-- A computer that asks to send and then presents `bits` at pulses 1, 2, …. -/
def presents (bits : List Bool) : State :=
  { computerDrives true false State.reset with sched := presentBits bits }

/-- The right and the wrong parity bit of 0x00. -/
theorem witness_StRecvJudgesPresentedFrame : ∀ b : Bool, (presents []).params.wellFormed = true ∧
    (presents (((wireFrame 0).drop 1).take 8 ++ [b, true])).sched =
      presentBits (((wireFrame 0).drop 1).take 8 ++ [b, true]) ∧
    phDriversReleased (presents (((wireFrame 0).drop 1).take 8 ++ [b, true])) ∧
    (presents (((wireFrame 0).drop 1).take 8 ++ [b, true])).ph.extClk = true ∧
    (presents (((wireFrame 0).drop 1).take 8 ++ [b, true])).ph.extData = false ∧
    oddParity 0 = true ∧ false ≠ oddParity 0 :=
  fun _ => ⟨by decide, rfl, ⟨rfl, rfl⟩, rfl, rfl, by decide, by decide⟩

/-- A computer that never stops, and one that stops at pulse 11 and at pulse 100. -/
theorem witness_StRecvFramingWithoutTimelyStop : (computerStill (computerDrives true false State.reset) ∧
    phDriversReleased (computerDrives true false State.reset) ∧ (computerDrives true false State.reset).ph.extClk = true ∧
    (computerDrives true false State.reset).ph.extData = false) ∧
    ∀ n ∈ [11, 100], (List.replicate 9 true).length = 9 ∧ 11 ≤ n ∧
      n ≤ (presents (List.replicate 9 true ++ List.replicate (n - 10) false ++ [true])).params.nRecvMax ∧
      phDriversReleased (presents (List.replicate 9 true ++ List.replicate (n - 10) false ++ [true])) :=
  ⟨⟨no_turns rfl, ⟨rfl, rfl⟩, rfl, rfl⟩, fun n hn => by
    simp at hn; rcases hn with rfl | rfl <;> exact ⟨by decide, by decide, by decide, rfl, rfl⟩⟩

theorem witness_StRecvAlwaysEndsClean : phDriversReleased latched ∧ latched.st.busy = false := ⟨⟨rfl, rfl⟩, rfl⟩

theorem witness_StCommandsFrame : (∃ t, exec .stRecv { latched with ie := false } = .next t) ∧
    { latched with ie := false }.ie = false ∧ quiet { latched with ie := false } ∧
    ∃ t, exec (.stSend 0xFF) latched = .next t := ⟨⟨_, exec_eq _ _⟩, rfl, ⟨rfl, rfl⟩, _, exec_eq _ _⟩

theorem witness_TmoServiceCountsAndRecovers : State.reset.tickFlag = false ∧
    (tickTurn State.reset).tickFlag = true ∧ (tickTurn State.reset).pd.busTimeout = 0 ∧
    (tickTurn (receiving 2)).pd.busTimeout ≠ 0 ∧ (tickTurn (receiving 2)).pd.busTimeout ≠ 1 ∧
    (tickTurn (receiving 255)).pd.busTimeout ≠ 0 ∧ (tickTurn (receiving 1)).pd.busTimeout = 1 := by decide

theorem witness_TicksRecoverStuckBus : 0 < 10 ∧ (receiving 10).pd.busTimeout.toNat = 10 ∧
    (receiving 10).edgePend = false ∧
    { receiving 10 with sched := (List.replicate 10 [Turn.tick, Turn.ctrl]).flatten, cmds := List.replicate 10 0x8000 }.sched =
      (List.replicate 10 [Turn.tick, Turn.ctrl]).flatten ∧ pdPhase (receiving 10) ≠ .idle ∧ pdPhase idleLow = .idle := by
  decide

theorem witness_RegReadReturnsRegister : (0x08 : Byte) = (if Port.ph = .pd then 0x00 else 0x08) ∧
    (getQueue .ph .out fullOut).wf fullOut.params.rbCap = true ∧ (0x00 : Byte) = (if Port.pd = .pd then 0x00 else 0x08) := by decide

/-- With nothing to relay: no tick; a tick at timeouts 0, 255 and 1. -/
theorem witness_RelayStepServicesTick : ∀ s ∈ [idleLow, tickTurn State.reset, tickTurn (receiving 255),
    tickTurn (receiving 1)], quiet s ∧ computerReleased s ∧ phDriversReleased s ∧ s.pd.qIn.count = 0 ∧
    s.pd.qOut.count = 0 ∧ s.ph.qOut.count = 0 := by
  intro s hs
  simp only [List.mem_cons, List.not_mem_nil, or_false] at hs
  rcases hs with rfl | rfl | rfl | rfl <;> exact ⟨⟨rfl, rfl⟩, ⟨rfl, rfl⟩, ⟨rfl, rfl⟩, rfl, rfl, rfl⟩

/-- An idle PD, and one receiving, each with a byte waiting in PD.OUT and the computer presenting 0xED (P4). -/
def presentsED (s : State) : State :=
  withBytes .pd .out [0x1B] { computerDrives true false s with sched := presentBits ((wireFrame 0xED).drop 1) }

theorem witness_RelayStepForwardsComputerByte : ∀ s ∈ [presentsED idleLow, presentsED (receiving 10)],
    BlockInv s ∧ s.sched = presentBits ((wireFrame 0xED).drop 1) ∧ s.ph.extClk = true ∧ s.ph.extData = false ∧
    s.tickFlag = false ∧ s.edgePend = false ∧ (fifo .pd .out s).length < s.params.rbCap ∧ fifo .ph .out s = [] ∧
    fifo .pd .inq s = [] ∧ fifo .pd .out s ++ [0xED] = 0x1B :: [0xED] := by
  intro s hs
  simp only [List.mem_cons, List.not_mem_nil, or_false] at hs
  rcases hs with rfl | rfl <;>
    refine ⟨⟨⟨by decide, by decide, by decide, by decide, fun p q => ?_, by decide, by decide, by decide, by decide,
      by decide, by decide, by decide, by decide⟩, by decide, by decide, by decide⟩, by decide, by decide, by decide,
      by decide, by decide, by decide, by decide, by decide, by decide⟩ <;> cases p <;> cases q <;> decide

/-- A computer that asks to send and presents nothing, with PD.OUT full (V-L2-L2) and with room in it. -/
theorem witness_RelayStepForwardsComputerByte_unanswered :
    ∀ s ∈ [noRoomForComputer, computerDrives true false idleLow],
    BlockInv s ∧ computerStill s ∧ s.ph.extClk = true ∧ s.ph.extData = false ∧ fifo .ph .out s = [] ∧
    (fifo .pd .out noRoomForComputer).length = noRoomForComputer.params.rbCap ∧
    (fifo .pd .out (computerDrives true false idleLow)).length < (computerDrives true false idleLow).params.rbCap := by
  intro s hs
  simp only [List.mem_cons, List.not_mem_nil, or_false] at hs
  rcases hs with rfl | rfl <;>
    refine ⟨⟨⟨by decide, by decide, by decide, by decide, fun p q => ?_, by decide, by decide, by decide, by decide,
      by decide, by decide, by decide, by decide⟩, by decide, by decide, by decide⟩, no_turns (by decide), by decide,
      by decide, by decide, by decide, by decide⟩ <;> cases p <;> cases q <;> decide

/-- PD idle with one byte received. -/
def oneReceived : State := withBytes .pd .inq [0x41] idleLow

theorem witness_RelayStepForwardsPeripheralByte : BlockInv oneReceived ∧ quiet oneReceived ∧
    computerReleased oneReceived ∧ oneReceived.tickFlag = false ∧ fifo .pd .inq oneReceived = 0x41 :: [] ∧
    fifo .ph .out oneReceived = [] ∧ fifo .pd .out oneReceived = [] := by
  refine ⟨⟨⟨by decide, by decide, by decide, by decide, fun p q => ?_, by decide, by decide, by decide, by decide, by decide,
    by decide, by decide, by decide⟩, by decide, by decide, by decide⟩, ⟨rfl, rfl⟩, ⟨rfl, rfl⟩, rfl, by decide,
    by decide, by decide⟩
  cases p <;> cases q <;> decide

/-- A receive in progress and two bytes waiting for the peripheral (V-L1-5). -/
def twoWaiting : State := withBytes .pd .out [0x1B, 0x2C] (receiving 10)

/-- PD idle with a masked edge latched, and two bytes waiting for the peripheral. -/
def maskedWaiting : State := withBytes .pd .out [0x1B, 0x2C] { idleLow with edgePend := true, ie := false }

theorem witness_RelayStepRetriesFailedSend : ∀ s ∈ [twoWaiting, maskedWaiting], BlockInv s ∧ quiet s ∧
    computerReleased s ∧ s.tickFlag = false ∧ (pdPhase s ≠ .idle ∨ s.edgePend = true) ∧ pdPhase maskedWaiting = .idle ∧
    fifo .pd .out s = 0x1B :: [0x2C] ∧ fifo .ph .out s = [] ∧ fifo .pd .inq s = [] := by
  intro s hs
  simp only [List.mem_cons, List.not_mem_nil, or_false] at hs
  rcases hs with rfl | rfl <;>
    refine ⟨⟨⟨by decide, by decide, by decide, by decide, fun p q => ?_, by decide, by decide, by decide, by decide,
      by decide, by decide, by decide, by decide⟩, by decide, by decide, by decide⟩, ⟨rfl, rfl⟩, ⟨rfl, rfl⟩, rfl,
      by decide, by decide, by decide, by decide, by decide⟩ <;> cases p <;> cases q <;> decide

/-- Two bytes waiting for a computer that asks to send, with PD.OUT full and with room in it. -/
def askedWhileWaiting (l : List Byte) : State :=
  computerDrives true false (withBytes .ph .out [0x41, 0xFA] (withBytes .pd .out l State.reset))

/-- An inhibiting computer (V-L2-L3), and one that asks to send. -/
theorem witness_RelayStepRetriesFailedSend_computer :
    (BlockInv inhibitedRelay ∧ computerStill inhibitedRelay ∧ fifo .ph .out inhibitedRelay = 0x00 :: sixteen.drop 1 ∧
      inhibitedRelay.ph.extClk = false) ∧
    (∀ s ∈ [askedWhileWaiting sixteen, askedWhileWaiting []], BlockInv s ∧ computerStill s ∧
      fifo .ph .out s = 0x41 :: [0xFA] ∧ s.ph.extClk = true ∧ s.ph.extData = false) ∧
    (fifo .pd .out (askedWhileWaiting sixteen)).length = (askedWhileWaiting sixteen).params.rbCap ∧
    (fifo .pd .out (askedWhileWaiting [])).length < (askedWhileWaiting []).params.rbCap := by
  refine ⟨⟨⟨⟨by decide, by decide, by decide, by decide, fun p q => ?_, by decide, by decide, by decide, by decide,
    by decide, by decide, by decide, by decide⟩, by decide, by decide, by decide⟩, no_turns (by decide), by decide,
    by decide⟩, fun s hs => ?_, by decide, by decide⟩
  · cases p <;> cases q <;> decide
  · simp only [List.mem_cons, List.not_mem_nil, or_false] at hs
    rcases hs with rfl | rfl <;>
      refine ⟨⟨⟨by decide, by decide, by decide, by decide, fun p q => ?_, by decide, by decide, by decide, by decide,
        by decide, by decide, by decide, by decide⟩, by decide, by decide, by decide⟩, no_turns (by decide), by decide,
        by decide, by decide⟩ <;> cases p <;> cases q <;> decide

/-- PD idle and two bytes waiting for the computer. -/
def twoForComputer : State := withBytes .ph .out [0x41, 0xFA] idleLow

theorem witness_RelayStepSendsToComputer : BlockInv twoForComputer ∧ quiet twoForComputer ∧
    computerReleased twoForComputer ∧ twoForComputer.tickFlag = false ∧ fifo .ph .out twoForComputer = 0x41 :: [0xFA] ∧
    fifo .pd .inq twoForComputer = [] ∧ fifo .pd .out twoForComputer = [] := by
  refine ⟨⟨⟨by decide, by decide, by decide, by decide, fun p q => ?_, by decide, by decide, by decide, by decide, by decide,
    by decide, by decide, by decide⟩, by decide, by decide, by decide⟩, ⟨rfl, rfl⟩, ⟨rfl, rfl⟩, rfl, by decide,
    by decide, by decide⟩
  cases p <;> cases q <;> decide

/-- PD idle and two bytes waiting for the peripheral. -/
def twoForPeripheral : State := withBytes .pd .out [0x1B, 0x2C] idleLow

theorem witness_RelayStepArmsPeripheralSend : BlockInv twoForPeripheral ∧ quiet twoForPeripheral ∧
    computerReleased twoForPeripheral ∧ twoForPeripheral.tickFlag = false ∧ pdPhase twoForPeripheral = .idle ∧
    twoForPeripheral.edgePend = false ∧ fifo .pd .out twoForPeripheral = 0x1B :: [0x2C] ∧
    fifo .ph .out twoForPeripheral = [] ∧ fifo .pd .inq twoForPeripheral = [] := by
  refine ⟨⟨⟨by decide, by decide, by decide, by decide, fun p q => ?_, by decide, by decide, by decide, by decide, by decide,
    by decide, by decide, by decide⟩, by decide, by decide, by decide⟩, ⟨rfl, rfl⟩, ⟨rfl, rfl⟩, rfl, by decide,
    by decide, by decide, by decide, by decide⟩
  cases p <;> cases q <;> decide

/-- A full queue, with an unmasked edge latched, with it masked, and with none to come. -/
theorem witness_RelayStepConservesBytes : (∀ p q, (getQueue p q fullOut).wf fullOut.params.rbCap = true) ∧
    { fullOut with ie := false }.ie = false ∧ (fullOut.edgePend = false ∧ ∀ u ∈ fullOut.sched, ∀ c d, u ≠ .envP c d) ∧
    ∃ u, exec .stRecv fullOut = .next u := by
  refine ⟨fun p q => ?_, rfl, ⟨rfl, fun u hu => by cases hu⟩, _, exec_eq _ _⟩
  cases p <;> cases q <;> decide

end Sys2Proof.Tests
end

/-! ## Proofs: reset (10_state.md R44) -/

section

namespace Sys2Proof.Machine

@[simp] theorem getPort_resetAt (p : Port) (L : Literals) : getPort p (State.resetAt L) = PortState.reset L := by
  cases p <;> rfl

@[simp] theorem queue_portReset (q : QueueId) (L : Literals) : (PortState.reset L).queue q = Ring.reset L := by
  cases q <;> rfl

@[simp] theorem getQueue_resetAt (p : Port) (q : QueueId) (L : Literals) :
    getQueue p q (State.resetAt L) = Ring.reset L := by
  simp [getQueue]

/-- Settles O1: both ports hold `PortState.reset` and all queues `Ring.reset`, at any parameters; the block-wide fields are
those `State.resetAt` writes. -/
theorem resetStateHasListedValues : Obligations.ResetStateHasListedValues := by
  refine ⟨fun L s hs => ?_, rfl⟩
  subst hs
  refine ⟨fun p => ?ports, fun p q => ?queues, ?blockWide⟩
  case ports =>
    rw [getPort_resetAt]
    exact ⟨rfl, rfl, rfl, rfl, rfl, rfl⟩
  case queues =>
    rw [getQueue_resetAt]
    exact ⟨rfl, rfl⟩
  case blockWide => exact ⟨rfl, rfl, rfl, rfl, rfl, rfl, rfl, rfl⟩

end Sys2Proof.Machine

end

/-! ## Proofs: ring-buffer commands (40_ring_buffer.md R101 to R107) -/

section

namespace Sys2Proof.Machine

/-! ### RES as the ring-buffer commands write it (10_state.md R21) -/

theorem packRes_ok_noValue : packRes ⟨.ok, true, 0⟩ = 0x01000000 := by decide

theorem packRes_full : packRes ⟨.full, true, 0⟩ = 0x21000000 := by decide

theorem packRes_byteOrEmpty_none : packRes (byteOrEmpty none) = 0x11000000 := by decide

/-- The bits above the byte are all 0: those of VALUE and of the gaps, NV, and the status code of OK. -/
theorem packRes_byteOrEmpty_some (v : Byte) : packRes (byteOrEmpty (some v)) = v.setWidth 32 := by
  refine BitVec.eq_of_getLsbD_eq fun i hi => ?_
  rw [packRes_getLsbD]
  rcases Nat.lt_or_ge i 16 with hvalue | habove
  · simp [byteOrEmpty, zext16, hvalue, hi]
  · have hv : v.getLsbD i = false := BitVec.getLsbD_of_ge v i (by omega)
    simp [byteOrEmpty, statusCode, Nat.not_lt.mpr habove, hv]

/-! ### What a command answers, from what its queue operation answers -/

theorem exec_rbInsert_of_eq {p : Port} {q : QueueId} {v : Byte} {s t : State} {e : Status}
    (h : rbInsert s.params p q v s = (e, t)) :
    exec (.rbInsert p q v) s = .next { t with res := packRes ⟨e, true, 0⟩ } := by
  rw [exec_eq, after, h, writeRes]

theorem exec_rbRemove_of_eq {p : Port} {q : QueueId} {s t : State} {b : Option Byte}
    (h : rbRemove s.params p q s = (b, t)) :
    exec (.rbRemove p q) s = .next { t with res := packRes (byteOrEmpty b) } := by
  rw [exec_eq, after, h, writeRes]

theorem exec_rbPeek_of_wf {p : Port} {q : QueueId} {s : State} (h : (getQueue p q s).wf s.params.rbCap = true) :
    exec (.rbPeek p q) s = .next { s with res := packRes (byteOrEmpty (fifo p q s).head?) } := by
  rw [exec_eq, after, rbPeek_spec p q h, writeRes]

/-! ### The obligations -/

/-- Settles O23, by the two cases of R101: the queue is full, or the byte is appended. -/
theorem insertAppendsOrIsFull : Obligations.InsertAppendsOrIsFull := by
  intro p q v s hwf
  rcases rbInsert_spec rfl p q v hwf with ⟨hfull, hop⟩ | ⟨hroom, r, hop, hr, hseq⟩
  · refine ⟨fun _ => ?_, fun hne => absurd hfull hne⟩
    rw [exec_rbInsert_of_eq hop, packRes_full]
  · refine ⟨fun hfull => absurd hfull hroom.ne, fun _ => ⟨r, hr, hseq, ?_⟩⟩
    rw [exec_rbInsert_of_eq hop, packRes_ok_noValue]

/-- Settles O24, by the two cases of R102: the queue is empty, or its first byte is taken. -/
theorem removeTakesHeadOrIsEmpty : Obligations.RemoveTakesHeadOrIsEmpty := by
  intro p q s hwf
  rcases rbRemove_spec rfl p q hwf with ⟨hnil, hop⟩ | ⟨v, l, r, hcons, hop, hr, hseq, -⟩
  · refine ⟨fun _ => ?_, fun v l hcons => absurd (hnil.symm.trans hcons) (List.cons_ne_nil v l).symm⟩
    rw [exec_rbRemove_of_eq hop, packRes_byteOrEmpty_none]
  · refine ⟨fun hnil => absurd (hcons.symm.trans hnil) (List.cons_ne_nil v l), fun v' l' hcons' => ?_⟩
    obtain ⟨rfl, rfl⟩ := List.cons.inj (hcons.symm.trans hcons')
    refine ⟨r, hr, hseq, ?_⟩
    rw [exec_rbRemove_of_eq hop, packRes_byteOrEmpty_some]

/-- Settles O25: RB_PEEK answers the head of the sequence (R103), which is none or its first byte. -/
theorem peekReadsHeadOrIsEmpty : Obligations.PeekReadsHeadOrIsEmpty := by
  intro p q s hwf
  refine ⟨fun hnil => ?_, fun v l hcons => ?_⟩
  · rw [exec_rbPeek_of_wf hwf, hnil, List.head?_nil, packRes_byteOrEmpty_none]
  · rw [exec_rbPeek_of_wf hwf, hcons, List.head?_cons, packRes_byteOrEmpty_some]

end Sys2Proof.Machine

end

/-! ## Proofs: parity and the line primitives (41_frame_codec.md R120, R121, R125, R126) -/

section

namespace Sys2Proof.Machine

/-! ### Parity -/

/-- A count is odd exactly when the exclusive or of what is counted is 1. -/
theorem odd_countP_iff_foldr_xor {α : Type} (p : α → Bool) (l : List α) :
    Odd (l.countP p) ↔ l.foldr (fun a acc => p a ^^ acc) false = true := by
  induction l with
  | nil => simp
  | cons a l ih => cases h : p a <;> simp [h, ih, Nat.odd_add_one]

/-- R125 is the complement of the exclusive or of the eight bits. -/
theorem odd_popcount_iff (d : Byte) : Odd (popcount d) ↔ oddParity d = false := by
  rw [popcount, odd_countP_iff_foldr_xor]
  simp [oddParity, List.range_succ]

/-- A bit put before a bit vector counts once. -/
theorem popcount_ofBool_append {n : Nat} (b : Bool) (v : BitVec n) :
    popcount (BitVec.ofBool b ++ v) = popcount v + b.toNat := by
  have hlow : (List.range n).countP (fun k => (BitVec.ofBool b ++ v).getLsbD k) = popcount v :=
    List.countP_congr fun k hk => by rw [BitVec.getLsbD_append, if_pos (List.mem_range.mp hk)]
  have htop : (BitVec.ofBool b ++ v).getLsbD n = b := by
    rw [BitVec.getLsbD_append, if_neg (Nat.lt_irrefl n), Nat.sub_self, BitVec.getLsbD_ofBool]; simp
  have hrange : List.range (1 + n) = List.range n ++ [n] := by rw [Nat.add_comm, List.range_succ]
  rw [popcount, hrange, List.countP_append, hlow, List.countP_singleton, htop]
  cases b <;> rfl

theorem parityOk_iff (g : BitVec 9) : parityOk g = true ↔ Odd (popcount g) := by
  rw [parityOk, beq_iff_eq, Nat.odd_iff]

/-- The one bit that makes a byte's count odd is its parity bit. -/
theorem odd_popcount_add_iff (d : Byte) (b : Bool) : Odd (popcount d + b.toNat) ↔ b = oddParity d := by
  cases b with
  | false => rw [Bool.toNat_false, Nat.add_zero, odd_popcount_iff, eq_comm]
  | true => rw [Bool.toNat_true, Nat.odd_add_one, odd_popcount_iff, Bool.not_eq_false, eq_comm]

/-- Settles O29: a group is odd exactly with the byte's parity bit, which R125 says of that bit and R126 of the check. -/
theorem parityCheckAcceptsEncoderBit : Obligations.ParityCheckAcceptsEncoderBit := by
  intro d b
  refine ⟨Nat.odd_iff.mp ((odd_popcount_add_iff d _).mpr rfl), ?_⟩
  rw [parityOk_iff, popcount_ofBool_append, odd_popcount_add_iff]

/-! ### Line primitives -/

theorem getOut_setOut (w w' : Wire) (v : Bool) (x : PortState) :
    (x.setOut w v).getOut w' = if w' = w then v else x.getOut w' := by cases w <;> cases w' <;> rfl

/-- A driver reads back what was written to it, and every other driver is as before. -/
theorem getOut_driveWire (p p' : Port) (w w' : Wire) (v : Bool) (s : State) :
    (getPort p' (driveWire p w v s)).getOut w' = if p' = p ∧ w' = w then v else (getPort p' s).getOut w' := by
  cases p <;> cases p' <;> simp [getOut_setOut]

/-- A port keeps all but its two drivers. -/
theorem setOut_frame (w : Wire) (v : Bool) (x : PortState) :
    x.setOut w v = { x with outClk := (x.setOut w v).outClk, outData := (x.setOut w v).outData } := by
  cases w <;> rfl

/-- A driver write changes WTRACE and the block's own drivers only. -/
theorem driveWire_frame {p : Port} {w : Wire} {v : Bool} {s u : State} (h : u = driveWire p w v s) :
    u = { s with wtrace := u.wtrace,
                 pd := { s.pd with outClk := u.pd.outClk, outData := u.pd.outData },
                 ph := { s.ph with outClk := u.ph.outClk, outData := u.ph.outData } } := by
  subst h
  cases p
  case pd => rw [driveWire_pd_pd, ← setOut_frame]; rfl
  case ph => rw [driveWire_ph_ph, ← setOut_frame]; rfl

/-- Settles O31: both primitives are `driveWire`, with 1 and with 0. -/
theorem linePrimitivesDriveAndRecord : Obligations.LinePrimitivesDriveAndRecord := by
  intro p w s
  have hself (v : Bool) : (getPort p (driveWire p w v s)).getOut w = v := by simp [getOut_driveWire]
  have hother (p' : Port) (w' : Wire) (hne : ¬(p' = p ∧ w' = w)) (v : Bool) :
      (getPort p' (driveWire p w v s)).getOut w' = (getPort p' s).getOut w' := by
    rw [getOut_driveWire, if_neg hne]
  refine ⟨hself true, hself false, driveWire_wtrace p w true s, driveWire_wtrace p w false s,
    fun p' w' hne => ⟨hother p' w' hne true, hother p' w' hne false⟩, fun u hu => ?_⟩
  rcases hu with hhigh | hlow
  · exact driveWire_frame hhigh
  · exact driveWire_frame hlow

end Sys2Proof.Machine

end

/-! ## Proofs: the timeout monitor (44_supervisor.md R201, R202) -/

section

namespace Sys2Proof.Machine

/-- RES of TMO_SERVICE: status OK, and VALUE[0] says whether the recovery ran. -/
theorem packRes_ok_bit (b : Bool) : packRes ⟨.ok, false, bitAt b 0⟩ = (BitVec.ofBool b).setWidth 32 := by
  cases b <;> decide

theorem exec_tmoService_of_eq {s t : State} {b : Bool} (h : tmoService s = (b, t)) :
    exec .tmoService s = .next { t with res := (BitVec.ofBool b).setWidth 32 } := by
  rw [exec_eq, after, h, writeRes, packRes_ok_bit]

/-- PD has a frame in progress exactly when one of its shift registers is not 0 (10_state.md R40). -/
theorem pdBusy_iff (s : State) : pdBusy s = true ↔ s.pd.recvShift ≠ 0 ∨ s.pd.sendShift ≠ 0 := by
  rw [pdBusy, Bool.or_eq_true, bne_iff_ne, bne_iff_ne]

/-- Settles O50, by the four cases of R201: no tick, a stopped counter, a counter above 1, and the step to 0, where the
recovery of R202 runs. -/
theorem tmoServiceCountsAndRecovers : Obligations.TmoServiceCountsAndRecovers := by
  intro s
  rcases tmoService_split s with ⟨hflag, hop⟩ | ⟨hflag, hstopped, hop⟩ | ⟨hflag, hrunning, hnext, hop⟩ |
    ⟨hflag, hrunning, hnext, hop⟩
  case inl =>
    have hnoTick := Bool.eq_false_iff.mp hflag
    exact ⟨fun _ => exec_tmoService_of_eq hop, fun h => absurd h hnoTick, fun h => absurd h hnoTick,
      fun h => absurd h hnoTick⟩
  case inr.inl =>
    have hnotOne : s.pd.busTimeout ≠ 1 := by rw [hstopped]; decide
    exact ⟨fun h => absurd h (Bool.ne_false_iff.mpr hflag), fun _ _ => exec_tmoService_of_eq hop,
      fun _ h => absurd hstopped h, fun _ h => absurd h hnotOne⟩
  case inr.inr.inl =>
    exact ⟨fun h => absurd h (Bool.ne_false_iff.mpr hflag), fun _ h => absurd h hrunning,
      fun _ _ _ => exec_tmoService_of_eq hop, fun _ h => absurd (sub_eq_zero.mpr h) hnext⟩
  case inr.inr.inr =>
    refine ⟨fun h => absurd h (Bool.ne_false_iff.mpr hflag), fun _ h => absurd h hrunning,
      fun _ _ h => absurd (sub_eq_zero.mp hnext) h, fun _ _ => ?_⟩
    rw [exec_tmoService_of_eq hop, recovery_eq]
    simp only [pdBusy_iff]
    rfl

end Sys2Proof.Machine

end

/-! ## Proofs: decoding and encoding (30_encoding.md R80 to R90) -/

section

namespace Sys2Proof

/-! ### A command word as the row of its fields (R81) -/

/-- The word whose fields `OP`, `P`, `Q`, `Z` and `IMM8` are these (R81). -/
def wordOf (op : BitVec 4) (p : BitVec 1) (q : BitVec 2) (z : Bool) (imm : Byte) : Word :=
  op ++ (p ++ q ++ BitVec.ofBool z ++ imm)

theorem fieldP_append_fieldQ (w : Word) : fieldP w ++ fieldQ w = w.extractLsb' 9 3 :=
  BitVec.extractLsb'_append_extractLsb'_eq_extractLsb' rfl

theorem fieldZ_eq (w : Word) : w.extractLsb' 8 1 = BitVec.ofBool (fieldZ w) := by
  refine BitVec.eq_of_getLsbD_eq fun i hi => ?_
  obtain rfl : i = 0 := by omega
  simp [fieldZ]

theorem low12_eq (w : Word) :
    w.extractLsb' 0 12 = fieldP w ++ fieldQ w ++ BitVec.ofBool (fieldZ w) ++ fieldImm w := by
  rw [fieldP_append_fieldQ, ← fieldZ_eq]
  have hzi : w.extractLsb' 9 3 ++ w.extractLsb' 8 1 = w.extractLsb' 8 4 :=
    BitVec.extractLsb'_append_extractLsb'_eq_extractLsb' rfl
  have himm : w.extractLsb' 8 4 ++ fieldImm w = w.extractLsb' 0 12 :=
    BitVec.extractLsb'_append_extractLsb'_eq_extractLsb' rfl
  rw [hzi, himm]

/-- Every word is the word of its fields. -/
theorem wordOf_fields (w : Word) : wordOf (fieldOp w) (fieldP w) (fieldQ w) (fieldZ w) (fieldImm w) = w := by
  have hw : fieldOp w ++ w.extractLsb' 0 12 = w.extractLsb' 0 16 :=
    BitVec.extractLsb'_append_extractLsb'_eq_extractLsb' rfl
  rw [wordOf, ← low12_eq, hw, BitVec.extractLsb'_eq_self]

section Fields

variable (op : BitVec 4) (p : BitVec 1) (q : BitVec 2) (z : Bool) (imm : Byte)

@[simp] theorem fieldOp_wordOf : fieldOp (wordOf op p q z imm) = op := BitVec.extractLsb'_append_eq_left

@[simp] theorem low12_wordOf : (wordOf op p q z imm).extractLsb' 0 12 = p ++ q ++ BitVec.ofBool z ++ imm :=
  BitVec.extractLsb'_append_eq_right

/-- A field below `OP` is read from the fields below `OP`. -/
theorem extractLsb'_wordOf (k n : Nat) (h : k + n ≤ 12) : (wordOf op p q z imm).extractLsb' k n =
    (p ++ q ++ BitVec.ofBool z ++ imm).extractLsb' k n :=
  BitVec.extractLsb'_append_eq_of_add_le h

@[simp] theorem fieldImm_wordOf : fieldImm (wordOf op p q z imm) = imm := by
  rw [fieldImm, extractLsb'_wordOf _ _ _ _ _ _ _ (by decide), BitVec.extractLsb'_append_eq_right]

@[simp] theorem fieldZ_wordOf : fieldZ (wordOf op p q z imm) = z := by
  have h : BitVec.ofBool (fieldZ (wordOf op p q z imm)) = BitVec.ofBool z := by
    rw [← fieldZ_eq, extractLsb'_wordOf _ _ _ _ _ _ _ (by decide), BitVec.extractLsb'_append_eq_of_le (by decide)]
    exact BitVec.extractLsb'_append_eq_right
  simpa using congrArg (BitVec.getLsbD · 0) h

@[simp] theorem fieldPQ_wordOf : (wordOf op p q z imm).extractLsb' 9 3 = p ++ q := by
  rw [extractLsb'_wordOf _ _ _ _ _ _ _ (by decide), BitVec.extractLsb'_append_eq_of_le (by decide)]
  exact BitVec.extractLsb'_append_eq_left

@[simp] theorem fieldP_wordOf : fieldP (wordOf op p q z imm) = p := by
  rw [fieldP, extractLsb'_wordOf _ _ _ _ _ _ _ (by decide), BitVec.extractLsb'_append_eq_of_le (by decide),
    BitVec.extractLsb'_append_eq_of_le (by decide)]
  exact BitVec.extractLsb'_append_eq_left

@[simp] theorem fieldQ_wordOf : fieldQ (wordOf op p q z imm) = q := by
  rw [fieldQ, extractLsb'_wordOf _ _ _ _ _ _ _ (by decide), BitVec.extractLsb'_append_eq_of_le (by decide),
    BitVec.extractLsb'_append_eq_of_le (by decide)]
  exact BitVec.extractLsb'_append_eq_right

end Fields

theorem exists_wordOf (w : Word) : ∃ op p q z imm, w = wordOf op p q z imm := ⟨_, _, _, _, _, (wordOf_fields w).symm⟩

/-- A byte added to a word whose IMM8 is 0 fills it (R88). -/
theorem wordOf_add_byte (op : BitVec 4) (p : BitVec 1) (q : BitVec 2) (z : Bool) (imm : Byte) :
    wordOf op p q z 0 + imm.setWidth 16 = wordOf op p q z imm := by
  have hassoc (v : Byte) : wordOf op p q z v = op ++ (p ++ q ++ BitVec.ofBool z) ++ v :=
    (BitVec.append_assoc (x₁ := op)).symm
  have himm : imm.setWidth 16 = 0#8 ++ imm := by
    refine BitVec.eq_of_getLsbD_eq fun i hi => ?_
    rw [BitVec.getLsbD_setWidth, BitVec.getLsbD_append]
    split
    · simp [hi]
    · simp [BitVec.getLsbD_of_ge imm i (by omega)]
  rw [hassoc, hassoc, himm]
  exact BitVec.append_zero_add_zero_append

/-! ### The encoder's words by their fields (R88) -/

/-- The field of a port, the inverse of `portOf` (R81). -/
def portField : Port → BitVec 1
  | .pd => 0
  | .ph => 1

/-- The field of a queue, the inverse of `queueOf` (R81). -/
def queueField : QueueId → BitVec 2
  | .inq => 0
  | .out => 1
  | .aux0 => 2
  | .aux1 => 3

@[simp] theorem portOf_portField (p : Port) : portOf (portField p) = p := by cases p <;> rfl
@[simp] theorem queueOf_queueField (q : QueueId) : queueOf (queueField q) = q := by cases q <;> rfl
@[simp] theorem portField_portOf (b : BitVec 1) : portField (portOf b) = b := by revert b; decide
@[simp] theorem queueField_queueOf (b : BitVec 2) : queueField (queueOf b) = b := by revert b; decide

/-- A command's word by its fields. -/
def fieldsWord : Instr → Word
  | .rbInsert p q v => wordOf 1 (portField p) (queueField q) false v
  | .rbRemove p q => wordOf 2 (portField p) (queueField q) false 0
  | .rbPeek p q => wordOf 3 (portField p) (queueField q) false 0
  | .rbPushback p q v => wordOf 4 (portField p) (queueField q) false v
  | .irqSend c => wordOf 5 0 0 false c
  | .stSend c => wordOf 6 1 0 false c
  | .stRecv => wordOf 7 1 0 false 0
  | .tmoService => wordOf 8 0 0 false 0
  | .csEnter => wordOf 9 0 0 false 0
  | .csExit => wordOf 0xA 0 0 false 0
  | .relayStep => wordOf 0xB 0 0 false 0
  | .regRead n => wordOf 0xC 0 0 false n
  | .evEdge => wordOf 0 0 0 false 1
  | .evTick => wordOf 0 0 0 false 2

theorem encode_eq_fieldsWord (i : Instr) : encode i = fieldsWord i := by
  cases i with
  | rbInsert p q v => rw [fieldsWord, ← wordOf_add_byte]; cases p <;> cases q <;> rfl
  | rbRemove p q => cases p <;> cases q <;> rfl
  | rbPeek p q => cases p <;> cases q <;> rfl
  | rbPushback p q v => rw [fieldsWord, ← wordOf_add_byte]; cases p <;> cases q <;> rfl
  | irqSend c => rw [fieldsWord, ← wordOf_add_byte]; rfl
  | stSend c => rw [fieldsWord, ← wordOf_add_byte]; rfl
  | regRead n => rw [fieldsWord, ← wordOf_add_byte]; rfl
  | _ => rfl

/-! ### The decoder on the fields (R83, R90) -/

theorem whenFixed_eq_instr {ok : Bool} {i j : Instr} : whenFixed ok i = .instr j ↔ ok = true ∧ i = j := by
  cases ok <;> simp [whenFixed]

theorem decode_fieldsWord (i : Instr) (h : i.source = .commandPort) : decode (fieldsWord i) = .instr i := by
  cases i with
  | evEdge => cases h
  | evTick => cases h
  | _ => simp [fieldsWord, decode, whenFixed]

theorem eq_ofNat_of_toNat {w n : Nat} {x : BitVec w} (h : x.toNat = n) : x = BitVec.ofNat w n := by
  rw [← h, BitVec.ofNat_toNat, BitVec.setWidth_eq]

theorem fieldsWord_of_decode {w : Word} {i : Instr} (h : decode w = .instr i) :
    fieldsWord i = w ∧ i.source = .commandPort := by
  obtain ⟨op, p, q, z, imm, rfl⟩ := exists_wordOf w
  simp only [decode, fieldZ_wordOf, fieldOp_wordOf, fieldP_wordOf, fieldQ_wordOf, fieldImm_wordOf, fieldPQ_wordOf,
    low12_wordOf] at h
  split at h
  · cases h
  obtain rfl : z = false := by simpa using ‹¬z = true›
  split at h
  all_goals
    rename_i hop
    simp only [whenFixed_eq_instr, beq_iff_eq, Decoded.instr.injEq, reduceCtorEq] at h
  all_goals obtain rfl := eq_ofNat_of_toNat hop
  case h_1 | h_4 => subst h; simp [fieldsWord, Instr.source]
  case h_2 | h_3 => obtain ⟨rfl, rfl⟩ := h; simp [fieldsWord, Instr.source]
  case h_5 | h_6 | h_12 => obtain ⟨hpq, rfl⟩ := h; exact ⟨by rw [wordOf, hpq]; rfl, rfl⟩
  case h_7 | h_8 | h_9 | h_10 | h_11 => obtain ⟨hlow, rfl⟩ := h; exact ⟨by rw [wordOf, hlow]; rfl, rfl⟩

/-! ### The obligations -/

theorem decode_eq_instr_iff {w : Word} {i : Instr} : decode w = .instr i ↔ encode i = w ∧ i.source = .commandPort := by
  rw [encode_eq_fieldsWord]
  exact ⟨fieldsWord_of_decode, fun ⟨hw, hsrc⟩ => hw ▸ decode_fieldsWord i hsrc⟩

/-- R87: the event codes, both ways. -/
theorem decodeEvent_eq_instr_iff {w : Word} {i : Instr} :
    decodeEvent w = .instr i ↔ encode i = w ∧ i.source = .eventInput := by
  constructor
  · intro h
    unfold decodeEvent at h
    split at h
    · cases h; exact ⟨Eq.symm ‹w = 1›, rfl⟩
    split at h
    · cases h; exact ⟨Eq.symm ‹w = 2›, rfl⟩
    · cases h
  · rintro ⟨rfl, hsrc⟩
    cases i with
    | evEdge => rfl
    | evTick => rfl
    | _ => cases hsrc

theorem decodeFrom_eq_instr_iff {src : Source} {w : Word} {i : Instr} :
    decodeFrom src w = .instr i ↔ encode i = w ∧ i.wellFormed src = true := by
  rw [Instr.wellFormed, beq_iff_eq]
  cases src with
  | commandPort => exact decode_eq_instr_iff
  | eventInput => exact decodeEvent_eq_instr_iff

/-- Settles O17: the words an input decodes to `i` are the word of `i` alone, when `i` belongs to that input. -/
theorem decodeOfEncodeIsIdentity : Obligations.DecodeOfEncodeIsIdentity :=
  fun _ _ hwf => decodeFrom_eq_instr_iff.mpr ⟨rfl, hwf⟩

/-- Settles O18: the other direction of the same equivalence. -/
theorem encodeOfDecodeIsIdentity : Obligations.EncodeOfDecodeIsIdentity :=
  fun _ _ _ hdec => decodeFrom_eq_instr_iff.mp hdec

/-- Every instruction's word is in the instruction's row (R83, R87). -/
theorem encodesInRow (i : Instr) : Laws.EncodesInRow.Statement i := by
  cases i with
  | rbInsert p q v => exact Laws.EncodesInRow.rbInsert p q v
  | rbRemove p q => exact Laws.EncodesInRow.rbRemove p q
  | rbPeek p q => exact Laws.EncodesInRow.rbPeek p q
  | rbPushback p q v => exact Laws.EncodesInRow.rbPushback p q v
  | irqSend c => exact Laws.EncodesInRow.irqSend c
  | stSend c => exact Laws.EncodesInRow.stSend c
  | stRecv => exact Laws.EncodesInRow.stRecv
  | tmoService => exact Laws.EncodesInRow.tmoService
  | csEnter => exact Laws.EncodesInRow.csEnter
  | csExit => exact Laws.EncodesInRow.csExit
  | relayStep => exact Laws.EncodesInRow.relayStep
  | regRead n => exact Laws.EncodesInRow.regRead n
  | evEdge => exact Laws.EncodesInRow.evEdge
  | evTick => exact Laws.EncodesInRow.evTick

/-- A word that decodes selects the row of what it decodes to. -/
theorem row_of_decode {w : Word} {i : Instr} (h : decode w = .instr i) :
    i.row ∈ opcodeRows ∧ i.row.source = .commandPort ∧ i.row.selectedBy w = true := by
  obtain ⟨rfl, hsrc⟩ := decode_eq_instr_iff.mp h
  obtain ⟨hmem, hrow, hsel⟩ := encodesInRow i
  exact ⟨hmem, hrow.trans hsrc, hsel⟩

/-- A mask acts on each field. -/
theorem wordOf_and (op op' : BitVec 4) (p p' : BitVec 1) (q q' : BitVec 2) (z z' : Bool) (imm imm' : Byte) :
    wordOf op p q z imm &&& wordOf op' p' q' z' imm' =
      wordOf (op &&& op') (p &&& p') (q &&& q') (z && z') (imm &&& imm') := by
  have hz : BitVec.ofBool z &&& BitVec.ofBool z' = BitVec.ofBool (z && z') := by cases z <;> cases z' <;> rfl
  rw [wordOf, wordOf, wordOf, ← hz, ← BitVec.and_append, ← BitVec.and_append, ← BitVec.and_append]
  exact BitVec.and_append

theorem wordOf_inj {op op' : BitVec 4} {p p' : BitVec 1} {q q' : BitVec 2} {z z' : Bool} {imm imm' : Byte} :
    wordOf op p q z imm = wordOf op' p' q' z' imm' ↔ op = op' ∧ p = p' ∧ q = q' ∧ z = z' ∧ imm = imm' := by
  refine ⟨fun h => ?_, fun ⟨hop, hp, hq, hz, himm⟩ => by rw [hop, hp, hq, hz, himm]⟩
  exact ⟨by simpa using congrArg fieldOp h, by simpa using congrArg fieldP h, by simpa using congrArg fieldQ h,
    by simpa using congrArg fieldZ h, by simpa using congrArg fieldImm h⟩

/-- The fields of a word that selects a row, from the fields of the row's mask and pattern. -/
theorem selectedBy_wordOf {name : String} {src : Source} {mask pattern : Word} (cw : Word) :
    (OpcodeRow.mk name src mask pattern).selectedBy cw = true ↔
      fieldOp cw &&& fieldOp mask = fieldOp pattern ∧ fieldP cw &&& fieldP mask = fieldP pattern ∧
      fieldQ cw &&& fieldQ mask = fieldQ pattern ∧ (fieldZ cw && fieldZ mask) = fieldZ pattern ∧
      fieldImm cw &&& fieldImm mask = fieldImm pattern := by
  rw [OpcodeRow.selectedBy, beq_iff_eq, ← wordOf_inj, ← wordOf_and, wordOf_fields, wordOf_fields, wordOf_fields]

theorem bitVec1_and_ones (x : BitVec 1) : x &&& 1#1 = x := BitVec.and_allOnes

theorem bitVec2_and_ones (x : BitVec 2) : x &&& 3#2 = x := BitVec.and_allOnes

theorem bitVec4_and_ones (x : BitVec 4) : x &&& 15#4 = x := BitVec.and_allOnes

theorem bitVec8_and_ones (x : BitVec 8) : x &&& 255#8 = x := BitVec.and_allOnes

theorem decode_of_fields {i : Instr} {w : Word} (hsrc : i.source = .commandPort) (h : fieldsWord i = w) :
    decode w = .instr i := h ▸ decode_fieldsWord i hsrc

theorem decode_of_selectedBy {w : Word} {r : OpcodeRow} (hr : r ∈ opcodeRows) (hsrc : r.source = .commandPort)
    (hsel : r.selectedBy w = true) : ∃ i, decode w = .instr i ∧ i.row = r := by
  obtain ⟨op, p, q, z, imm, rfl⟩ := exists_wordOf w
  simp only [opcodeRows, List.mem_cons, List.not_mem_nil, or_false] at hr
  rcases hr with rfl | rfl | rfl | rfl | rfl | rfl | rfl | rfl | rfl | rfl | rfl | rfl | rfl | rfl
  all_goals
    simp only [selectedBy_wordOf, fieldOp_wordOf, fieldP_wordOf, fieldQ_wordOf, fieldZ_wordOf, fieldImm_wordOf] at hsel
    simp only [fieldOp, fieldP, fieldQ, fieldZ, fieldImm, BitVec.reduceExtractLsb', BitVec.reduceGetLsb,
      bitVec1_and_ones, bitVec2_and_ones, bitVec4_and_ones, bitVec8_and_ones, Bool.and_true] at hsel
    obtain ⟨rfl, hp, hq, rfl, himm⟩ := hsel
  · exact ⟨.rbInsert (portOf p) (queueOf q) imm, decode_of_fields rfl (by simp [fieldsWord]), rfl⟩
  · exact ⟨.rbRemove (portOf p) (queueOf q), decode_of_fields rfl (by simp [fieldsWord, himm]), rfl⟩
  · exact ⟨.rbPeek (portOf p) (queueOf q), decode_of_fields rfl (by simp [fieldsWord, himm]), rfl⟩
  · exact ⟨.rbPushback (portOf p) (queueOf q) imm, decode_of_fields rfl (by simp [fieldsWord]), rfl⟩
  · exact ⟨.irqSend imm, decode_of_fields rfl (by simp [fieldsWord, hp, hq]), rfl⟩
  · exact ⟨.stSend imm, decode_of_fields rfl (by simp [fieldsWord, hp, hq]), rfl⟩
  · exact ⟨.stRecv, decode_of_fields rfl (by simp [fieldsWord, hp, hq, himm]), rfl⟩
  · exact ⟨.tmoService, decode_of_fields rfl (by simp [fieldsWord, hp, hq, himm]), rfl⟩
  · exact ⟨.csEnter, decode_of_fields rfl (by simp [fieldsWord, hp, hq, himm]), rfl⟩
  · exact ⟨.csExit, decode_of_fields rfl (by simp [fieldsWord, hp, hq, himm]), rfl⟩
  · exact ⟨.relayStep, decode_of_fields rfl (by simp [fieldsWord, hp, hq, himm]), rfl⟩
  · exact ⟨.regRead imm, decode_of_fields rfl (by simp [fieldsWord, hp, hq]), rfl⟩
  · cases hsrc
  · cases hsrc

/-- A word that selects no command row has no meaning: what it decoded to would have a row. -/
theorem decode_of_not_selectedBy {w : Word}
    (h : ∀ r ∈ opcodeRows, r.source = .commandPort → r.selectedBy w = false) : ∃ why, decode w = .illegal why := by
  cases hdec : decode w with
  | illegal why => exact ⟨why, rfl⟩
  | instr i =>
    obtain ⟨hmem, hsrc, hsel⟩ := row_of_decode hdec
    rw [h _ hmem hsrc] at hsel
    cases hsel

/-- Settles O19: each command row's words decode to that row's instruction, and no others do. -/
theorem decodeFollowsOpcodeMap : Obligations.DecodeFollowsOpcodeMap :=
  ⟨fun _ _ => row_of_decode, fun _ _ => decode_of_selectedBy, fun _ => decode_of_not_selectedBy⟩

/-- Settles O20: seven closed words, one of each family. -/
theorem familyWordsDecode : Obligations.FamilyWordsDecode := by
  refine ⟨?_, ?_, ?_, ?_, ?_, ?_, ?_⟩ <;> decide

end Sys2Proof
end

/-! ## Proofs: steps, the delivery of words, RES (10_state.md R21, R43, 30_encoding.md R86, R90, 60_exceptions.md R237) -/

section

namespace Sys2Proof.Machine

/-! ### RES (10_state.md R21) -/

@[simp] theorem resStatus_packRes (r : CmdResult) : resStatus (packRes r) = statusCode r.status := by
  refine BitVec.eq_of_getLsbD_eq fun i hi => ?_
  simp [resStatus, packRes_getLsbD, hi, show ¬ 28 + i < 16 by omega, show ¬ 28 + i < 24 by omega,
    show ¬ 28 + i < 25 by omega]

@[simp] theorem resNv_packRes (r : CmdResult) : resNv (packRes r) = r.nv := packRes_getLsbD r 24

@[simp] theorem resValue_packRes (r : CmdResult) : resValue (packRes r) = r.value := by
  refine BitVec.eq_of_getLsbD_eq fun i hi => ?_
  simp [resValue, packRes_getLsbD, hi]

theorem packRes_gap_high (r : CmdResult) : (packRes r).extractLsb' 25 3 = 0 := by
  refine BitVec.eq_of_getLsbD_eq fun i hi => ?_
  simp [packRes_getLsbD, show ¬ 25 + i < 16 by omega, show ¬ 25 + i < 24 by omega, show 25 + i < 28 by omega]

theorem packRes_gap_low (r : CmdResult) : (packRes r).extractLsb' 16 8 = 0 := by
  refine BitVec.eq_of_getLsbD_eq fun i hi => ?_
  simp [packRes_getLsbD, show 16 + i < 24 by omega]

/-- Settles O22: the three fields read back, and the two gaps are 0. -/
theorem resultLayout : Obligations.ResultLayout := fun _ _ _ _ =>
  ⟨resStatus_packRes _, resNv_packRes _, resValue_packRes _, packRes_gap_high _, packRes_gap_low _⟩

/-- A value with status OK is RES itself. -/
theorem packRes_ok_value (w : Word) : packRes ⟨.ok, false, w⟩ = w.setWidth 32 := by
  refine BitVec.eq_of_getLsbD_eq fun i hi => ?_
  rw [packRes_getLsbD, BitVec.getLsbD_setWidth]
  by_cases hv : i < 16
  · simp [hv, hi]
  · simp [hv, statusCode, BitVec.getLsbD_of_ge w i (by omega)]

/-! ### A turn of CTRL -/

theorem ctrlTurn_of_decode {s : State} {w : Word} {rest : List Word} {i : Instr} (hc : s.cmds = w :: rest)
    (hdec : decode w = .instr i) : ctrlTurn s = exec i { s with cmds := rest } := by
  simp [ctrlTurn, hc, ctrlWord, hdec]

theorem ctrlTurn_of_illegal {s : State} {w : Word} {rest : List Word} {why : DecodeError} (hc : s.cmds = w :: rest)
    (hdec : decode w = .illegal why) : ctrlTurn s = .next { s with cmds := rest, res := 0xF1000000 } := by
  simp only [ctrlTurn, hc, ctrlWord, hdec]
  rfl

theorem step_of_ctrl {s : State} {sch : List Turn} (h : s.sched = .ctrl :: sch) :
    step s = ctrlTurn { s with sched := sch } := by
  simp [step, h]

theorem step_of_nil {s : State} (h : s.sched = []) (he : edgeEnabled s = false) : step s = ctrlTurn s := by
  simp [step, h, he]

/-- Settles O14: CTRL's turn takes the word, and the word's instruction runs. -/
theorem stepRunsDecodedCommand : Obligations.StepRunsDecodedCommand := by
  intro s w rest i hc hdec
  refine ⟨fun sch hs => ?_, fun hs he => ?_⟩
  · rw [step_of_ctrl hs, ctrlTurn_of_decode (s := { s with sched := sch }) hc hdec]
  · rw [step_of_nil hs he, ctrlTurn_of_decode hc hdec]

theorem tableWord_of_command {i : Instr} (h : i.source = .commandPort) :
    tableWord (encode i) = (.commandPort, .instr i) := by
  rw [tableWord, decode_eq_instr_iff.mpr ⟨rfl, h⟩]

/-- Settles O16: the word delivered is a command's, taken at CTRL's turn, or an event's, whose agent has the turn. -/
theorem fetchWordIsRunNext : Obligations.FetchWordIsRunNext := by
  refine ⟨fun s i hsrc => ?_, fun s => rfl, fun s => rfl⟩
  have hfetch : s.withFetchWord 16 (encode i).toNat =
      { s with cmds := encode i :: s.cmds, sched := .ctrl :: s.sched } := by
    rw [State.withFetchWord, BitVec.ofNat_toNat, BitVec.setWidth_eq, tableWord_of_command hsrc]
  rw [hfetch, step_of_ctrl rfl, ctrlTurn_of_decode rfl (decode_eq_instr_iff.mpr ⟨rfl, hsrc⟩)]

theorem regValue_eq_none {n : Byte} (s : State)
    (h : n.toNat ∉ [0x00, 0x01, 0x02, 0x03, 0x04, 0x08, 0x09, 0x0A, 0x0B, 0x0C, 0x10,
      0x20, 0x21, 0x22, 0x23, 0x24, 0x25, 0x26, 0x27]) : regValue n s = none := by
  simp only [List.mem_cons, List.not_mem_nil, or_false, not_or] at h
  unfold regValue
  split <;> simp_all

/-- Settles O21: a word of no row decodes as illegal, and a number outside the table has no value. -/
theorem illegalChangesOnlyRes : Obligations.IllegalChangesOnlyRes := by
  refine ⟨fun s w rest sch hw hc => ?_, fun s n hn => ?_⟩
  · obtain ⟨why, hdec⟩ := decode_of_not_selectedBy hw
    refine ⟨fun hs => ?_, fun hs he => ?_⟩
    · rw [step_of_ctrl hs, ctrlTurn_of_illegal (s := { s with sched := sch }) hc hdec]
    · rw [step_of_nil hs he, ctrlTurn_of_illegal hc hdec]
  · rw [exec_eq, after, regValue_eq_none s hn]
    rfl

/-! ### Every agent answers (60_exceptions.md R230) -/

theorem exists_ctrlTurn (s : State) : ∃ t, ctrlTurn s = .next t := by
  unfold ctrlTurn
  split
  · exact ⟨_, rfl⟩
  · unfold ctrlWord
    split
    · exact ⟨_, exec_eq _ _⟩
    · exact ⟨_, rfl⟩

theorem exists_step (s : State) : ∃ t, step s = .next t := by
  unfold step
  split
  · split
    · exact ⟨_, exec_eq _ _⟩
    · exact exists_ctrlTurn _
  · exact exists_ctrlTurn _
  · unfold stepEdge
    split
    · exact ⟨_, exec_eq _ _⟩
    · exact ⟨_, rfl⟩
  · exact ⟨_, exec_eq _ _⟩
  · exact ⟨_, rfl⟩
  · exact ⟨_, rfl⟩

/-- Settles O5: every instruction has its meaning on every state, and every turn is an instruction, a move of the
environment, or nothing. -/
theorem nothingStopsAnyAgent : Obligations.NothingStopsAnyAgent :=
  ⟨fun i s => ⟨_, exec_eq i s⟩, exists_step, ⟨fun f => nomatch f⟩⟩

end Sys2Proof.Machine
end

/-! ## Proofs: the push-back and the ring as a FIFO (40_ring_buffer.md R104, R109) -/

section

namespace Sys2Proof.Machine

/-! ### RES is no queue -/

@[simp] theorem getQueue_writeRes (p : Port) (q : QueueId) (r : CmdResult) (s : State) :
    getQueue p q (writeRes r s) = getQueue p q s := by cases p <;> rfl

@[simp] theorem fifo_writeRes (p : Port) (q : QueueId) (r : CmdResult) (s : State) :
    fifo p q (writeRes r s) = fifo p q s := by simp [fifo]

/-! ### The push-back as a command -/

theorem exec_rbPushback_of_eq {p : Port} {q : QueueId} {v : Byte} {s t : State} {e : Status}
    (h : rbPushBack s.params p q v s = (e, t)) :
    exec (.rbPushback p q v) s = .next { t with res := packRes ⟨e, true, 0⟩ } := by
  rw [exec_eq, after, h, writeRes]

/-- Settles O26, by the two cases of R104: the queue is full, or the byte is the new head. -/
theorem pushBackPutsHeadOrIsFull : Obligations.PushBackPutsHeadOrIsFull := by
  intro p q v s hwf
  rcases rbPushBack_spec rfl p q v hwf with ⟨hfull, hop⟩ | ⟨hroom, r, hop, hr, hseq⟩
  · refine ⟨fun _ => ?_, fun hne => absurd hfull hne⟩
    rw [exec_rbPushback_of_eq hop, packRes_full]
  · refine ⟨fun hfull => absurd hfull hroom.ne, fun _ => ⟨r, hr, hseq, ?_⟩⟩
    rw [exec_rbPushback_of_eq hop, packRes_ok_noValue]

/-- RB_REMOVE of a queue with a head, as it shows in the sequence (R102). -/
theorem fifo_of_exec_rbRemove {p : Port} {q : QueueId} {v : Byte} {l : List Byte} {s t : State}
    (hwf : (getQueue p q s).wf s.params.rbCap = true) (hhead : fifo p q s = v :: l)
    (h : exec (.rbRemove p q) s = .next t) :
    t.params = s.params ∧ (getQueue p q t).wf t.params.rbCap = true ∧ fifo p q t = l ∧
      l.length < t.params.rbCap ∧ t.res = v.setWidth 32 := by
  rcases rbRemove_spec rfl p q hwf with ⟨hnil, -⟩ | ⟨v', l', r, hcons, hop, hr, hseq, hroom⟩
  · exact absurd (hnil.symm.trans hhead) (List.cons_ne_nil v l).symm
  · obtain ⟨rfl, rfl⟩ := List.cons.inj (hcons.symm.trans hhead)
    obtain rfl := exec_next_iff.mp h
    rw [after, hop]
    refine ⟨by simp, by simpa using hr, by simpa using hseq, ?_, packRes_byteOrEmpty_some v'⟩
    rw [← hseq, Ring.seq_length, writeRes_params, setQueue_params]
    exact hroom

/-- RB_PUSHBACK on a queue with room, as it shows in the sequence (R104). -/
theorem fifo_of_exec_rbPushback {p : Port} {q : QueueId} {v : Byte} {s t : State}
    (hwf : (getQueue p q s).wf s.params.rbCap = true) (hroom : (fifo p q s).length ≠ s.params.rbCap)
    (h : exec (.rbPushback p q v) s = .next t) :
    t.params = s.params ∧ (getQueue p q t).wf t.params.rbCap = true ∧ fifo p q t = v :: fifo p q s := by
  rcases rbPushBack_spec rfl p q v hwf with ⟨hfull, -⟩ | ⟨-, r, hop, hr, hseq⟩
  · exact absurd hfull hroom
  · obtain rfl := exec_next_iff.mp h
    rw [after, hop]
    exact ⟨by simp, by simpa using hr, by simpa using hseq⟩

/-- Settles O27: a remove leaves room, so the push-back after it is one of the two that succeed. -/
theorem pushBackUndoesRemove : Obligations.PushBackUndoesRemove := by
  intro p q v l s t u hwf
  refine ⟨fun hhead hremove hback => ?_, fun hroom hback hremove => ?_⟩
  · obtain ⟨-, hwf', hl, hlt, -⟩ := fifo_of_exec_rbRemove hwf hhead hremove
    obtain ⟨-, -, hu⟩ := fifo_of_exec_rbPushback hwf' (by rw [hl]; exact hlt.ne) hback
    rw [hu, hl, hhead]
  · obtain ⟨-, hwf', ht⟩ := fifo_of_exec_rbPushback hwf hroom hback
    obtain ⟨-, -, hu, -, hres⟩ := fifo_of_exec_rbRemove hwf' ht hremove
    exact ⟨hu, hres⟩

/-! ### The ring as a FIFO (R109) -/

/-- Inserting a list that fits appends it. -/
theorem Ring.foldlM_insert {cap : Nat} : ∀ (vs : List Byte) (r : Ring), r.wf cap = true → r.count + vs.length ≤ cap →
    ∃ r', vs.foldlM (fun x v => x.insert cap v) r = some r' ∧ r'.wf cap = true ∧ r'.seq cap = r.seq cap ++ vs := by
  intro vs
  induction vs with
  | nil => intro r hr _; exact ⟨r, rfl, hr, by simp⟩
  | cons v vs ih =>
    intro r hr hfit
    rw [List.length_cons] at hfit
    rcases Ring.insert_spec v hr with ⟨hfull, -⟩ | ⟨-, r', hop, hr', hseq⟩
    · omega
    · have hcount : r'.count = r.count + 1 := by
        rw [← Ring.seq_length cap r', hseq]; simp
      obtain ⟨full, hfold, hwf, hfull⟩ := ih r' hr' (by omega)
      exact ⟨full, by simp [hop, hfold], hwf, by simp [hfull, hseq]⟩

/-- Removing as many bytes as a ring holds gives its sequence, oldest first, and empties it. -/
theorem Ring.foldlM_remove {cap : Nat} : ∀ (vs : List Byte) (r : Ring), r.wf cap = true → r.seq cap = vs →
    ∃ r', vs.foldlM (fun x v => (x.remove cap).bind (fun y => if y.1 = v then some y.2 else none)) r = some r' ∧
      r'.count = 0 := by
  intro vs
  induction vs with
  | nil => intro r _ hseq; exact ⟨r, rfl, Ring.seq_eq_nil.mp hseq⟩
  | cons v vs ih =>
    intro r hr hseq
    rcases Ring.remove_spec hr with ⟨hnil, -⟩ | ⟨v', l, r', hcons, hop, hr', hseq', -⟩
    · exact absurd (hnil.symm.trans hseq) (List.cons_ne_nil v vs).symm
    · obtain ⟨rfl, rfl⟩ := List.cons.inj (hcons.symm.trans hseq)
      obtain ⟨empty, hfold, hempty⟩ := ih r' hr' hseq'
      exact ⟨empty, by simp [hop, hfold], hempty⟩

/-- Settles O28: the inserts build the list behind an empty sequence, the removes take it off again. -/
theorem ringIsFifo : Obligations.RingIsFifo := by
  intro cap vs r hr hempty hfit
  obtain ⟨full, hinsert, hfull, hseq⟩ := Ring.foldlM_insert vs r hr (by omega)
  rw [Ring.seq_eq_nil.mpr hempty, List.nil_append] at hseq
  obtain ⟨empty, hremove, hcount⟩ := Ring.foldlM_remove vs full hfull hseq
  exact ⟨full, empty, hinsert, hseq, hremove, hcount⟩

end Sys2Proof.Machine
end

/-! ## Proofs: events, critical sections, diagnostics (10_state.md R38, 44_supervisor.md R200 to R205) -/

section

namespace Sys2Proof.Machine

/-- Settles O49: each is one field's write, with RES OK where it is a command. -/
theorem tickAndCriticalSections : Obligations.TickAndCriticalSections := by
  intro s
  refine ⟨rfl, ?_, ?_⟩ <;> rw [exec_eq, after, packRes_ok_noValue.symm] <;> rfl

/-- The bits of a register of four flags (R38). -/
theorem nibble_getLsbD (b0 b1 b2 b3 : Bool) :
    (nibble b0 b1 b2 b3).getLsbD 0 = b0 ∧ (nibble b0 b1 b2 b3).getLsbD 1 = b1 ∧
    (nibble b0 b1 b2 b3).getLsbD 2 = b2 ∧ (nibble b0 b1 b2 b3).getLsbD 3 = b3 ∧ (nibble b0 b1 b2 b3).toNat < 16 := by
  revert b0 b1 b2 b3
  decide

theorem exec_regRead_of_eq {n : Byte} {w : Word} {s : State} (h : regValue n s = some w) :
    exec (.regRead n) s = .next { s with res := w.setWidth 32 } := by
  rw [exec_eq, after, h, regResult, writeRes, packRes_ok_value]

/-- A register of four flags, as REG_READ returns it. -/
theorem exec_regRead_nibble {n : Byte} {b0 b1 b2 b3 : Bool} {s : State} (h : regValue n s = some (nibble b0 b1 b2 b3)) :
    ∃ v, exec (.regRead n) s = .next { s with res := v } ∧ v.toNat < 16 ∧ v.getLsbD 0 = b0 ∧ v.getLsbD 1 = b1 ∧
      v.getLsbD 2 = b2 ∧ v.getLsbD 3 = b3 := by
  obtain ⟨h0, h1, h2, h3, hlt⟩ := nibble_getLsbD b0 b1 b2 b3
  refine ⟨_, exec_regRead_of_eq h, ?_, ?_, ?_, ?_, ?_⟩
  · rw [BitVec.toNat_setWidth]
    exact (Nat.mod_le _ _).trans_lt hlt
  all_goals rw [BitVec.getLsbD_setWidth]; simpa

/-- With the bounds of log 20 a count fits the 5 bits of its register. -/
theorem queueCount_eq {p : Port} {q : QueueId} {s : State} (hL : s.params.wellFormed = true)
    (h : (getQueue p q s).wf s.params.rbCap = true) :
    (queueCount p q s).setWidth 32 = BitVec.ofNat 32 (fifo p q s).length := by
  simp only [Literals.wellFormed, Bool.and_eq_true, decide_eq_true_eq] at hL
  have hcount := (Ring.wf_iff.mp h).2.2
  have hcap := hL.1.1.2
  refine BitVec.eq_of_toNat_eq ?_
  simp only [queueCount, fifo, Ring.seq_length, BitVec.toNat_setWidth, BitVec.toNat_ofNat]
  omega

/-- Settles O52: the table of R38, register by register at each port. -/
theorem regReadReturnsRegister : Obligations.RegReadReturnsRegister := by
  intro s p base hbase
  subst hbase
  refine ⟨?recvShift, ?sendShift, ?busTimeout, ?line, ?lastErr, exec_regRead_nibble rfl, ?counts⟩
  case recvShift | sendShift => exact exec_regRead_of_eq (by cases p <;> rfl)
  case busTimeout =>
    rw [exec_regRead_of_eq (w := (getPort p s).busTimeout.setWidth 16) (by cases p <;> rfl),
      BitVec.setWidth_setWidth (by decide)]
  case line => exact exec_regRead_nibble (by cases p <;> rfl)
  case lastErr =>
    rw [exec_regRead_of_eq (w := (getPort p s).lastErr.setWidth 16) (by cases p <;> rfl),
      BitVec.setWidth_setWidth (by decide)]
  case counts =>
    intro q k hk hL hq
    have hvalue : regValue (0x20 + (if p = .pd then 0 else 4) + k) s = some (queueCount p q s) := by
      subst hk
      cases p <;> cases q <;> rfl
    rw [exec_regRead_of_eq hvalue, queueCount_eq hL hq]

end Sys2Proof.Machine
end

/-! ## Proofs: the frame layouts (41_frame_codec.md R127 to R131) -/

section

namespace Sys2Proof.Machine

theorem bitAt_getLsbD (b : Bool) (k : Nat) {i : Nat} (hi : i < 16) : (bitAt b k).getLsbD i = (decide (i = k) && b) := by
  rw [bitAt, BitVec.getLsbD_shiftLeft, BitVec.getLsbD_setWidth, BitVec.getLsbD_ofBool]
  grind

theorem irqPattern_getLsbD (d : Byte) {i : Nat} (hi : i < 16) : (irqPattern d).getLsbD i =
    if i < 8 then d.getLsbD i else if i = 8 then oddParity d else decide (i = 9 ∨ i = 10) := by
  simp only [irqPattern, BitVec.getLsbD_or, bitAt_getLsbD _ _ hi, BitVec.getLsbD_setWidth]
  by_cases h : i < 8
  · simp [h, hi, show i ≠ 8 by omega, show i ≠ 9 by omega, show i ≠ 10 by omega]
  · have hd : d.getLsbD i = false := BitVec.getLsbD_of_ge d i (by omega)
    by_cases h8 : i = 8
    · subst h8; simp
    · simp [h, h8, hd]

theorem irqPattern_lt (d : Byte) : (irqPattern d).toNat < 0x800 := by
  refine Nat.lt_pow_two_of_testBit (n := 11) _ fun i hi => ?_
  rw [BitVec.testBit_toNat]
  rcases Nat.lt_or_ge i 16 with h | h
  · rw [irqPattern_getLsbD d h]
    simp [show ¬ i < 8 by omega, show i ≠ 8 by omega, show i ≠ 9 by omega, show i ≠ 10 by omega]
  · exact BitVec.getLsbD_of_ge _ _ h

theorem irqFrame_getLsbD (d : Byte) {i : Nat} (hi : i < 16) : (irqFrame d).getLsbD i =
    if i < 6 then decide (i = 0) else if i < 14 then d.getLsbD (i - 6) else if i = 14 then oddParity d else true := by
  simp only [irqFrame, BitVec.getLsbD_or, bitAt_getLsbD _ _ hi, BitVec.getLsbD_shiftLeft, BitVec.getLsbD_setWidth]
  by_cases h6 : i < 6
  · simp [h6, show i ≠ 15 by omega, show i ≠ 14 by omega]
  · by_cases h14 : i < 14
    · simp [h6, h14, hi, show i ≠ 15 by omega, show i ≠ 14 by omega, show i ≠ 0 by omega, show i - 6 < 16 by omega]
    · by_cases h : i = 14
      · subst h; simp
      · obtain rfl : i = 15 := by omega
        simp

theorem stFrame_getLsbD (d : Byte) {i : Nat} (hi : i < 11) : (stFrame d).getLsbD i =
    if i = 0 then false else if i < 9 then d.getLsbD (i - 1) else if i = 9 then oddParity d else true := by
  have h : (stFrame d).getLsbD i =
    BitVec.getLsbD (w := 1 + 1 + 8 + 1) (1#1 ++ BitVec.ofBool (oddParity d) ++ d ++ 0#1) i := rfl
  rw [h, BitVec.getLsbD_append, BitVec.getLsbD_append, BitVec.getLsbD_append]
  grind

/-- Bit `i` of the E_ST frame is bit-time `i` (R127, R129). -/
theorem stFrame_wire (d : Byte) {k : Nat} (hk : k < 11) : some ((stFrame d).getLsbD k) = (wireFrame d)[k]? := by
  rw [stFrame_getLsbD d hk]
  interval_cases k <;> rfl

/-- Bit `i` of E_IRQ's pattern is bit-time `i + 1` (R127, R128). -/
theorem irqPattern_wire (d : Byte) {k : Nat} (hk : k < 10) :
    some ((irqPattern d).getLsbD k) = (wireFrame d)[k + 1]? := by
  rw [irqPattern_getLsbD d (by omega)]
  interval_cases k <;> rfl

theorem frameData_irqFrame (d : Byte) : frameData (irqFrame d) = d := by
  refine BitVec.eq_of_getLsbD_eq fun i hi => ?_
  rw [frameData, BitVec.getLsbD_extractLsb', irqFrame_getLsbD d (by omega)]
  simp [hi, show ¬ 6 + i < 6 by omega, show 6 + i < 14 by omega]

theorem frameGroup_irqFrame (d : Byte) : frameGroup (irqFrame d) = BitVec.ofBool (oddParity d) ++ d := by
  refine BitVec.eq_of_getLsbD_eq fun i hi => ?_
  rw [frameGroup, BitVec.getLsbD_extractLsb', irqFrame_getLsbD d (by omega), BitVec.getLsbD_append]
  by_cases h : i < 8
  · simp [hi, h, show 6 + i < 14 by omega]
  · obtain rfl : i = 8 := by omega
    simp

/-- Settles O30: each layout bit by bit, from the bits of the pattern, of the E_ST frame and of the completed frame. -/
theorem frameLayoutsAgreeWithWire : Obligations.FrameLayoutsAgreeWithWire := fun d =>
  ⟨fun _ hk => stFrame_wire d hk, fun _ hk => irqPattern_wire d hk, irqPattern_getLsbD d (by decide), irqPattern_lt d,
    frameData_irqFrame d, frameGroup_irqFrame d, irqFrame_getLsbD d (by decide), irqFrame_getLsbD d (by decide)⟩

end Sys2Proof.Machine
end

/-! ## Proofs: E_IRQ (42_irq_engine.md R140 to R153) -/

section

namespace Sys2Proof.Machine

/-! ### One edge (R143 to R149) -/

/-- PD after the entry of an edge event: the timeout reloaded (R143). -/
theorem edgeService_of_send {P : Params} {s : State} (h : s.pd.sendShift ≠ 0) : edgeService P s =
    { s with
      edgePend := false
      pd := { s.pd with
        busTimeout := P.tmoGuard
        outData := s.pd.sendShift.getLsbD 0
        sendShift := s.pd.sendShift >>> 1 }
      wtrace := s.wtrace ++ [.drive .pd .data (s.pd.sendShift.getLsbD 0)] } := by
  rw [edgeService_eq, if_pos h, edgeTransmit_eq]

/-- What an edge shifts `recv_shift` to (R146). -/
def edgeSample (s : State) : Word := recvNext (s.pd.outData && s.pd.extData) s.pd.recvShift

/-- An edge within a frame that is being received (R146). -/
theorem edgeService_of_recv {P : Params} {s : State} (h : s.pd.sendShift = 0) (hf : (edgeSample s).getLsbD 0 = false) :
    edgeService P s =
      { s with edgePend := false, pd := { s.pd with busTimeout := P.tmoGuard, recvShift := edgeSample s } } := by
  have hread : recvNext (readWire .pd .data { s with edgePend := false, pd := { s.pd with busTimeout := P.tmoGuard } })
    s.pd.recvShift = edgeSample s := rfl
  rw [edgeService_eq, if_neg (not_not.mpr h), edgeReceive, hread, hf]
  rfl

/-- The last edge of a frame that is being received: it is complete (R147). -/
theorem edgeService_of_complete {P : Params} {s : State} (h : s.pd.sendShift = 0)
    (hf : (edgeSample s).getLsbD 0 = true) : edgeService P s = deliverFrame P (edgeSample s)
      { s with edgePend := false, pd := { s.pd with busTimeout := P.tmoGuard, recvShift := 0 } } := by
  have hread : recvNext (readWire .pd .data { s with edgePend := false, pd := { s.pd with busTimeout := P.tmoGuard } })
    s.pd.recvShift = edgeSample s := rfl
  rw [edgeService_eq, if_neg (not_not.mpr h), edgeReceive, hread, hf]
  rfl

/-- Settles O34: the transmit path, with the entry's reload and clear. -/
theorem edgeShiftsOneBitOut : Obligations.EdgeShiftsOneBitOut := fun s h => by
  rw [exec_eq, after, edgeService_of_send h]

theorem deliverFrame_framing {P : Params} {f : Word} {s : State} (hstop : frameStop f = false) :
    deliverFrame P f s = setLastErr .pd .framing s := by simp [deliverFrame, hstop]

theorem deliverFrame_parity {P : Params} {f : Word} {s : State} (hstop : frameStop f = true)
    (hpar : parityOk (frameGroup f) = false) : deliverFrame P f s = setLastErr .pd .parity s := by
  simp [deliverFrame, hstop, hpar]

theorem deliverFrame_ok {P : Params} {f : Word} {s : State} (hP : s.params = P) (hstop : frameStop f = true)
    (hpar : parityOk (frameGroup f) = true) (hwf : s.pd.qIn.wf P.rbCap = true) :
    ((fifo .pd .inq s).length = P.rbCap ∧ deliverFrame P f s = setLastErr .pd .full s) ∨
    ((fifo .pd .inq s).length < P.rbCap ∧ ∃ r, r.wf P.rbCap = true ∧
      r.seq P.rbCap = fifo .pd .inq s ++ [frameData f] ∧ deliverFrame P f s = setQueue .pd .inq r s) := by
  rcases rbInsert_spec hP .pd .inq (frameData f) hwf with ⟨hfull, hop⟩ | ⟨hroom, r, hop, hr, hseq⟩
  · exact .inl ⟨hfull, by simp [deliverFrame, hstop, hpar, hop]⟩
  · exact .inr ⟨hroom, r, hr, hseq, by simp [deliverFrame, hstop, hpar, hop]⟩

theorem edgeSample_eq (s : State) : edgeSample s = ((if s.pd.recvShift = 0 then 0x800 else s.pd.recvShift) >>> 1) |||
    (if s.pd.outData && s.pd.extData then 0x8000 else 0) := by
  rw [edgeSample, recvNext, shiftIn]
  cases s.pd.outData && s.pd.extData <;> rfl

/-- Settles O35: the shift of R146, and the four fates of a complete frame. -/
theorem edgeShiftsOneBitIn : Obligations.EdgeShiftsOneBitIn := by
  intro s f x hsend hwf hf hx
  rw [← edgeSample_eq] at hf
  subst hf hx
  simp only [exec_eq, after]
  refine ⟨fun hlow => ?_, fun hlow hstop => ?_, fun hlow hstop hpar => ?_, fun hlow hstop hpar => ?_⟩
  · rw [edgeService_of_recv hsend hlow]
  · rw [edgeService_of_complete hsend hlow, deliverFrame_framing hstop]
    rfl
  · have heven : parityOk (frameGroup (edgeSample s)) = false := by
      rw [parityOk, frameGroup, hpar]; rfl
    rw [edgeService_of_complete hsend hlow, deliverFrame_parity hstop heven]
    rfl
  · have hodd : parityOk (frameGroup (edgeSample s)) = true := by
      rw [parityOk, frameGroup, hpar]; rfl
    rw [edgeService_of_complete hsend hlow]
    rcases deliverFrame_ok (P := s.params)
      (s := { s with edgePend := false, pd := { s.pd with busTimeout := s.params.tmoGuard, recvShift := 0 } }) rfl hstop
      hodd hwf with ⟨hfull, hop⟩ | ⟨hroom, r, hr, hseq, hop⟩
    · exact ⟨fun _ => by rw [hop]; rfl, fun hne => absurd hfull hne⟩
    · exact ⟨fun hfull => absurd hfull hroom.ne, fun _ => ⟨r, hr, hseq, by rw [hop]; rfl⟩⟩

/-- Settles O36: the frame of an edge service. -/
theorem edgeServiceLeavesControlAlone : Obligations.EdgeServiceLeavesControlAlone := by
  intro s t h
  obtain ⟨r, v, o, e, q, w, hop, -⟩ := edgeService_frame s.params s
  obtain rfl := exec_next_iff.mp h
  rw [after, hop]
  exact ⟨rfl, rfl⟩

/-! ### IRQ_SEND (R150 to R153) -/

theorem exec_irqSend_of_eq {c : Byte} {s t : State} {r : CmdResult} (h : irqSend s.params c s = (t, r)) :
    exec (.irqSend c) s = .next (writeRes r t) := by
  rw [exec_eq, after, h]

theorem irqSend_refused {P : Params} (c : Byte) {s : State} (h : s.pd.recvShift ≠ 0 ∨ s.edgePend = true) :
    irqSend P c s = (s, ⟨.refused, true, 0⟩) := by
  rw [irqSend, if_pos h]

theorem irqSend_busy {P : Params} (c : Byte) {s : State} (hr : s.pd.recvShift = 0) (he : s.edgePend = false)
    (hs : s.pd.sendShift ≠ 0) : irqSend P c s = (s, ⟨.busy, true, 0⟩) := by
  rw [irqSend, if_neg (by simp [hr, he]), if_pos hs]

theorem irqSend_armed {P : Params} (c : Byte) {s : State} (hr : s.pd.recvShift = 0) (he : s.edgePend = false)
    (hs : s.pd.sendShift = 0) : irqSend P c s = (armingSequence P (irqLoaded P c s), ⟨.ok, true, 0⟩) := by
  rw [irqSend, if_neg (by simp [hr, he]), if_neg (not_not.mpr hs)]
  rfl

/-- Settles O40, by the first two cases of R150. -/
theorem irqSendRefusedOrBusy : Obligations.IrqSendRefusedOrBusy := by
  refine fun c s => ⟨fun h => ?_, fun hr he hs => ?_⟩
  · rw [exec_irqSend_of_eq (irqSend_refused c h), writeRes]
    rfl
  · rw [exec_irqSend_of_eq (irqSend_busy c hr he hs), writeRes]
    rfl

/-- Settles O39: the arming sequence on the loaded PD. -/
theorem irqSendArmsFrame : Obligations.IrqSendArmsFrame := by
  intro c s hr hs he
  obtain ⟨a, b, x, y, f, l, hop⟩ := armingSequence_eq s.params (irqLoaded s.params c s)
  refine ⟨_, exec_irqSend_of_eq (irqSend_armed c hr he hs), ?_⟩
  rw [hop]
  exact ⟨by rw [writeRes_res, packRes_ok_noValue], rfl, rfl, he, rfl, rfl, rfl, rfl, rfl, rfl⟩

/-! ### The latch (R140, R141) -/

theorem step_of_envP {s : State} {c d : Bool} {sch : List Turn} (h : s.sched = .envP c d :: sch) :
    step s = .next (envPTurn c d { s with sched := sch }) := by
  simp [step, h]

theorem step_of_envH {s : State} {c d : Bool} {sch : List Turn} (h : s.sched = .envH c d :: sch) :
    step s = .next (envHTurn c d { s with sched := sch }) := by
  simp [step, h]

theorem qualifiedFall_iff {c : Bool} {s : State} :
    qualifiedFall c s = true ↔ s.pd.extClk = true ∧ c = false ∧ s.pd.outClk = true := by
  simp only [qualifiedFall, Bool.and_eq_true, Bool.not_eq_true']
  tauto

/-- A turn of ENV_P that clocks an edge. -/
theorem envPTurn_of_fall {c d : Bool} {s : State} (h : qualifiedFall c s = true) : envPTurn c d s =
    { s with pd := { s.pd with extClk := c, extData := d }, edgePend := true, edgeOvr := s.edgeOvr || s.edgePend } := by
  cases hp : s.edgePend <;> simp [envPTurn, h, latchEdge, hp]

/-- A turn of ENV_P that clocks none. -/
theorem envPTurn_of_not_fall {c d : Bool} {s : State} (h : qualifiedFall c s = false) : envPTurn c d s =
    { s with pd := { s.pd with extClk := c, extData := d } } := by
  simp [envPTurn, h]

/-- Settles O32: an environment's turn is one of a qualified fall or of none. -/
theorem qualifiedFallIsLatched : Obligations.QualifiedFallIsLatched := by
  refine ⟨fun s c d sch hs => ⟨_, step_of_envP hs, ?_⟩, fun s c d sch hs => step_of_envH hs, fun s => ⟨rfl, rfl⟩⟩
  rcases hq : qualifiedFall c { s with sched := sch } with - | -
  · rw [envPTurn_of_not_fall hq]
    have hno : ¬(s.pd.extClk = true ∧ c = false ∧ s.pd.outClk = true) := fun h =>
      Bool.false_ne_true (hq.symm.trans (qualifiedFall_iff.mpr h))
    exact ⟨rfl, fun h => absurd h hno, fun _ => ⟨rfl, rfl⟩⟩
  · rw [envPTurn_of_fall hq]
    obtain ⟨hext, hc, hout⟩ := qualifiedFall_iff.mp hq
    refine ⟨rfl, fun _ => ⟨rfl, rfl⟩, fun h => ?_⟩
    rcases h with h | h | h
    · exact absurd (h.symm.trans hext) Bool.false_ne_true
    · exact absurd (hc.symm.trans h) Bool.false_ne_true
    · exact absurd (h.symm.trans hout) Bool.false_ne_true

end Sys2Proof.Machine
end

/-! ## Proofs: what no instruction and no step changes (10_state.md R27, R30, R31, R33, R36, R37, R41) -/

section

namespace Sys2Proof.Machine

/-! ### What an instruction can do to the framed fields, said once -/

theorem setQueue_getQueue (p : Port) (q : QueueId) (s : State) : setQueue p q (getQueue p q s) s = s := by
  cases p <;> cases q <;> rfl

/-- A ring primitive writes at most its queue. -/
theorem rbInsert_state (P : Params) (p : Port) (q : QueueId) (v : Byte) (s : State) :
    ∃ r, (rbInsert P p q v s).2 = setQueue p q r s := by
  unfold rbInsert
  split
  · exact ⟨_, (setQueue_getQueue p q s).symm⟩
  · exact ⟨_, rfl⟩

theorem rbRemove_state (P : Params) (p : Port) (q : QueueId) (s : State) :
    ∃ r, (rbRemove P p q s).2 = setQueue p q r s := by
  unfold rbRemove
  split
  · exact ⟨_, (setQueue_getQueue p q s).symm⟩
  · exact ⟨_, rfl⟩

theorem rbPushBack_state (P : Params) (p : Port) (q : QueueId) (v : Byte) (s : State) :
    ∃ r, (rbPushBack P p q v s).2 = setQueue p q r s := by
  unfold rbPushBack
  split
  · exact ⟨_, (setQueue_getQueue p q s).symm⟩
  · exact ⟨_, rfl⟩

/-- The three commands that write a queue of their operands (20_memory.md R60). -/
def WritesQueue (i : Instr) : Prop :=
  (∃ p q v, i = .rbInsert p q v) ∨ (∃ p q, i = .rbRemove p q) ∨ (∃ p q v, i = .rbPushback p q v)

/-- An instruction is framed by `CmdFrame`, or it writes one queue, or IE, or it is the edge service. -/
theorem after_cases (i : Instr) (s : State) :
    CmdFrame s (after i s) ∨
    (WritesQueue i ∧ ∃ p q r x, after i s = writeRes x (setQueue p q r s)) ∨
    ((i = .csEnter ∨ i = .csExit) ∧ ∃ b x, after i s = writeRes x { s with ie := b }) ∨
    (i = .evEdge ∧ after i s = edgeService s.params s) := by
  cases i with
  | rbInsert p q v =>
    obtain ⟨r, h⟩ := rbInsert_state s.params p q v s
    exact .inr (.inl ⟨.inl ⟨p, q, v, rfl⟩, p, q, r, _, by rw [after, h]⟩)
  | rbRemove p q =>
    obtain ⟨r, h⟩ := rbRemove_state s.params p q s
    exact .inr (.inl ⟨.inr (.inl ⟨p, q, rfl⟩), p, q, r, _, by rw [after, h]⟩)
  | rbPushback p q v =>
    obtain ⟨r, h⟩ := rbPushBack_state s.params p q v s
    exact .inr (.inl ⟨.inr (.inr ⟨p, q, v, rfl⟩), p, q, r, _, by rw [after, h]⟩)
  | rbPeek p q => exact .inl (.writeRes _ s)
  | irqSend c => exact .inl ((CmdFrame.irqSend s.params c s).trans (.writeRes _ _))
  | stSend c => exact .inl (((CmdFrame.microKeeps s.params s).send c (.refl s)).trans (.writeRes _ _))
  | stRecv => exact .inl (((CmdFrame.microKeeps s.params s).recv (.refl s)).trans (.writeRes _ _))
  | tmoService => exact .inl ((CmdFrame.tmoService s).trans (.writeRes _ _))
  | csEnter => exact .inr (.inr (.inl ⟨.inl rfl, false, _, rfl⟩))
  | csExit => exact .inr (.inr (.inl ⟨.inr rfl, true, _, rfl⟩))
  | relayStep => exact .inl (((CmdFrame.relayKeeps s.params s).relay (.refl s)).trans (.writeRes _ _))
  | regRead n => exact .inl (.writeRes _ s)
  | evEdge => exact .inr (.inr (.inr ⟨rfl, rfl⟩))
  | evTick => exact .inl (OtherFrame.tick s).cmd

/-- Settles O6: outside the two CS commands an instruction is framed, writes a queue, or services an edge. -/
theorem onlyCriticalSectionCommandsWriteIE : Obligations.OnlyCriticalSectionCommandsWriteIE := by
  refine ⟨fun s t h => ?_, fun s t h => ?_, fun i s t hne hnx h => ?_⟩
  · rw [← exec_next_iff.mp h]; rfl
  · rw [← exec_next_iff.mp h]; rfl
  · obtain rfl := exec_next_iff.mp h
    rcases after_cases i s with hf | ⟨-, p, q, r, x, hop⟩ | ⟨hcs | hcs, -⟩ | ⟨-, hop⟩
    · exact hf.ie
    · rw [hop]; simp
    · exact absurd hcs hne
    · exact absurd hcs hnx
    · obtain ⟨r, v, o, e, q, w, hedge, -⟩ := edgeService_frame s.params s
      rw [hop, hedge]

/-- Settles O8: outside the RB commands an instruction is framed, writes IE, or services an edge. -/
theorem onlyRingCommandsWriteAuxQueues : Obligations.OnlyRingCommandsWriteAuxQueues := by
  intro i s t hins hrem hback h p
  obtain rfl := exec_next_iff.mp h
  rcases after_cases i s with hf | ⟨hw, -⟩ | ⟨-, b, x, hop⟩ | ⟨-, hop⟩
  · exact hf.aux p
  · rcases hw with ⟨p, q, v, hi⟩ | ⟨p, q, hi⟩ | ⟨p, q, v, hi⟩
    · exact absurd hi (hins p q v)
    · exact absurd hi (hrem p q)
    · exact absurd hi (hback p q v)
  · rw [hop]
    cases p <;> exact ⟨rfl, rfl⟩
  · obtain ⟨r, v, o, e, q, w, hedge, -⟩ := edgeService_frame s.params s
    rw [hop, hedge]
    cases p <;> exact ⟨rfl, rfl⟩

/-- Settles O11: no case of an instruction reaches PH's shift registers or timeout. -/
theorem phShiftRegistersNeverWritten : Obligations.PhShiftRegistersNeverWritten := by
  intro i s t h
  obtain rfl := exec_next_iff.mp h
  rcases after_cases i s with hf | ⟨-, p, q, r, x, hop⟩ | ⟨-, b, x, hop⟩ | ⟨-, hop⟩
  · exact hf.phReg
  · rw [hop]
    cases p <;> cases q <;> exact ⟨rfl, rfl, rfl⟩
  · rw [hop]
    exact ⟨rfl, rfl, rfl⟩
  · obtain ⟨r, v, o, e, q, w, hedge, -⟩ := edgeService_frame s.params s
    rw [hop, hedge]
    exact ⟨rfl, rfl, rfl⟩

/-! ### LOG (R36) -/

/-- No micro-step of an E_ST command writes LOG. -/
theorem microKeeps_log (P : Params) (l : List LogEvent) : MicroKeeps P (fun t => t.log = l) where
  yield s h := (yieldTurn_frame P s).log.trans h
  wait _ _ h := h
  drive _ _ _ h := by simpa using h
  st _ _ _ h := h
  err _ _ _ h := by simpa using h

theorem irqSend_log (P : Params) (c : Byte) (s : State) : (irqSend P c s).1.log = s.log := by
  rcases irqSend_split P c s with ⟨-, h⟩ | ⟨-, -, -, h⟩ | ⟨-, -, -, h⟩ <;> rw [h]
  obtain ⟨a, b, x, y, f, l, hop⟩ := armingSequence_eq P (irqLoaded P c s)
  rw [hop]
  simp [irqLoaded]

theorem tmoService_log (s : State) : (tmoService s).2.log = s.log := by
  rcases tmoService_split s with ⟨-, h⟩ | ⟨-, -, h⟩ | ⟨-, -, -, h⟩ | ⟨-, -, -, h⟩ <;> rw [h]
  rw [recovery_eq]

/-- Settles O9: the log of each instruction but RELAY_STEP, whose own log only grows. -/
theorem onlyRelayStepAppendsToLog : Obligations.OnlyRelayStepAppendsToLog := by
  refine ⟨fun i s t hne h => ?_, fun s t h => ?_⟩ <;> obtain rfl := exec_next_iff.mp h
  · cases i with
    | rbInsert p q v =>
      obtain ⟨r, hop⟩ := rbInsert_state s.params p q v s
      simp [after, hop]
    | rbRemove p q =>
      obtain ⟨r, hop⟩ := rbRemove_state s.params p q s
      simp [after, hop]
    | rbPushback p q v =>
      obtain ⟨r, hop⟩ := rbPushBack_state s.params p q v s
      simp [after, hop]
    | irqSend c => exact irqSend_log _ c s
    | stSend c => exact (microKeeps_log s.params s.log).send c rfl
    | stRecv => exact (microKeeps_log s.params s.log).recv rfl
    | tmoService => exact tmoService_log s
    | relayStep => exact absurd rfl hne
    | evEdge =>
      obtain ⟨r, v, o, e, q, w, hedge, -⟩ := edgeService_frame s.params s
      rw [after, hedge]
    | _ => rfl
  · rw [after, writeRes_log]
    exact ((CmdFrame.relayKeeps s.params s).relay (.refl s)).logs

/-! ### The external drivers (R27) -/

/-- No turn of the schedule is an environment's. -/
def NoEnv (l : List Turn) : Prop := ∀ u ∈ l, ∀ c d, u ≠ .envP c d ∧ u ≠ .envH c d

/-- The external drivers are `s`'s, and the schedule has no turn that could change them. -/
def ExtKept (s t : State) : Prop :=
  NoEnv t.sched ∧ t.pd.extClk = s.pd.extClk ∧ t.pd.extData = s.pd.extData ∧ t.ph.extClk = s.ph.extClk ∧
    t.ph.extData = s.ph.extData

theorem ExtKept.othersMove {s t : State} (h : ExtKept s t) (P : Params) (atEdge : Bool) :
    ExtKept s (othersMove P atEdge t.sched t) := by
  obtain ⟨hno, hext⟩ := h
  refine ⟨?_, ?_⟩
  · obtain ⟨k, hk⟩ := othersMove_sched P atEdge t.sched t
    rw [hk]
    exact fun u hu => hno u (List.mem_of_mem_drop hu)
  · refine othersMove_keeps (I := fun u => u.pd.extClk = s.pd.extClk ∧ u.pd.extData = s.pd.extData ∧
      u.ph.extClk = s.ph.extClk ∧ u.ph.extData = s.ph.extData) (fun _ _ h => h) ?_ (fun _ h => h) t.sched
      (fun u c d hm _ => absurd rfl (hno _ hm c d).1) (fun u c d hm _ => absurd rfl (hno _ hm c d).2) t hext
    intro u _ hu
    obtain ⟨r, v, o, e, q, w, hedge, -⟩ := edgeService_frame P u
    rw [hedge]
    exact hu

theorem ExtKept.setQueue {s t : State} (h : ExtKept s t) (p : Port) (q : QueueId) (r : Ring) :
    ExtKept s (setQueue p q r t) := by
  cases p <;> cases q <;> exact h

theorem ExtKept.drive {s t : State} (h : ExtKept s t) (p : Port) (w : Wire) (v : Bool) :
    ExtKept s (driveWire p w v t) := by
  cases p <;> cases w <;> exact h

theorem ExtKept.wait {s t : State} (h : ExtKept s t) (n : Nat) : ExtKept s (waitFor n t) := h

theorem ExtKept.writeRes {s t : State} (h : ExtKept s t) (r : CmdResult) : ExtKept s (writeRes r t) := h

theorem ExtKept.yieldInSend {s t : State} (h : ExtKept s t) (P : Params) : ExtKept s (yieldInSend P t) :=
  h.othersMove P false

theorem ExtKept.irqSend {s t : State} (h : ExtKept s t) (P : Params) (c : Byte) : ExtKept s (irqSend P c t).1 := by
  rcases irqSend_split P c t with ⟨-, hop⟩ | ⟨-, -, -, hop⟩ | ⟨-, -, -, hop⟩ <;> rw [hop]
  · exact h
  · exact h
  · have hl : ExtKept s (irqLoaded P c t) := h
    exact ((((hl.drive .pd .clk false).wait P.tInh).yieldInSend P).drive .pd .data false |>.wait P.tStart
      |>.yieldInSend P).drive .pd .clk true

theorem ExtKept.relayKeeps (P : Params) (s : State) : RelayKeeps P (ExtKept s) where
  yield t h := h.othersMove P true
  wait _ _ h := h
  drive w v _ h := h.drive .ph w v
  st _ _ _ h := h
  err _ _ _ h := h
  insertOut p v t h := by
    obtain ⟨r, hop⟩ := rbInsert_state P p .out v t
    rw [hop]; exact h.setQueue p .out r
  removeOut p t h := by
    obtain ⟨r, hop⟩ := rbRemove_state P p .out t
    rw [hop]; exact h.setQueue p .out r
  pushBackOut p v t h := by
    obtain ⟨r, hop⟩ := rbPushBack_state P p .out v t
    rw [hop]; exact h.setQueue p .out r
  removeIn t h := by
    obtain ⟨r, hop⟩ := rbRemove_state P .pd .inq t
    rw [hop]; exact h.setQueue .pd .inq r
  log _ _ _ h := h
  irq c _ h := h.irqSend P c
  tmo t h := by
    rcases tmoService_split t with ⟨-, hop⟩ | ⟨-, -, hop⟩ | ⟨-, -, -, hop⟩ | ⟨-, -, -, hop⟩ <;> rw [hop]
    · exact h
    · exact h
    · exact h
    · simp only
      rw [recovery_eq]; exact h

/-- Settles O12: every unit of every instruction keeps the external drivers while the schedule has no turn for them. -/
theorem onlyEnvironmentWritesExternalDrivers : Obligations.OnlyEnvironmentWritesExternalDrivers := by
  intro i s t hno h
  obtain rfl := exec_next_iff.mp h
  have hs : ExtKept s s := ⟨hno, rfl, rfl, rfl, rfl⟩
  have hkeeps := ExtKept.relayKeeps s.params s
  suffices hafter : ExtKept s (after i s) from hafter.2
  cases i with
  | rbInsert p q v =>
    obtain ⟨r, hop⟩ := rbInsert_state s.params p q v s
    rw [after, hop]; exact hs.setQueue p q r
  | rbRemove p q =>
    obtain ⟨r, hop⟩ := rbRemove_state s.params p q s
    rw [after, hop]; exact hs.setQueue p q r
  | rbPushback p q v =>
    obtain ⟨r, hop⟩ := rbPushBack_state s.params p q v s
    rw [after, hop]; exact hs.setQueue p q r
  | irqSend c => exact (hs.irqSend _ c).writeRes _
  | stSend c => exact (hkeeps.toMicroKeeps.send c hs).writeRes _
  | stRecv => exact (hkeeps.toMicroKeeps.recv hs).writeRes _
  | tmoService => exact (hkeeps.tmo s hs).writeRes _
  | relayStep => exact (hkeeps.relay hs).writeRes _
  | evEdge =>
    obtain ⟨r, v, o, e, q, w, hedge, -⟩ := edgeService_frame s.params s
    rw [after, hedge]; exact hs
  | _ => exact hs

/-! ### Steps -/

/-- What every step keeps (R9, R33, R37, R68). -/
structure StepFrame (s t : State) : Prop where
  params : t.params = s.params
  grows : ∃ l, t.wtrace = s.wtrace ++ l
  ovr : s.edgeOvr = true → t.edgeOvr = true
  masked : s.ie = false → s.edgePend = true → t.edgePend = true

theorem CmdFrame.step {s t : State} (h : CmdFrame s t) : StepFrame s t := ⟨h.params, h.grows, h.ovr, h.masked⟩

theorem StepFrame.after {s : State} {i : Instr} (hedge : i = .evEdge → s.edgePend = true ∧ s.ie = true) :
    StepFrame s (after i s) := by
  rcases after_cases i s with hf | ⟨-, p, q, r, x, hop⟩ | ⟨-, b, x, hop⟩ | ⟨hi, hop⟩
  · exact hf.step
  · rw [hop]
    exact ⟨by simp, ⟨[], by simp⟩, by simp, by simp⟩
  · rw [hop]
    exact ⟨rfl, ⟨[], by simp⟩, id, fun _ => id⟩
  · obtain ⟨hpend, hie⟩ := hedge hi
    rw [hop]
    exact (OtherFrame.edge _ s (by simp [edgeEnabled, hpend, hie])).cmd.step

theorem StepFrame.step {s t : State} (h : step s = .next t) : StepFrame s t := by
  rcases step_cases h with ⟨i, sch, cm, rfl, hedge⟩ | ⟨sch, cm, rfl⟩ | ⟨sch, rfl⟩ | ⟨c, d, sch, rfl⟩ | ⟨c, d, sch, rfl⟩
  · have hf := StepFrame.after (s := { s with sched := sch, cmds := cm }) hedge
    exact ⟨hf.params, hf.grows, hf.ovr, hf.masked⟩
  · exact ⟨rfl, ⟨[], by simp [illegalWord]⟩, id, fun _ => id⟩
  · exact ⟨rfl, ⟨[], by simp⟩, id, fun _ => id⟩
  · have hf := (OtherFrame.envP { s with sched := sch } c d).cmd.step
    exact ⟨hf.params, hf.grows, hf.ovr, hf.masked⟩
  · exact ⟨rfl, ⟨[], by simp⟩, id, fun _ => id⟩

/-- Settles O7. -/
theorem edgeOverrunIsSticky : Obligations.EdgeOverrunIsSticky := fun _ _ h => (StepFrame.step h).ovr

/-- Settles O10. -/
theorem wireTraceOnlyGrows : Obligations.WireTraceOnlyGrows := fun _ _ h => (StepFrame.step h).grows

/-- Settles O33: the latch through a step, and PD through the turns at a boundary. -/
theorem maskedEdgeStaysLatched : Obligations.MaskedEdgeStaysLatched := by
  refine ⟨fun _ _ h => (StepFrame.step h).masked, fun atEdge turns s hie => ?_⟩
  obtain ⟨hpd, -, -⟩ := (othersMove_frame s.params atEdge turns s).masked hie
  rw [hpd]
  exact ⟨rfl, rfl, rfl, rfl⟩

end Sys2Proof.Machine
end

/-! ## Proofs: PD's protocol state (10_state.md R40) -/

section

namespace Sys2Proof.Machine

theorem pdPhase_idle_iff (s : State) : pdPhase s = .idle ↔ s.pd.recvShift = 0 ∧ s.pd.sendShift = 0 := by
  by_cases hr : s.pd.recvShift = 0#16 <;> by_cases hs : s.pd.sendShift = 0#16 <;> simp [pdPhase, hr, hs]

theorem pdPhase_receiving_iff (s : State) : pdPhase s = .receiving ↔ s.pd.recvShift ≠ 0 := by
  by_cases hr : s.pd.recvShift = 0#16 <;> by_cases hs : s.pd.sendShift = 0#16 <;> simp [pdPhase, hr, hs]

theorem pdPhase_transmitting_iff (s : State) :
    pdPhase s = .transmitting ↔ s.pd.recvShift = 0 ∧ s.pd.sendShift ≠ 0 := by
  by_cases hr : s.pd.recvShift = 0#16 <;> by_cases hs : s.pd.sendShift = 0#16 <;> simp [pdPhase, hr, hs]

/-- The phase is a function of the two shift registers. -/
theorem pdPhase_congr {s t : State} (hr : t.pd.recvShift = s.pd.recvShift) (hs : t.pd.sendShift = s.pd.sendShift) :
    pdPhase t = pdPhase s := by
  rw [pdPhase, pdPhase, hr, hs]

theorem pdPhase_of_send_zero {s : State} (h : s.pd.sendShift = 0) : pdPhase s = .receiving ∨ pdPhase s = .idle := by
  by_cases hr : s.pd.recvShift = 0
  · exact .inr ((pdPhase_idle_iff s).mpr ⟨hr, h⟩)
  · exact .inl ((pdPhase_receiving_iff s).mpr hr)

theorem pdPhase_of_recv_zero {s : State} (h : s.pd.recvShift = 0) :
    pdPhase s = .transmitting ∨ pdPhase s = .idle := by
  by_cases hs : s.pd.sendShift = 0
  · exact .inr ((pdPhase_idle_iff s).mpr ⟨h, hs⟩)
  · exact .inl ((pdPhase_transmitting_iff s).mpr ⟨h, hs⟩)

/-- An edge does not start a transmit. -/
theorem edgeService_sendShift_zero {P : Params} {s : State} (h : s.pd.sendShift = 0) :
    (edgeService P s).pd.sendShift = 0 := by
  rcases hf : (edgeSample s).getLsbD 0 with - | -
  · rw [edgeService_of_recv h hf]
    exact h
  · rw [edgeService_of_complete h hf]
    obtain ⟨e, r, hop⟩ := deliverFrame_frame P (edgeSample s)
      { s with edgePend := false, pd := { s.pd with busTimeout := P.tmoGuard, recvShift := 0 } }
    rw [hop]
    exact h

/-- The first edge of a frame loads a marker, which is not yet at bit 0 (R146). -/
theorem recvNext_zero (d : Bool) : (recvNext d 0).getLsbD 0 = false ∧ recvNext d 0 ≠ 0 := by
  revert d
  decide

theorem pdPhase_edgeService_of_idle {P : Params} {s : State} (h : pdPhase s = .idle) :
    pdPhase (edgeService P s) = .receiving := by
  obtain ⟨hr, hs⟩ := (pdPhase_idle_iff s).mp h
  obtain ⟨hlow, hne⟩ := recvNext_zero (s.pd.outData && s.pd.extData)
  have hsample : edgeSample s = recvNext (s.pd.outData && s.pd.extData) 0 := by rw [edgeSample, hr]
  rw [pdPhase_receiving_iff, edgeService_of_recv hs (by rw [hsample]; exact hlow), hsample]
  exact hne

theorem irqPattern_ne_zero (c : Byte) : irqPattern c ≠ 0 := by
  intro h
  have hbit := irqPattern_getLsbD c (i := 10) (by decide)
  rw [h] at hbit
  simp at hbit

theorem pdPhase_tmoService (s : State) : pdPhase (tmoService s).2 = pdPhase s ∨ pdPhase (tmoService s).2 = .idle := by
  rcases tmoService_split s with ⟨-, h⟩ | ⟨-, -, h⟩ | ⟨-, -, -, h⟩ | ⟨-, -, -, h⟩ <;> rw [h]
  · exact .inl rfl
  · exact .inl rfl
  · exact .inl rfl
  · simp only
    rw [recovery_eq]
    exact .inr rfl

/-- Settles O13: an edge by the path `send_shift` chooses, IRQ_SEND by its three cases, TMO_SERVICE by its four. -/
theorem pdPhaseTransitions : Obligations.PdPhaseTransitions := by
  refine ⟨fun s t hinv h => ?edge, fun c s t h => ?send, fun s t h => ?tmo⟩ <;> obtain rfl := exec_next_iff.mp h
  case edge =>
    rw [after]
    refine ⟨pdPhase_edgeService_of_idle, fun hrecv => ?_, fun hsend => ?_⟩
    · have hs : s.pd.sendShift = 0 := hinv.notBoth.resolve_left ((pdPhase_receiving_iff s).mp hrecv)
      exact pdPhase_of_send_zero (edgeService_sendShift_zero hs)
    · obtain ⟨hr, hs⟩ := (pdPhase_transmitting_iff s).mp hsend
      rw [edgeService_of_send hs]
      exact pdPhase_of_recv_zero hr
  case send =>
    rcases irqSend_split s.params c s with ⟨href, hop⟩ | ⟨hr, he, hs, hop⟩ | ⟨hr, he, hs, hop⟩ <;> rw [after, hop]
    · refine ⟨fun ⟨hidle, he⟩ => ?_, fun _ => pdPhase_congr rfl rfl⟩
      rcases href with hr | hpend
      · exact absurd ((pdPhase_idle_iff s).mp hidle).1 hr
      · exact absurd (he.symm.trans hpend) Bool.false_ne_true
    · exact ⟨fun ⟨hidle, _⟩ => absurd ((pdPhase_idle_iff s).mp hidle).2 hs, fun _ => pdPhase_congr rfl rfl⟩
    · obtain ⟨a, b, x, y, f, l, harm⟩ := armingSequence_eq s.params (irqLoaded s.params c s)
      simp only
      rw [harm]
      refine ⟨fun _ => (pdPhase_transmitting_iff _).mpr ⟨hr, irqPattern_ne_zero c⟩, fun hno => ?_⟩
      rcases hno with hbusy | hpend
      · exact absurd ((pdPhase_idle_iff s).mpr ⟨hr, hs⟩) hbusy
      · exact absurd (he.symm.trans hpend) Bool.false_ne_true
  case tmo => exact pdPhase_tmoService s

end Sys2Proof.Machine
end

/-! ## Proofs: runs of several steps (41_frame_codec.md R134, 42_irq_engine.md R145, 44_supervisor.md R202) -/

section

namespace Sys2Proof.Machine

/-! ### Runs -/

theorem run_succ {s t : State} (n : Nat) (h : step s = .next t) : core.run (n + 1) s = core.run n t := by
  have hstep : core.step s = .next t := h
  simp only [Host.Core.run, hstep]

theorem run_add {m : Nat} (n : Nat) : ∀ {s t : State}, core.run m s = .next t → core.run (m + n) s = core.run n t := by
  induction m with
  | zero =>
    intro s t h
    obtain rfl : s = t := by injection h
    rw [Nat.zero_add]
  | succ m ih =>
    intro s t h
    obtain ⟨u, hu⟩ := exists_step s
    rw [run_succ m hu] at h
    rw [Nat.succ_add, run_succ (m + n) hu, ih h]

/-! ### One clock of the peripheral (R140, R142) -/

/-- The state in which the edge of a clock with data level `b` is serviced, `sch` being what the schedule has after the
clock. -/
def clockFallen (b : Bool) (sch : List Turn) (s : State) : State :=
  { s with sched := .envP true b :: sch, pd := { s.pd with extClk := false, extData := b }, edgePend := true }

/-- One clock: the fall is latched, the edge serviced, the clock released. -/
theorem run_edgeTurns {s u : State} {b : Bool} {sch : List Turn} (hs : s.sched = edgeTurns b ++ sch) (hie : s.ie = true)
    (hp : s.edgePend = false) (hout : s.pd.outClk = true) (hext : s.pd.extClk = true)
    (hu : edgeService s.params (clockFallen b sch s) = u) :
    core.run 3 s = .next { u with sched := sch, pd := { u.pd with extClk := true, extData := b } } := by
  have hfall : step s = .next { clockFallen b sch s with sched := .edge :: .envP true b :: sch } := by
    rw [step_of_envP hs, envPTurn_of_fall (by simp [qualifiedFall, hout, hext])]
    simp [clockFallen, hp]
  have hservice : step { clockFallen b sch s with sched := .edge :: .envP true b :: sch } = .next u := by
    have henabled : edgeEnabled (clockFallen b sch s) = true := by simp [edgeEnabled, clockFallen, hie]
    rw [← hu]
    show stepEdge (clockFallen b sch s) = _
    rw [stepEdge, if_pos henabled]
    rfl
  have hsched : u.sched = .envP true b :: sch := by
    obtain ⟨r, v, o, e, q, w, hedge, -⟩ := edgeService_frame s.params (clockFallen b sch s)
    rw [← hu, hedge]
    rfl
  rw [run_succ 2 hfall, run_succ 1 hservice, run_succ 0 (step_of_envP hsched),
    envPTurn_of_not_fall (by simp [qualifiedFall])]
  rfl

/-! ### Receiving a frame (R130, R131, R146) -/

/-- The receive register after the levels `l`, from the armed value on (R130, R146). -/
def recvAfter (l : List Bool) : Word := l.foldl (fun r b => shiftIn b r) Config.recvArm

theorem recvAfter_append (l : List Bool) (b : Bool) : recvAfter (l ++ [b]) = shiftIn b (recvAfter l) := by
  simp [recvAfter]

theorem shiftIn_getLsbD (b : Bool) (r : Word) {i : Nat} (hi : i < 16) :
    (shiftIn b r).getLsbD i = if i = 15 then b else r.getLsbD (i + 1) := by
  rw [shiftIn, BitVec.getLsbD_or, bitAt_getLsbD _ _ hi, BitVec.getLsbD_ushiftRight, Nat.add_comm 1 i]
  by_cases h : i = 15
  · have hr : r.getLsbD (i + 1) = false := BitVec.getLsbD_of_ge r _ (by omega)
    simp [h]
  · simp [h]

/-- Below the levels stands the marker, bit 11 of the armed value moved down (R131). -/
theorem recvAfter_getLsbD : ∀ (l : List Bool) {i : Nat}, l.length ≤ 11 → i < 16 → (recvAfter l).getLsbD i =
    if i + l.length < 16 then decide (i + l.length = 11) else l.getD (i + l.length - 16) false := by
  intro l
  induction l using List.reverseRecOn with
  | nil =>
    intro i _ hi
    have harm : ∀ k < 16, (Config.recvArm).getLsbD k = decide (k = 11) := by decide
    simpa [recvAfter, hi] using harm i hi
  | append_singleton l b ih =>
    intro i hl hi
    rw [List.length_append, List.length_singleton] at *
    rw [recvAfter_append, shiftIn_getLsbD b _ hi]
    by_cases h : i = 15
    · subst h
      simp [show ¬ 15 + (l.length + 1) < 16 by omega, show 15 + (l.length + 1) - 16 = l.length by omega]
    · rw [if_neg h, ih (by omega) (by omega), show i + 1 + l.length = i + (l.length + 1) by omega]
      split
      · rfl
      · rw [List.getD_append _ _ _ _ (by omega)]

/-- Fewer than eleven levels leave the marker above bit 0, eleven bring it there. -/
theorem recvAfter_marker {l : List Bool} (h : l.length ≤ 11) : (recvAfter l).getLsbD 0 = decide (l.length = 11) := by
  rw [recvAfter_getLsbD l h (by decide), Nat.zero_add, if_pos (by omega)]

theorem recvAfter_ne_zero {l : List Bool} (h : l.length ≤ 10) : recvAfter l ≠ 0 := by
  intro h0
  have hbit := recvAfter_getLsbD l (i := 11 - l.length) (by omega) (by omega)
  rw [h0, show 11 - l.length + l.length = 11 by omega] at hbit
  simp at hbit

/-- A byte's frame leaves the completed-frame value (R131). -/
theorem recvAfter_wireFrame (d : Byte) : recvAfter (wireFrame d) = irqFrame d := by
  refine BitVec.eq_of_getLsbD_eq fun i hi => ?_
  have hlen : (wireFrame d).length = 11 := rfl
  rw [recvAfter_getLsbD _ hlen.le hi, irqFrame_getLsbD d hi, hlen]
  interval_cases i <;> rfl

/-- What R146 shifts, when the register is at `recvAfter l`, or 0 before the first level. -/
def Received (l : List Bool) (s : State) : Prop :=
  (if s.pd.recvShift = 0 then Config.recvArm else s.pd.recvShift) = recvAfter l

theorem Received.sample {l : List Bool} {s : State} (h : Received l s) :
    edgeSample s = recvAfter (l ++ [s.pd.outData && s.pd.extData]) := by
  rw [edgeSample, recvNext, h, recvAfter_append]

/-- The state after a clock with data level `b` that leaves the receive register at `f`. -/
def shiftedIn (f : Word) (b : Bool) (sch : List Turn) (s : State) : State :=
  { s with
    sched := sch
    edgePend := false
    pd := { s.pd with recvShift := f, busTimeout := s.params.tmoGuard, extClk := true, extData := b } }

/-- What the clocks of a frame that is being received leave alone. -/
def RecvFrame (s t : State) : Prop := ∃ x : PortState, t =
  { s with sched := t.sched, edgePend := t.edgePend, pd := { s.pd with
    recvShift := x.recvShift, busTimeout := x.busTimeout, extClk := x.extClk, extData := x.extData } }

theorem RecvFrame.trans {s t u : State} (h : RecvFrame s t) (g : RecvFrame t u) : RecvFrame s u := by
  obtain ⟨x, hx⟩ := h
  obtain ⟨y, hy⟩ := g
  exact ⟨y, by rw [hy, hx]⟩

/-- An unmasked PD with released drivers, no edge latched and no transmit, before a clock of the peripheral. -/
structure ReadyToReceive (s : State) : Prop where
  ie : s.ie = true
  pend : s.edgePend = false
  send : s.pd.sendShift = 0
  outClk : s.pd.outClk = true
  outData : s.pd.outData = true
  extClk : s.pd.extClk = true

theorem edgeSample_clockFallen {l : List Bool} {s : State} (b : Bool) (sch : List Turn) (hs : ReadyToReceive s)
    (hl : Received l s) : edgeSample (clockFallen b sch s) = recvAfter (l ++ [b]) := by
  have hfallen : Received l (clockFallen b sch s) := hl
  rw [hfallen.sample, show (clockFallen b sch s).pd.outData = true from hs.outData, Bool.true_and]
  rfl

/-- One clock before the last of a frame. -/
theorem run_receive_one {l : List Bool} {s : State} {b : Bool} {sch : List Turn} (hs : ReadyToReceive s)
    (hsched : s.sched = edgeTurns b ++ sch) (hl : Received l s) (hlen : l.length < 10) :
    core.run 3 s = .next (shiftedIn (recvAfter (l ++ [b])) b sch s) := by
  have hsample := edgeSample_clockFallen b sch hs hl
  have hlow : (recvAfter (l ++ [b])).getLsbD 0 = false := by
    rw [recvAfter_marker (by simp; omega)]
    simp; omega
  rw [run_edgeTurns hsched hs.ie hs.pend hs.outClk hs.extClk
    (edgeService_of_recv hs.send (by rw [hsample]; exact hlow)), hsample]
  rfl

/-- The clocks before the last of a frame, by induction on the levels. -/
theorem run_receive : ∀ (l done : List Bool) (s : State) (sch : List Turn), ReadyToReceive s →
    s.sched = l.flatMap edgeTurns ++ sch → Received done s → done.length + l.length ≤ 10 →
    ∃ t, core.run (3 * l.length) s = .next t ∧ t.sched = sch ∧ RecvFrame s t ∧ ReadyToReceive t ∧
      Received (done ++ l) t := by
  intro l
  induction l with
  | nil =>
    intro done s sch hs hsched hdone _
    exact ⟨s, rfl, hsched, ⟨s.pd, rfl⟩, hs, by simpa using hdone⟩
  | cons b l ih =>
    intro done s sch hs hsched hdone hlen
    rw [List.length_cons] at hlen
    have hrun := run_receive_one (b := b) (sch := l.flatMap edgeTurns ++ sch) hs
      (by rw [hsched, List.flatMap_cons, List.append_assoc]) hdone (by omega)
    have hdone' : Received (done ++ [b]) (shiftedIn (recvAfter (done ++ [b])) b (l.flatMap edgeTurns ++ sch) s) :=
      if_neg (recvAfter_ne_zero (by simp; omega))
    obtain ⟨u, hrun', husched, hframe, hu, hudone⟩ := ih (done ++ [b])
      (shiftedIn (recvAfter (done ++ [b])) b (l.flatMap edgeTurns ++ sch) s) sch
      ⟨hs.ie, rfl, hs.send, hs.outClk, hs.outData, rfl⟩ rfl hdone' (by simp; omega)
    refine ⟨u, ?_, husched, RecvFrame.trans ⟨(shiftedIn (recvAfter (done ++ [b])) b [] s).pd, rfl⟩ hframe, hu,
      by simpa using hudone⟩
    rw [List.length_cons, show 3 * (l.length + 1) = 3 + 3 * l.length by omega, run_add _ hrun, hrun']

/-- The ten levels of a frame before its stop bit (R127). -/
def wireFrameInit (d : Byte) : List Bool := (wireFrame d).take 10

theorem wireFrameInit_append (d : Byte) : wireFrameInit d ++ [true] = wireFrame d := rfl

/-- The eleventh clock of a byte's frame delivers the byte (R147, R148). -/
theorem run_receive_last {d : Byte} {s : State} {sch : List Turn} (hs : ReadyToReceive s)
    (hsched : s.sched = edgeTurns true ++ sch) (hl : Received (wireFrameInit d) s)
    (hwf : s.pd.qIn.wf s.params.rbCap = true) (hroom : (fifo .pd .inq s).length < s.params.rbCap) :
    ∃ r, r.seq s.params.rbCap = fifo .pd .inq s ++ [d] ∧
      core.run 3 s = .next (setQueue .pd .inq r (shiftedIn 0 true sch s)) := by
  have hsample : edgeSample (clockFallen true sch s) = irqFrame d := by
    rw [edgeSample_clockFallen true sch hs hl, wireFrameInit_append, recvAfter_wireFrame]
  have hlow : (irqFrame d).getLsbD 0 = true := irqFrame_getLsbD d (by decide)
  have hstop : frameStop (irqFrame d) = true := irqFrame_getLsbD d (by decide)
  have hpar : parityOk (frameGroup (irqFrame d)) = true := by
    rw [frameGroup_irqFrame]
    exact (parityCheckAcceptsEncoderBit d _).2.mpr rfl
  have hservice := edgeService_of_complete (P := s.params) (s := clockFallen true sch s) hs.send
    (by rw [hsample]; exact hlow)
  rw [hsample] at hservice
  rcases deliverFrame_ok (P := s.params) (s := { clockFallen true sch s with
      edgePend := false
      pd := { (clockFallen true sch s).pd with busTimeout := s.params.tmoGuard, recvShift := 0 } })
    rfl hstop hpar hwf with ⟨hfull, -⟩ | ⟨-, r, -, hseq, hop⟩
  · exact absurd hfull hroom.ne
  · rw [frameData_irqFrame] at hseq
    refine ⟨r, hseq, ?_⟩
    rw [run_edgeTurns hsched hs.ie hs.pend hs.outClk hs.extClk (hservice.trans hop)]
    rfl

/-- Settles O37: ten clocks shift the frame in, the eleventh completes and delivers it. -/
theorem peripheralFrameReachesQueue : Obligations.PeripheralFrameReachesQueue := by
  intro d s sch hsched hie hpend hidle hclk hdata hext hwf hroom
  obtain ⟨hrecv, hsend⟩ := (pdPhase_idle_iff s).mp hidle
  obtain ⟨t, hrun, htsched, ⟨x, hx⟩, ht, htrecv⟩ := run_receive (wireFrameInit d) [] s (edgeTurns true ++ sch)
    ⟨hie, hpend, hsend, hclk, hdata, hext⟩ (by rw [hsched, ← wireFrameInit_append]; simp) (if_pos hrecv)
    (by simp [wireFrameInit, wireFrame])
  have hparams : t.params = s.params := by rw [hx]; rfl
  have hqueue : t.pd.qIn = s.pd.qIn := by rw [hx]
  have hfifo : fifo .pd .inq t = fifo .pd .inq s := by
    show t.pd.qIn.seq t.params.rbCap = s.pd.qIn.seq s.params.rbCap
    rw [hqueue, hparams]
  obtain ⟨r, hseq, hrun'⟩ := run_receive_last ht htsched (by simpa using htrecv)
    (by rw [hqueue, hparams]; exact hwf) (by rw [hfifo, hparams]; exact hroom)
  rw [hfifo] at hseq
  refine ⟨setQueue .pd .inq r (shiftedIn 0 true sch t), ?_, hseq, (pdPhase_idle_iff _).mpr ⟨rfl, ht.send⟩, ?_,
    hparams ▸ rfl, rfl, ?_, ?_, ?_, ?_⟩
  · rw [show 33 = 3 * (wireFrameInit d).length + 3 from rfl, run_add _ hrun, hrun']
  · show t.pd.lastErr = s.pd.lastErr
    rw [hx]
  · show t.cmds = s.cmds
    rw [hx]
  · show t.res = s.res
    rw [hx]
  · show t.wtrace = s.wtrace
    rw [hx]
  · show t.edgeOvr = s.edgeOvr
    rw [hx]

/-! ### Clocking an armed frame out (R145) -/

/-- The state after a clock with data level `b` of a transmit. -/
def shiftedOut (b : Bool) (sch : List Turn) (s : State) : State :=
  { s with
    sched := sch
    edgePend := false
    pd := { s.pd with
      sendShift := s.pd.sendShift >>> 1
      busTimeout := s.params.tmoGuard
      outData := s.pd.sendShift.getLsbD 0
      extClk := true
      extData := b }
    wtrace := s.wtrace ++ [.drive .pd .data (s.pd.sendShift.getLsbD 0)] }

theorem run_transmit_one {s : State} {b : Bool} {sch : List Turn} (hsched : s.sched = edgeTurns b ++ sch)
    (hie : s.ie = true) (hpend : s.edgePend = false) (hclk : s.pd.outClk = true) (hext : s.pd.extClk = true)
    (hsend : s.pd.sendShift ≠ 0) : core.run 3 s = .next (shiftedOut b sch s) := by
  rw [run_edgeTurns hsched hie hpend hclk hext (edgeService_of_send hsend)]
  rfl

/-- As many clocks as there are levels drive as many low bits of `send_shift`, while it is not 0. -/
theorem run_transmit : ∀ (levels : List Bool) (s : State) (sch : List Turn), s.sched = levels.flatMap edgeTurns ++ sch →
    s.ie = true → s.edgePend = false → s.pd.outClk = true → s.pd.extClk = true →
    (∀ j < levels.length, s.pd.sendShift >>> j ≠ 0) →
    ∃ t, core.run (3 * levels.length) s = .next t ∧ t.pd.sendShift = s.pd.sendShift >>> levels.length ∧
      t.pd.outData = (if levels = [] then s.pd.outData else s.pd.sendShift.getLsbD (levels.length - 1)) ∧
      t.wtrace = s.wtrace ++ ((List.range levels.length).map (s.pd.sendShift.getLsbD ·)).map (.drive .pd .data) ∧
      t.pd.recvShift = s.pd.recvShift ∧ t.pd.qIn = s.pd.qIn ∧ t.pd.lastErr = s.pd.lastErr ∧ t.res = s.res := by
  intro levels
  induction levels with
  | nil => intro s sch _ _ _ _ _ _; exact ⟨s, rfl, by simp⟩
  | cons b levels ih =>
    intro s sch hsched hie hpend hclk hext hne
    have hrun := run_transmit_one (b := b) (sch := levels.flatMap edgeTurns ++ sch)
      (by rw [hsched, List.flatMap_cons, List.append_assoc]) hie hpend hclk hext
      (by simpa using hne 0 (by simp))
    have hshift (j : Nat) : s.pd.sendShift >>> 1 >>> j = s.pd.sendShift >>> (j + 1) := by
      rw [Nat.add_comm, BitVec.shiftRight_add]
    obtain ⟨t, hrun', hsend, hdata, htrace, hrecv, hq, herr, hres⟩ := ih
      (shiftedOut b (levels.flatMap edgeTurns ++ sch) s) sch rfl hie rfl hclk rfl (fun j hj => by
        show s.pd.sendShift >>> 1 >>> j ≠ 0
        rw [hshift]
        exact hne _ (by simpa using hj))
    refine ⟨t, ?_, ?_, ?_, ?_, hrecv, hq, herr, hres⟩
    · rw [List.length_cons, show 3 * (levels.length + 1) = 3 + 3 * levels.length by omega, run_add _ hrun, hrun']
    · rw [hsend]
      exact hshift _
    · rw [hdata]
      cases levels with
      | nil => rfl
      | cons c l => simp [shiftedOut, Nat.add_comm]
    · rw [htrace, List.length_cons, List.range_succ_eq_map]
      simp [shiftedOut, Function.comp_def, Nat.add_comm]

/-- Eleven shifts empty the pattern, and no fewer: its bit 10 is the highest one set. -/
theorem irqPattern_shift (c : Byte) : irqPattern c >>> 11 = 0 ∧ ∀ j < 11, irqPattern c >>> j ≠ 0 := by
  refine ⟨?_, fun j hj h => ?_⟩
  · refine BitVec.eq_of_toNat_eq ?_
    rw [BitVec.toNat_ushiftRight, Nat.shiftRight_eq_div_pow]
    exact Nat.div_eq_of_lt (irqPattern_lt c)
  · have hbit : (irqPattern c >>> j).getLsbD (10 - j) = true := by
      rw [BitVec.getLsbD_ushiftRight, show j + (10 - j) = 10 by omega]
      exact irqPattern_getLsbD c (by decide)
    rw [h] at hbit
    simp at hbit

/-- The bits of the pattern in the order they are driven: the frame after its start bit, and a released slot (R128). -/
theorem irqPattern_bits (c : Byte) :
    (List.range 11).map ((irqPattern c).getLsbD ·) = (wireFrame c).drop 1 ++ [true] := by
  have hbits : ∀ k < 11, (irqPattern c).getLsbD k =
      if k < 8 then c.getLsbD k else if k = 8 then oddParity c else decide (k = 9 ∨ k = 10) :=
    fun k hk => irqPattern_getLsbD c (by omega)
  rw [List.map_congr_left fun k hk => hbits k (List.mem_range.mp hk)]
  rfl

/-- Settles O38: eleven clocks drive the eleven bits of the pattern. -/
theorem armedFrameIsClockedOut : Obligations.ArmedFrameIsClockedOut := by
  intro c levels s sch hlen hsched hie hpend hclk hext hsend
  obtain ⟨hzero, hne⟩ := irqPattern_shift c
  obtain ⟨t, hrun, hsend', hdata, htrace, hrecv, hq, herr, hres⟩ := run_transmit levels s sch hsched hie hpend hclk hext
    (by rw [hsend, hlen]; exact hne)
  have hlevels : levels ≠ [] := by
    rintro rfl
    cases hlen
  rw [hlen] at hrun
  rw [hsend, hlen] at hsend' hdata htrace
  refine ⟨t, hrun, hsend'.trans hzero, ?_, hrecv, ?_, hq, herr, hres⟩
  · rw [hdata, if_neg hlevels]
    exact irqPattern_getLsbD c (by decide)
  · rw [htrace, irqPattern_bits]

/-! ### Ticks that recover a stuck bus (R201, R202) -/

/-- A tick and its TMO_SERVICE. -/
theorem run_tick {s : State} {sch : List Turn} {rest : List Word} (hsched : s.sched = [.tick, .ctrl] ++ sch)
    (hcmds : s.cmds = 0x8000 :: rest) :
    core.run 2 s = .next (after .tmoService { s with tickFlag := true, sched := sch, cmds := rest }) := by
  have htick : step s = .next { s with tickFlag := true, sched := .ctrl :: sch } := by
    simp [step, hsched, exec_eq, after, tickTurn]
  have hservice : step { s with tickFlag := true, sched := .ctrl :: sch } =
      .next (after .tmoService { s with tickFlag := true, sched := sch, cmds := rest }) := by
    show ctrlTurn { s with tickFlag := true, sched := sch } = _
    exact (ctrlTurn_of_decode (s := { s with tickFlag := true, sched := sch }) hcmds (by decide)).trans (exec_eq _ _)
  rw [run_succ 1 htick, run_succ 0 hservice]
  rfl

/-- The state after a tick that only counts the timeout down, with `sch` and `rest` left. -/
def counted (sch : List Turn) (rest : List Word) (s : State) : State :=
  { s with tickFlag := false, res := 0, sched := sch, cmds := rest, pd := { s.pd with busTimeout := s.pd.busTimeout - 1 } }

theorem busTimeout_sub_one {x : BitVec 8} {n : Nat} (h : x.toNat = n + 1) : (x - 1).toNat = n := by
  rw [BitVec.toNat_sub_of_le (by simp [BitVec.le_def, h]), h]
  rfl

/-- Settles O51, by induction on the timeout: each tick but the last only counts down, and the last one recovers. -/
theorem ticksRecoverStuckBus : Obligations.TicksRecoverStuckBus := by
  intro s n hpos htimeout hpend hsched hcmds
  induction n generalizing s with
  | zero => cases hpos
  | succ n ih =>
    rw [List.replicate_succ, List.flatten_cons] at hsched
    rw [List.replicate_succ] at hcmds
    have hrun := run_tick hsched hcmds
    obtain ⟨-, -, hcount, hrecover⟩ := tmoServiceCountsAndRecovers { s with
      tickFlag := true, sched := (List.replicate n [Turn.tick, Turn.ctrl]).flatten, cmds := List.replicate n 0x8000 }
    rw [exec_next_iff] at hcount hrecover
    by_cases hn : n = 0
    · subst hn
      have hone : s.pd.busTimeout = 1 := BitVec.eq_of_toNat_eq htimeout
      refine ⟨_, hrun, ?_⟩
      rw [hrecover rfl hone]
      refine ⟨rfl, rfl, rfl, rfl, rfl, fun hbusy => ?_, fun hidle => ?_, fun p q => ?_, rfl⟩
      · rw [Ne, pdPhase_idle_iff, not_and_or] at hbusy
        exact if_pos hbusy
      · rw [pdPhase_idle_iff] at hidle
        exact if_neg (by simp [hidle])
      · cases p <;> cases q <;> rfl
    · have hne0 : s.pd.busTimeout ≠ 0 := by
        intro h
        rw [h] at htimeout
        simp at htimeout
      have hne1 : s.pd.busTimeout ≠ 1 := by
        intro h
        rw [h] at htimeout
        simp at htimeout
        omega
      rw [hcount rfl hne0 hne1] at hrun
      obtain ⟨t, hrun', hidle, hclk, hdata, htmo, hres, hbusyErr, hidleErr, hqueues, hph⟩ :=
        ih (counted (List.replicate n [Turn.tick, Turn.ctrl]).flatten (List.replicate n 0x8000) s)
          (Nat.pos_of_ne_zero hn) (busTimeout_sub_one htimeout) hpend rfl rfl
      refine ⟨t, ?_, hidle, hclk, hdata, htmo, hres, hbusyErr, hidleErr, fun p q => ?_, hph⟩
      · rw [show 2 * (n + 1) = 2 + 2 * n by omega, run_add _ hrun, ← hrun']
        rfl
      · rw [hqueues]
        cases p <;> cases q <;> rfl

end Sys2Proof.Machine
end

/-! ## Proofs: E_ST under every schedule (43_selftimed_engine.md R170 to R183) -/

section

namespace Sys2Proof.Machine

/-! ### The trace of the micro-steps (R170, R171) -/

theorem phTrace_congr {s t : State} (h : t.wtrace = s.wtrace) : phTrace t = phTrace s := by rw [phTrace, phTrace, h]

theorem phTrace_waitFor (n : Nat) (s : State) : phTrace (waitFor n s) = phTrace s ++ [.wait n] := by
  simp [phTrace, notPd]

theorem phTrace_drive (w : Wire) (v : Bool) (s : State) :
    phTrace (driveWire .ph w v s) = phTrace s ++ [.drive .ph w v] := by
  simp [phTrace, notPd]

theorem phTrace_micro (P : Params) (pc : MicroPc) (f : State → State) (s : State) :
    phTrace (micro P pc f s) = phTrace (f (atPc pc s)) := (micro_frame P pc f s).phTrace

theorem phTrace_micro_wait (P : Params) (pc : MicroPc) (n : Nat) (s : State) :
    phTrace (micro P pc (waitFor n) s) = phTrace s ++ [.wait n] := by
  rw [phTrace_micro, phTrace_waitFor]
  rfl

theorem phTrace_micro_drive (P : Params) (pc : MicroPc) (w : Wire) (v : Bool) (s : State) :
    phTrace (micro P pc (driveWire .ph w v) s) = phTrace s ++ [.drive .ph w v] := by
  rw [phTrace_micro, phTrace_drive]
  rfl

theorem phTrace_clockPulse (P : Params) (s : State) : phTrace (clockPulse P s) = phTrace s ++ pulseTrace P := by
  simp only [clockPulse, phTrace_micro_wait]
  rw [show setHigh .ph .clk = driveWire .ph .clk true from rfl, phTrace_micro_drive, phTrace_micro_wait,
    show setLow .ph .clk = driveWire .ph .clk false from rfl, phTrace_micro_drive, phTrace_micro_wait]
  simp [pulseTrace]

theorem phTrace_stDriveBit (P : Params) (s : State) : phTrace (stDriveBit P s) =
    phTrace s ++ .drive .ph .data (s.st.frame.getLsbD s.st.i) :: pulseTrace P := by
  rw [stDriveBit, phTrace_clockPulse, phTrace_micro_drive]
  simp

/-! ### What a whole E_ST command leaves alone (R183) -/

/-- What the micro-steps of an E_ST command and the turns at their boundaries leave alone. -/
structure StFrame (s t : State) : Prop where
  ph : t.ph = { s.ph with outClk := t.ph.outClk, outData := t.ph.outData, lastErr := t.ph.lastErr,
                          extClk := t.ph.extClk, extData := t.ph.extData }
  pd : t.pd = { t.pd with outClk := s.pd.outClk, qOut := s.pd.qOut, qAux0 := s.pd.qAux0, qAux1 := s.pd.qAux1 }
  masked : s.ie = false → t.pd.qIn = s.pd.qIn
  ie : t.ie = s.ie
  log : t.log = s.log
  cmds : t.cmds = s.cmds
  params : t.params = s.params
  still : computerStill s → computerStill t ∧ t.ph.extClk = s.ph.extClk ∧ t.ph.extData = s.ph.extData

theorem StFrame.refl (s : State) : StFrame s s := ⟨rfl, rfl, fun _ => rfl, rfl, rfl, rfl, rfl, fun h => ⟨h, rfl, rfl⟩⟩

theorem StFrame.trans {s t u : State} (h : StFrame s t) (g : StFrame t u) : StFrame s u where
  ph := by rw [g.ph, h.ph]
  pd := by rw [g.pd, h.pd]
  masked hie := (g.masked (h.ie.trans hie)).trans (h.masked hie)
  ie := g.ie.trans h.ie
  log := g.log.trans h.log
  cmds := g.cmds.trans h.cmds
  params := g.params.trans h.params
  still hs := by
    obtain ⟨ht, hclk, hdata⟩ := h.still hs
    obtain ⟨hu, hclk', hdata'⟩ := g.still ht
    exact ⟨hu, hclk'.trans hclk, hdata'.trans hdata⟩

theorem StFrame.yield (P : Params) (s : State) : StFrame s (yieldTurn P s) := by
  have hf := yieldTurn_frame P s
  refine ⟨by rw [hf.ph], hf.pd, fun hie => by rw [(hf.masked hie).1], hf.ie, hf.log, hf.cmds, hf.params, fun hs => ?_⟩
  obtain ⟨hstill, hph⟩ := yieldTurn_still (P := P) hs
  exact ⟨hstill, by rw [hph], by rw [hph]⟩

/-- Every micro-step of an E_ST command is framed so. -/
theorem StFrame.microKeeps (P : Params) (s0 : State) : MicroKeeps P (StFrame s0) where
  yield s h := h.trans (.yield P s)
  wait _ _ h := h.trans ⟨rfl, rfl, fun _ => rfl, rfl, rfl, rfl, rfl, fun h => ⟨h, rfl, rfl⟩⟩
  drive w _ _ h := h.trans (by cases w <;> exact ⟨rfl, rfl, fun _ => rfl, rfl, rfl, rfl, rfl, fun h => ⟨h, rfl, rfl⟩⟩)
  st _ _ _ h := h.trans ⟨rfl, rfl, fun _ => rfl, rfl, rfl, rfl, rfl, fun h => ⟨h, rfl, rfl⟩⟩
  err _ _ _ h := h.trans ⟨rfl, rfl, fun _ => rfl, rfl, rfl, rfl, rfl, fun h => ⟨h, rfl, rfl⟩⟩

theorem StFrame.send (P : Params) (c : Byte) (s : State) : StFrame s (stSend P c s).1 :=
  (StFrame.microKeeps P s).send c (.refl s)

theorem StFrame.recv (P : Params) (s : State) : StFrame s (stRecv P s).1 :=
  (StFrame.microKeeps P s).recv (.refl s)

/-- No queue but PD.IN is touched. -/
theorem StFrame.queue {s t : State} (h : StFrame s t) (p : Port) (q : QueueId) (hne : ¬(p = .pd ∧ q = .inq)) :
    getQueue p q t = getQueue p q s := by
  cases p with
  | pd =>
    rw [getQueue, getPort_pd, h.pd]
    cases q with
    | inq => exact absurd ⟨rfl, rfl⟩ hne
    | _ => rfl
  | ph =>
    rw [getQueue, getPort_ph, h.ph]
    cases q <;> rfl

/-- With no other agent to move, an E_ST command writes PH's drivers and LAST_ERR, ST, and PH's entries of WTRACE. -/
structure QuietFrame (s t : State) : Prop where
  isQuiet : quiet t
  trace : ∃ w, t.wtrace = s.wtrace ++ w ∧ w.filter notPd = w
  eq : t = { s with wtrace := t.wtrace, st := t.st,
                    ph := { s.ph with outClk := t.ph.outClk, outData := t.ph.outData, lastErr := t.ph.lastErr } }

theorem QuietFrame.refl {s : State} (h : quiet s) : QuietFrame s s := ⟨h, ⟨[], by simp, rfl⟩, rfl⟩

theorem QuietFrame.write {s t u : State} (h : QuietFrame s t) {w : List WireEvent} (hw : w.filter notPd = w)
    (hu : u = { t with wtrace := t.wtrace ++ w, st := u.st,
                       ph := { t.ph with outClk := u.ph.outClk, outData := u.ph.outData, lastErr := u.ph.lastErr } }) :
    QuietFrame s u := by
  obtain ⟨w', htr, hw'⟩ := h.trace
  have htrace : u.wtrace = t.wtrace ++ w := by rw [hu]
  refine ⟨?_, ⟨w' ++ w, by rw [htrace, htr, List.append_assoc], by rw [List.filter_append, hw, hw']⟩, ?_⟩
  · rw [hu]; exact h.isQuiet
  · rw [hu, h.eq]

theorem QuietFrame.microKeeps (P : Params) (s : State) : MicroKeeps P (QuietFrame s) where
  yield t h := by rw [yieldTurn_quiet h.isQuiet]; exact h
  wait n _ h := h.write (w := [.wait n]) rfl rfl
  drive w v _ h := by cases w <;> exact h.write (w := [.drive .ph _ v]) rfl rfl
  st t x _ h := h.write (w := []) rfl (by simp)
  err e t _ h := h.write (w := []) rfl (by simp [setLastErr, updPort])

/-- In a quiet run WTRACE gains what its part that is not PD's gains. -/
theorem QuietFrame.wtrace {s t : State} (h : QuietFrame s t) {l : List WireEvent} (hl : phTrace t = phTrace s ++ l) :
    t.wtrace = s.wtrace ++ l := by
  obtain ⟨w, htr, hw⟩ := h.trace
  rw [phTrace, htr, List.filter_append, hw] at hl
  rw [htr, List.append_cancel_left hl]

/-- The frame of an E_ST command whose last micro-step leaves `u`, with its result in RES. -/
theorem StFrame.command {s u : State} (r : CmdResult) (hf : StFrame s u) (hquiet : quiet s → QuietFrame s u) :
    (∀ p q, ¬(p = .pd ∧ q = .inq) → getQueue p q (writeRes r u) = getQueue p q s) ∧
    (s.ie = false → u.pd.qIn = s.pd.qIn) ∧
    u.ph.recvShift = s.ph.recvShift ∧ u.ph.sendShift = s.ph.sendShift ∧ u.ph.busTimeout = s.ph.busTimeout ∧
    u.ie = s.ie ∧ u.log = s.log ∧ u.cmds = s.cmds ∧ u.pd.outClk = s.pd.outClk ∧
    (quiet s → writeRes r u = { s with res := packRes r, wtrace := u.wtrace, st := u.st, ph := { s.ph with
      outClk := u.ph.outClk, outData := u.ph.outData, lastErr := u.ph.lastErr } }) := by
  refine ⟨fun p q hne => by rw [getQueue_writeRes, hf.queue p q hne], hf.masked, by rw [hf.ph], by rw [hf.ph],
    by rw [hf.ph], hf.ie, hf.log, hf.cmds, by rw [hf.pd], fun hq => ?_⟩
  conv_lhs => rw [(hquiet hq).eq]
  rfl

/-- Settles O48: both commands are sequences of micro-steps, under every schedule and in a quiet one. -/
theorem stCommandsFrame : Obligations.StCommandsFrame := by
  intro i s t hi h
  obtain rfl := exec_next_iff.mp h
  rcases hi with rfl | ⟨c, rfl⟩
  · exact (StFrame.recv s.params s).command _ fun hq => (QuietFrame.microKeeps s.params s).recv (.refl hq)
  · exact (StFrame.send s.params c s).command _ fun hq => (QuietFrame.microKeeps s.params s).send c (.refl hq)

end Sys2Proof.Machine
end

/-! ## Proofs: ST_SEND (43_selftimed_engine.md R172 to R176, R185) -/

section

namespace Sys2Proof.Machine

/-! ### The trace of the pulses -/

/-- The trace of the bits `l`, each with its pulse (R185). -/
def pulsesTrace (P : Params) (l : List Bool) : List WireEvent :=
  l.flatMap (fun b => .drive .ph .data b :: pulseTrace P)

theorem sendTrace_eq (P : Params) (c : Byte) : sendTrace P c = pulsesTrace P (wireFrame c) := rfl

theorem pulsesTrace_append (P : Params) (l m : List Bool) :
    pulsesTrace P (l ++ m) = pulsesTrace P l ++ pulsesTrace P m := by
  simp [pulsesTrace]

/-- Six entries for each bit. -/
theorem pulsesTrace_take (P : Params) (l : List Bool) (k : Nat) :
    (pulsesTrace P l).take (6 * k) = pulsesTrace P (l.take k) := by
  induction l generalizing k with
  | nil => simp [pulsesTrace]
  | cons b l ih =>
    cases k with
    | zero => rfl
    | succ k =>
      have hcons : ∀ m : List Bool, pulsesTrace P (b :: m) = (.drive .ph .data b :: pulseTrace P) ++ pulsesTrace P m :=
        fun _ => rfl
      rw [List.take_succ_cons, hcons, hcons, ← ih, show 6 * (k + 1) = (WireEvent.drive .ph .data b :: pulseTrace P).length
        + 6 * k by simp [pulseTrace]; omega, List.take_length_add_append]

theorem wireFrame_length (c : Byte) : (wireFrame c).length = 11 := rfl

/-- Bit-time `i` of a frame. -/
def wireBit (c : Byte) (i : Nat) : Bool := (wireFrame c).getD i true

theorem stFrame_getLsbD_eq_wireBit (c : Byte) {i : Nat} (hi : i < 11) : (stFrame c).getLsbD i = wireBit c i := by
  rw [wireBit, List.getD_eq_getElem?_getD, ← stFrame_wire c hi]
  rfl

theorem wireFrame_take_succ (c : Byte) {i : Nat} (hi : i < 11) :
    (wireFrame c).take (i + 1) = (wireFrame c).take i ++ [wireBit c i] := by
  rw [List.take_add_one, ← stFrame_wire c hi, stFrame_getLsbD_eq_wireBit c hi]
  rfl

theorem dataReleasedAt_succ (c : Byte) (i : Nat) : dataReleasedAt c (i + 1) = wireBit c i := rfl

/-! ### The send loop at the checks before a pulse -/

/-- The send of `c` that began in `s0` stands before the checks of pulse `i`: what it has driven, and no error yet. -/
structure AtBit (P : Params) (c : Byte) (s0 : State) (i : Nat) (s : State) : Prop where
  index : s.st.i = i
  frame : s.st.frame = stFrame c
  err : s.ph.lastErr = s0.ph.lastErr
  trace : phTrace s = phTrace s0 ++ pulsesTrace P ((wireFrame c).take i)

/-- So stands a send that began with PH released: the clock is released, and DATA shows the bit sent last. -/
structure AtPulse (P : Params) (c : Byte) (s0 : State) (i : Nat) (s : State) : Prop extends AtBit P c s0 i s where
  clk : s.ph.outClk = true
  data : s.ph.outData = dataReleasedAt c i

theorem AtBit.begin (P : Params) (c : Byte) (s : State) : AtBit P c s 0 (micro P .begin (stBeginSend c) s) := by
  obtain ⟨-, -, herr⟩ := (micro_frame P .begin (stBeginSend c) s).phOut
  refine ⟨by rw [micro_st]; rfl, by rw [micro_st]; rfl, herr, ?_⟩
  rw [phTrace_micro]
  simp [phTrace, pulsesTrace]

theorem AtPulse.begin {P : Params} (c : Byte) {s : State} (h : phDriversReleased s) :
    AtPulse P c s 0 (micro P .begin (stBeginSend c) s) := by
  obtain ⟨hclk, hdata, -⟩ := (micro_frame P .begin (stBeginSend c) s).phOut
  exact ⟨.begin P c s, hclk.trans h.1, hdata.trans h.2⟩

/-- The checks move nothing but the position. -/
theorem AtBit.check {P : Params} {c : Byte} {s0 s : State} {i : Nat} (h : AtBit P c s0 i s) :
    AtBit P c s0 i (stCheck P s).2 := by
  obtain ⟨-, ⟨pc, hst⟩, -, -, herr⟩ := stCheck_cases P s
  refine ⟨by rw [hst]; exact h.index, by rw [hst]; exact h.frame, herr.trans h.err, ?_⟩
  rw [← h.trace]
  rcases stCheck_split P s with ⟨-, e⟩ | ⟨-, -, e⟩ | ⟨-, -, -, e⟩ | ⟨-, -, -, e⟩ <;> rw [e]
  · exact phTrace_micro ..
  · exact phTrace_micro ..
  · exact (phTrace_micro ..).trans (phTrace_micro ..)
  · exact (phTrace_micro ..).trans (phTrace_micro ..)

theorem AtPulse.check {P : Params} {c : Byte} {s0 s : State} {i : Nat} (h : AtPulse P c s0 i s) :
    AtPulse P c s0 i (stCheck P s).2 := by
  obtain ⟨-, -, hclk, hdata, -⟩ := stCheck_cases P s
  exact ⟨h.toAtBit.check, hclk.trans h.clk, hdata.trans h.data⟩

/-- The bit and its pulse. -/
theorem AtBit.driveBit {P : Params} {c : Byte} {s0 t : State} {i : Nat} (hi : i < 11) (h : AtBit P c s0 i t) :
    (∃ pc, (stDriveBit P t).st = { t.st with pc := pc }) ∧ (stDriveBit P t).ph.outClk = true ∧
    (stDriveBit P t).ph.outData = wireBit c i ∧ (stDriveBit P t).ph.lastErr = s0.ph.lastErr ∧
    phTrace (stDriveBit P t) = phTrace s0 ++ pulsesTrace P ((wireFrame c).take (i + 1)) := by
  have hbit : t.st.frame.getLsbD t.st.i = wireBit c i := by
    rw [h.index, h.frame, stFrame_getLsbD_eq_wireBit c hi]
  obtain ⟨-, hdata, herr⟩ := (micro_frame P .driveData (driveWire .ph .data (t.st.frame.getLsbD t.st.i)) t).phOut
  obtain ⟨⟨pc, hst⟩, hclk', hdata', herr'⟩ := clockPulse_out P (micro P .driveData (driveWire .ph .data
    (t.st.frame.getLsbD t.st.i)) t)
  refine ⟨⟨pc, ?_⟩, hclk', ?_, ?_, ?_⟩
  · rw [stDriveBit, hst, micro_st]
    simp
  · rw [stDriveBit, hdata', hdata, hbit]
    rfl
  · rw [stDriveBit, herr', herr]
    exact h.err
  · rw [phTrace_stDriveBit, h.trace, hbit, wireFrame_take_succ c hi, pulsesTrace_append, List.append_assoc]
    simp [pulsesTrace]

/-- The step of ST.i moves the index only. -/
theorem micro_advance_out (P : Params) (u : State) :
    (micro P .advance stAdvance u).st = { u.st with i := u.st.i + 1, pc := .advance } ∧
    (micro P .advance stAdvance u).ph.outClk = u.ph.outClk ∧ (micro P .advance stAdvance u).ph.outData = u.ph.outData ∧
    (micro P .advance stAdvance u).ph.lastErr = u.ph.lastErr ∧ phTrace (micro P .advance stAdvance u) = phTrace u := by
  obtain ⟨hclk, hdata, herr⟩ := (micro_frame P .advance stAdvance u).phOut
  exact ⟨micro_st .., hclk, hdata, herr, phTrace_micro ..⟩

/-- After a pulse and the step of ST.i the send stands before the next pulse, with PH's clock released. -/
theorem AtBit.advance {P : Params} {c : Byte} {s0 t : State} {i : Nat} (hi : i < 11) (h : AtBit P c s0 i t) :
    AtPulse P c s0 (i + 1) (micro P .advance stAdvance (stDriveBit P t)) := by
  obtain ⟨⟨pc, hst⟩, hclk, hdata, herr, htrace⟩ := h.driveBit hi
  obtain ⟨hst', hclk', hdata', herr', htrace'⟩ := micro_advance_out P (stDriveBit P t)
  refine ⟨⟨?_, ?_, herr'.trans herr, htrace'.trans htrace⟩, hclk'.trans hclk, hdata'.trans hdata⟩
  · rw [hst', hst]
    exact congrArg (· + 1) h.index
  · rw [hst', hst]
    exact h.frame

/-! ### The outcomes of a send (R175, R176) -/

/-- How a send of `c` that began in `s0` can end: ST is not busy; with OK it has driven the whole frame and recorded no
error, with an abort at pulse `j` it has driven `j` bits, released DATA and recorded why. -/
structure SendOutcome (P : Params) (c : Byte) (s0 : State) (r : State × CmdResult) : Prop where
  idle : r.1.st.busy = false
  result : (r.2 = ⟨.ok, false, 11⟩ ∧ r.1.ph.lastErr = s0.ph.lastErr ∧
      phTrace r.1 = phTrace s0 ++ sendTrace P c) ∨
    ∃ e j, (e = .inhibited ∨ e = .rts) ∧ j ≤ 10 ∧ r.2 = ⟨e, false, BitVec.ofNat 16 j⟩ ∧
      r.1.ph.lastErr = statusCode e ∧
      phTrace r.1 = phTrace s0 ++ pulsesTrace P ((wireFrame c).take j) ++ [.drive .ph .data true]

/-- So ends a send that began with PH released: PH is released again. -/
structure SendEnd (P : Params) (c : Byte) (s0 : State) (r : State × CmdResult) : Prop extends SendOutcome P c s0 r where
  released : phDriversReleased r.1

theorem AtBit.abort {P : Params} {c : Byte} {s0 t : State} {i : Nat} {e : Status} (hi : i ≤ 10)
    (he : e = .inhibited ∨ e = .rts) (h : AtBit P c s0 i t) :
    (stAbort P e t).2 = ⟨e, false, BitVec.ofNat 16 i⟩ ∧ SendOutcome P c s0 (stAbort P e t) := by
  have hindex : (stAbort P e t).2 = ⟨e, false, BitVec.ofNat 16 i⟩ := by
    simp [stAbort, micro_st, h.index]
  refine ⟨hindex, rfl, .inr ⟨e, i, he, hi, hindex, rfl, ?_⟩⟩
  rw [← h.trace, ← phTrace_micro_drive P .release .data true t]
  rfl

/-- An abort releases DATA and leaves the clock. -/
theorem stAbort_released {P : Params} {e : Status} {t : State} (h : t.ph.outClk = true) :
    phDriversReleased (stAbort P e t).1 := by
  obtain ⟨hclk, hdata, -⟩ := (micro_frame P .release (setHigh .ph .data) t).phOut
  exact ⟨hclk.trans h, hdata⟩

/-- The end of a send whose checks all passed. -/
theorem sendOutcome_finished {P : Params} {c : Byte} {s0 u : State} (herr : u.ph.lastErr = s0.ph.lastErr)
    (htrace : phTrace u = phTrace s0 ++ sendTrace P c) : SendOutcome P c s0 (stFinish u, ⟨.ok, false, 11⟩) :=
  ⟨rfl, .inl ⟨rfl, herr, htrace⟩⟩

/-- The send loop from the checks of pulse `i` on, by induction on the pulses left. -/
theorem AtBit.sendLoop {P : Params} {c : Byte} {s0 : State} : ∀ (more : Nat) {s : State} {i : Nat}, i + more = 10 →
    AtBit P c s0 i s → SendOutcome P c s0 (stSendLoop P more s) := by
  intro more
  induction more with
  | zero =>
    intro s i hi h
    obtain ⟨hwhy, -⟩ := stCheck_cases P s
    have hcheck := h.check
    rcases hx : stCheck P s with ⟨_ | e, t⟩ <;> rw [hx] at hwhy hcheck
    · obtain ⟨-, -, -, herr, htrace⟩ := hcheck.driveBit (by omega)
      rw [stSendLoop_last hx]
      obtain rfl : i = 10 := hi
      exact sendOutcome_finished herr htrace
    · rw [stSendLoop_abort hx]
      exact (hcheck.abort (by omega) (by simpa using hwhy)).2
  | succ n ih =>
    intro s i hi h
    obtain ⟨hwhy, -⟩ := stCheck_cases P s
    have hcheck := h.check
    rcases hx : stCheck P s with ⟨_ | e, t⟩ <;> rw [hx] at hwhy hcheck
    · rw [stSendLoop_more hx]
      exact ih (by omega) (hcheck.advance (by omega)).toAtBit
    · rw [stSendLoop_abort hx]
      exact (hcheck.abort (by omega) (by simpa using hwhy)).2

/-- The send loop ends with PH released if it began so. -/
theorem AtPulse.sendLoop_released {P : Params} {c : Byte} {s0 : State} : ∀ (more : Nat) {s : State} {i : Nat},
    i + more = 10 → AtPulse P c s0 i s → phDriversReleased (stSendLoop P more s).1 := by
  intro more
  induction more with
  | zero =>
    intro s i hi h
    have hcheck := h.check
    rcases hx : stCheck P s with ⟨_ | e, t⟩ <;> rw [hx] at hcheck
    · obtain ⟨-, hclk, hdata, -⟩ := hcheck.driveBit (by omega)
      rw [stSendLoop_last hx]
      obtain rfl : i = 10 := hi
      exact ⟨hclk, hdata⟩
    · rw [stSendLoop_abort hx]
      exact stAbort_released hcheck.clk
  | succ n ih =>
    intro s i hi h
    have hcheck := h.check
    rcases hx : stCheck P s with ⟨_ | e, t⟩ <;> rw [hx] at hcheck
    · rw [stSendLoop_more hx]
      exact ih (by omega) (hcheck.advance (by omega))
    · rw [stSendLoop_abort hx]
      exact stAbort_released hcheck.clk

/-- Every send. -/
theorem stSend_outcome (P : Params) (c : Byte) (s : State) : SendOutcome P c s (stSend P c s) :=
  (AtBit.begin P c s).sendLoop 10 rfl

/-- Every send that starts with PH released. -/
theorem stSend_end (P : Params) (c : Byte) {s : State} (h : phDriversReleased s) : SendEnd P c s (stSend P c s) :=
  ⟨stSend_outcome P c s, (AtPulse.begin c h).sendLoop_released 10 rfl⟩

/-- Settles O43: the ends of a send, read from RES. -/
theorem stSendAlwaysEndsClean : Obligations.StSendAlwaysEndsClean := by
  intro c s h
  obtain ⟨⟨hidle, hresult⟩, hreleased⟩ := stSend_end s.params c h
  refine ⟨_, exec_eq _ _, hreleased, hidle, ?_⟩
  simp only [after, writeRes_res, resNv_packRes, resStatus_packRes, resValue_packRes, writeRes_ph]
  rcases hresult with ⟨hr, herr, -⟩ | ⟨e, j, he, hj, hr, herr, -⟩ <;> rw [hr, herr]
  · exact ⟨rfl, .inl ⟨rfl, rfl, rfl⟩⟩
  · have hvalue : (BitVec.ofNat 16 j).toNat ≤ 10 := by
      rw [BitVec.toNat_ofNat]
      exact (Nat.mod_le _ _).trans hj
    rcases he with rfl | rfl
    · exact ⟨rfl, .inr (.inl ⟨rfl, hvalue, rfl⟩)⟩
    · exact ⟨rfl, .inr (.inr ⟨rfl, hvalue, rfl⟩)⟩

/-! ### Before a still computer -/

/-- The checks before a still computer, by its levels (R173, R174). -/
theorem stCheck_still {P : Params} {c : Byte} {s0 s : State} {i : Nat} (h : AtPulse P c s0 i s) (hs : computerStill s) :
    (stCheck P s).1 = if s.ph.extClk = false then some .inhibited
      else if dataReleasedAt c i = true ∧ s.ph.extData = false then some .rts else none := by
  have hread : readWire .ph .clk s = s.ph.extClk := by simp [h.clk]
  have hafter : (afterClkRead P s).ph = s.ph := (yieldTurn_still (P := P) (s := atPc .readClk s) hs).2
  have hread' : readWire .ph .data (afterClkRead P s) = (dataReleasedAt c i && s.ph.extData) := by
    simp [hafter, h.data]
  rcases stCheck_split P s with ⟨hclk, e⟩ | ⟨hclk, hout, e⟩ | ⟨hclk, hout, hdata, e⟩ | ⟨hclk, hout, hdata, e⟩ <;>
    rw [e]
  · rw [if_pos (hread ▸ hclk)]
  · rw [hafter, h.data] at hout
    rw [if_neg (by simp [← hread, hclk]), if_neg (by simp [hout])]
  · rw [hafter, h.data] at hout
    rw [hread', hout, Bool.true_and] at hdata
    rw [if_neg (by simp [← hread, hclk]), if_pos ⟨hout, hdata⟩]
  · rw [hafter, h.data] at hout
    rw [hread', hout, Bool.true_and] at hdata
    rw [if_neg (by simp [← hread, hclk]), if_neg (by simp [hdata])]

/-- A check keeps a still computer's levels. -/
theorem StFrame.check (P : Params) (s : State) : StFrame s (stCheck P s).2 :=
  (StFrame.microKeeps P s).check (.refl s)

theorem StFrame.micro_advance (P : Params) (u : State) : StFrame u (micro P .advance stAdvance u) := by
  have hwrite : StFrame u (stAdvance (atPc .advance u)) :=
    ⟨rfl, rfl, fun _ => rfl, rfl, rfl, rfl, rfl, fun h => ⟨h, rfl, rfl⟩⟩
  exact hwrite.trans (.yield P (stAdvance (atPc .advance u)))

theorem StFrame.driveBit (P : Params) (t : State) : StFrame t (stDriveBit P t) :=
  (StFrame.microKeeps P t).pulse ((StFrame.microKeeps P t).micro _ ((StFrame.microKeeps P t).drive _ _) (.refl t))

theorem StFrame.advance (P : Params) (t : State) : StFrame t (micro P .advance stAdvance (stDriveBit P t)) :=
  (StFrame.driveBit P t).trans (.micro_advance P _)

/-- Before a still computer that holds the clock low the send ends at these checks with INHIBITED. -/
theorem AtPulse.inhibited {P : Params} {c : Byte} {s0 s : State} {i more : Nat} (h : AtPulse P c s0 i s)
    (hi : i ≤ 10) (hs : computerStill s) (hclk : s.ph.extClk = false) :
    (stSendLoop P more s).2 = ⟨.inhibited, false, BitVec.ofNat 16 i⟩ := by
  have hwhy := stCheck_still h hs
  rw [if_pos hclk] at hwhy
  have hcheck := h.check
  rcases hx : stCheck P s with ⟨e, t⟩
  rw [hx] at hwhy hcheck
  obtain rfl : e = some .inhibited := hwhy
  rw [stSendLoop_abort hx]
  exact (hcheck.abort hi (.inl rfl)).1

/-- Before a still computer with its clock released the checks of a pulse pass, unless DATA is released and low. -/
theorem AtPulse.passes {P : Params} {c : Byte} {s0 s : State} {i : Nat} (h : AtPulse P c s0 i s)
    (hs : computerStill s) (hclk : s.ph.extClk = true) (hdata : dataReleasedAt c i = true → s.ph.extData = true) :
    ∃ t, stCheck P s = (none, t) ∧ StFrame s t ∧ AtPulse P c s0 i t := by
  have hwhy := stCheck_still h hs
  rw [if_neg (by simp [hclk]), if_neg (by rintro ⟨hout, hlow⟩; simp [hdata hout] at hlow)] at hwhy
  have hcheck := h.check
  have hframe := StFrame.check P s
  rcases hx : stCheck P s with ⟨e, t⟩
  rw [hx] at hwhy hcheck hframe
  obtain rfl : e = none := hwhy
  exact ⟨t, rfl, hframe, hcheck⟩

/-- Before a still computer with its clock released the send goes on to the end while no check finds DATA released and
low. -/
theorem AtPulse.sends {P : Params} {c : Byte} {s0 : State} : ∀ (more : Nat) {s : State} {i : Nat}, i + more = 10 →
    AtPulse P c s0 i s → computerStill s → s.ph.extClk = true →
    (∀ k, i ≤ k → k ≤ 10 → dataReleasedAt c k = true → s.ph.extData = true) →
    (stSendLoop P more s).2 = ⟨.ok, false, 11⟩ := by
  intro more
  induction more with
  | zero =>
    intro s i hi h hs hclk hdata
    obtain ⟨t, hx, -, -⟩ := h.passes hs hclk (hdata i le_rfl (by omega))
    rw [stSendLoop_last hx]
  | succ n ih =>
    intro s i hi h hs hclk hdata
    obtain ⟨t, hx, hframe, hcheck⟩ := h.passes hs hclk (hdata i le_rfl (by omega))
    obtain ⟨hstill, hclk', hdata'⟩ := (hframe.trans (.advance P t)).still hs
    rw [stSendLoop_more hx]
    refine ih (by omega) (hcheck.advance (by omega)) hstill (hclk'.trans hclk) fun k hk hk10 hout => ?_
    exact hdata'.trans (hdata k (by omega) hk10 hout)

/-- Before a still computer that holds only data low the send ends at these checks with RTS, if DATA is released. -/
theorem AtPulse.requested_here {P : Params} {c : Byte} {s0 s : State} {i more : Nat} (h : AtPulse P c s0 i s)
    (hi : i ≤ 10) (hs : computerStill s) (hclk : s.ph.extClk = true) (hdata : s.ph.extData = false)
    (hout : dataReleasedAt c i = true) : (stSendLoop P more s).2 = ⟨.rts, false, BitVec.ofNat 16 i⟩ := by
  have hwhy := stCheck_still h hs
  rw [if_neg (by simp [hclk]), if_pos ⟨hout, hdata⟩] at hwhy
  have hcheck := h.check
  rcases hx : stCheck P s with ⟨e, t⟩
  rw [hx] at hwhy hcheck
  obtain rfl : e = some .rts := hwhy
  rw [stSendLoop_abort hx]
  exact (hcheck.abort hi (.inr rfl)).1

/-- Before a still computer that holds only data low the send ends at the first checks that find DATA released. -/
theorem AtPulse.requested {P : Params} {c : Byte} {s0 : State} : ∀ (more : Nat) {s : State} {i j : Nat}, i + more = 10 →
    i ≤ j → j ≤ 10 → AtPulse P c s0 i s → computerStill s → s.ph.extClk = true → s.ph.extData = false →
    dataReleasedAt c j = true → (∀ k, i ≤ k → k < j → dataReleasedAt c k = false) →
    (stSendLoop P more s).2 = ⟨.rts, false, BitVec.ofNat 16 j⟩ := by
  intro more
  induction more with
  | zero =>
    intro s i j hi hij hj h hs hclk hdata hout _
    obtain rfl : i = j := by omega
    exact h.requested_here (by omega) hs hclk hdata hout
  | succ n ih =>
    intro s i j hi hij hj h hs hclk hdata hout hbefore
    rcases Nat.eq_or_lt_of_le hij with rfl | hlt
    · exact h.requested_here (by omega) hs hclk hdata hout
    · obtain ⟨t, hx, hframe, hcheck⟩ := h.passes hs hclk (by simp [hbefore i le_rfl hlt])
      obtain ⟨hstill, hclk', hdata'⟩ := (hframe.trans (.advance P t)).still hs
      rw [stSendLoop_more hx]
      exact ih (by omega) hlt hj (hcheck.advance (by omega)) hstill (hclk'.trans hclk) (hdata'.trans hdata) hout
        fun k hk hkj => hbefore k (by omega) hkj

/-- From released drivers to released drivers PH changes in LAST_ERR and its external drivers only. -/
theorem StFrame.ph_released {s t : State} (h : StFrame s t) (hs : phDriversReleased s) (ht : phDriversReleased t) :
    t.ph = { s.ph with lastErr := t.ph.lastErr, extClk := t.ph.extClk, extData := t.ph.extData } := by
  have hclk : t.ph.outClk = s.ph.outClk := ht.1.trans hs.1.symm
  have hdata : t.ph.outData = s.ph.outData := ht.2.trans hs.2.symm
  have hph := h.ph
  rwa [hclk, hdata] at hph

/-- A quiet E_ST command that leaves PH as it was. -/
theorem QuietFrame.eq_of_ph {s u : State} {l : List WireEvent} (h : QuietFrame s u) (hph : u.ph = s.ph)
    (hl : phTrace u = phTrace s ++ l) : u = { s with wtrace := s.wtrace ++ l, st := u.st } := by
  have heq := h.eq
  rwa [hph, h.wtrace hl] at heq

/-- The begin of a send is framed, and its computer still. -/
theorem StFrame.begin (P : Params) (c : Byte) (s : State) : StFrame s (micro P .begin (stBeginSend c) s) := by
  have hwrite : StFrame s (stBeginSend c (atPc .begin s)) :=
    ⟨rfl, rfl, fun _ => rfl, rfl, rfl, rfl, rfl, fun h => ⟨h, rfl, rfl⟩⟩
  exact hwrite.trans (.yield P (stBeginSend c (atPc .begin s)))

theorem sendEnd_ok {P : Params} {c : Byte} {s0 : State} {r : State × CmdResult} (h : SendEnd P c s0 r)
    (hr : r.2 = ⟨.ok, false, 11⟩) :
    r.1.ph.lastErr = s0.ph.lastErr ∧ phTrace r.1 = phTrace s0 ++ sendTrace P c := by
  rcases h.result with ⟨-, hok⟩ | ⟨e, j, he, -, hr', -⟩
  · exact hok
  · rw [hr] at hr'
    rcases he with rfl | rfl <;> cases hr'

theorem sendEnd_abort {P : Params} {c : Byte} {s0 : State} {r : State × CmdResult} {e : Status} {j : Nat}
    (h : SendEnd P c s0 r) (hj : j ≤ 10) (he : e ≠ .ok) (hr : r.2 = ⟨e, false, BitVec.ofNat 16 j⟩) :
    r.1.ph.lastErr = statusCode e ∧
      phTrace r.1 = phTrace s0 ++ pulsesTrace P ((wireFrame c).take j) ++ [.drive .ph .data true] := by
  rcases h.result with ⟨hr', -⟩ | ⟨e', j', -, hj', hr', herr, htrace⟩
  · rw [hr] at hr'
    injection hr' with hr' _ _
    exact absurd hr' he
  · rw [hr] at hr'
    injection hr' with hstatus _ hvalue
    have hjj : j = j' := by
      have hnat := congrArg BitVec.toNat hvalue
      rw [BitVec.toNat_ofNat, BitVec.toNat_ofNat] at hnat
      omega
    subst hstatus hjj
    exact ⟨herr, htrace⟩

/-- A send to a still computer that has both drivers released. -/
theorem stSend_passive (P : Params) (c : Byte) {s : State} (hs : computerStill s) (hcomputer : computerReleased s)
    (hreleased : phDriversReleased s) : (stSend P c s).2 = ⟨.ok, false, 11⟩ ∧ (stSend P c s).1.ph = s.ph ∧
      phTrace (stSend P c s).1 = phTrace s ++ sendTrace P c := by
  obtain ⟨hstill, hclk, hdata⟩ := (StFrame.begin P c s).still hs
  have hok : (stSend P c s).2 = ⟨.ok, false, 11⟩ := (AtPulse.begin c hreleased).sends 10 rfl hstill
    (hclk.trans hcomputer.1) fun _ _ _ _ => hdata.trans hcomputer.2
  have hend := stSend_end P c hreleased
  obtain ⟨herr, htrace⟩ := sendEnd_ok hend hok
  obtain ⟨-, hclk', hdata'⟩ := (StFrame.send P c s).still hs
  refine ⟨hok, ?_, htrace⟩
  rw [(StFrame.send P c s).ph_released hreleased hend.released, herr, hclk', hdata']

theorem packRes_sent : packRes ⟨.ok, false, 11⟩ = 0x0000000B := by decide

/-- Settles O41: no check fails, so every bit is driven; in a quiet run nothing but E_ST's own writes happens. -/
theorem stSendDrivesWholeFrame : Obligations.StSendDrivesWholeFrame := by
  intro c s hs hcomputer hreleased
  obtain ⟨hok, hph, htrace⟩ := stSend_passive s.params c hs hcomputer hreleased
  have hframe := StFrame.send s.params c s
  have hres : (after (.stSend c) s).res = 0x0000000B := by rw [after, hok]; exact packRes_sent
  refine ⟨_, exec_eq _ _, hres, hph, htrace, (stSend_end s.params c hreleased).idle, hframe.log, hframe.ie, hframe.cmds,
    fun hq => ?_⟩
  have hquiet := (QuietFrame.microKeeps s.params s).send c (.refl hq)
  rw [after, hok]
  conv_lhs => rw [hquiet.eq_of_ph hph htrace]
  rfl

/-! ### A pull before the checks of a pulse -/

/-- `n` boundaries with only CTRL's turns: they are taken off the schedule, and PH's external drivers stay. -/
def Undisturbed (n : Nat) (s t : State) : Prop := ∀ rest, s.sched = List.replicate n .ctrl ++ rest →
  t.sched = rest ∧ t.ph.extClk = s.ph.extClk ∧ t.ph.extData = s.ph.extData

theorem Undisturbed.trans {m n : Nat} {s t u : State} (h : Undisturbed m s t) (g : Undisturbed n t u) :
    Undisturbed (m + n) s u := by
  intro rest hs
  obtain ⟨ht, hclk, hdata⟩ := h (List.replicate n .ctrl ++ rest) (by rw [hs, List.replicate_add, List.append_assoc])
  obtain ⟨hu, hclk', hdata'⟩ := g rest ht
  exact ⟨hu, hclk'.trans hclk, hdata'.trans hdata⟩

theorem Undisturbed.microStep {P : Params} {pc : MicroPc} {f : State → State} {s : State}
    (hsched : (f (atPc pc s)).sched = s.sched) (hclk : (f (atPc pc s)).ph.extClk = s.ph.extClk)
    (hdata : (f (atPc pc s)).ph.extData = s.ph.extData) : Undisturbed 1 s (micro P pc f s) := by
  intro rest hs
  have hyield : micro P pc f s = { f (atPc pc s) with sched := rest } := by
    rw [micro_eq, yieldTurn, hsched, hs]
    rfl
  rw [hyield]
  exact ⟨rfl, hclk, hdata⟩

theorem Undisturbed.wait (P : Params) (pc : MicroPc) (n : Nat) (s : State) :
    Undisturbed 1 s (micro P pc (waitFor n) s) := .microStep rfl rfl rfl

theorem Undisturbed.drive (P : Params) (pc : MicroPc) (w : Wire) (v : Bool) (s : State) :
    Undisturbed 1 s (micro P pc (driveWire .ph w v) s) := by
  cases w <;> exact .microStep rfl rfl rfl

theorem Undisturbed.pulse (P : Params) (s : State) : Undisturbed 5 s (clockPulse P s) :=
  ((((Undisturbed.wait P .waitSetup _ s).trans (.drive P .clkLow .clk false _)).trans (.wait P .waitLow _ _)).trans
    (.drive P .clkHigh .clk true _)).trans (.wait P .waitHold _ _)

theorem Undisturbed.driveBit (P : Params) (s : State) : Undisturbed 6 s (stDriveBit P s) :=
  (Undisturbed.drive P .driveData .data _ s).trans (.pulse P _)

theorem Undisturbed.read (P : Params) (pc : MicroPc) (s : State) : Undisturbed 1 s (micro P pc id s) :=
  .microStep rfl rfl rfl

/-- How many boundaries the checks and the bit of pulse `i` and the step after it pass (log 8). -/
def pulseBoundaries (c : Byte) (i : Nat) : Nat := if dataReleasedAt c i then 9 else 8

theorem sendBoundaries_succ (c : Byte) (k : Nat) :
    sendBoundaries c (k + 1) = sendBoundaries c k + pulseBoundaries c k := by
  simp [sendBoundaries, pulseBoundaries, List.range_succ]

theorem sendBoundaries_lt (c : Byte) {i k : Nat} (h : i < k) :
    sendBoundaries c i + pulseBoundaries c i ≤ sendBoundaries c k := by
  induction k with
  | zero => cases h
  | succ k ih =>
    rw [sendBoundaries_succ]
    rcases Nat.eq_or_lt_of_le (Nat.le_of_lt_succ h) with rfl | hlt
    · exact le_rfl
    · exact (ih hlt).trans (Nat.le_add_right _ _)

/-- Undisturbed checks before a released computer pass, in two boundaries or in one. -/
theorem AtPulse.passes_undisturbed {P : Params} {c : Byte} {s0 s : State} {i : Nat} {rest : List Turn}
    (h : AtPulse P c s0 i s) (hcomputer : computerReleased s)
    (hs : s.sched = List.replicate (pulseBoundaries c i - 7) .ctrl ++ rest) :
    ∃ t, stCheck P s = (none, t) ∧ t.sched = rest ∧ computerReleased t := by
  have hread : readWire .ph .clk s = true := by simp [h.clk, hcomputer.1]
  have hout : (afterClkRead P s).ph.outData = dataReleasedAt c i := (afterClkRead_out P s).2.2.1.trans h.data
  have hone := Undisturbed.read P .readClk s
  rcases hrel : dataReleasedAt c i with - | -
  · obtain ⟨ht, hclk, hdata⟩ := hone rest (by simpa [pulseBoundaries, hrel] using hs)
    rcases stCheck_split P s with ⟨hlow, -⟩ | ⟨-, -, e⟩ | ⟨-, hhigh, -⟩ | ⟨-, hhigh, -⟩
    · rw [hread] at hlow; cases hlow
    · exact ⟨_, e, ht, hclk.trans hcomputer.1, hdata.trans hcomputer.2⟩
    · rw [hout, hrel] at hhigh; cases hhigh
    · rw [hout, hrel] at hhigh; cases hhigh
  · have htwo := hone.trans (.read P .readData (afterClkRead P s))
    obtain ⟨ht, hclk, hdata⟩ := htwo rest (by simpa [pulseBoundaries, hrel] using hs)
    obtain ⟨-, -, hdata'⟩ := hone (.ctrl :: rest) (by simpa [pulseBoundaries, hrel] using hs)
    rcases stCheck_split P s with ⟨hlow, -⟩ | ⟨-, hlow, -⟩ | ⟨-, -, hlow, -⟩ | ⟨-, -, -, e⟩
    · rw [hread] at hlow; cases hlow
    · rw [hout, hrel] at hlow; cases hlow
    · rw [readWire_ph_data, hout, hrel, afterClkRead, hdata', hcomputer.2] at hlow; cases hlow
    · exact ⟨_, e, ht, hclk.trans hcomputer.1, hdata.trans hcomputer.2⟩

/-- A boundary at which the computer sets its drivers and no other turn is left. -/
theorem micro_pulled {P : Params} {pc : MicroPc} {f : State → State} {s : State} {clk data : Bool}
    (hsched : (f (atPc pc s)).sched = [.envH clk data]) :
    (micro P pc f s).sched = [] ∧ (micro P pc f s).ph.extClk = clk ∧ (micro P pc f s).ph.extData = data := by
  have hyield : micro P pc f s = { edgeTurn P (envHTurn clk data (f (atPc pc s))) with sched := [] } := by
    rw [micro_eq, yieldTurn, hsched]
    rfl
  have hph : ∀ u : State, (edgeTurn P u).ph = u.ph := by
    intro u
    rw [edgeTurn]
    split
    · obtain ⟨r, v, o, e, q, w, hedge, -⟩ := edgeService_frame P u
      rw [hedge]
    · rfl
  rw [hyield]
  refine ⟨rfl, ?_, ?_⟩ <;> rw [hph] <;> rfl

theorem micro_advance_pulled {P : Params} {u : State} {clk data : Bool} (h : u.sched = [.envH clk data]) :
    (micro P .advance stAdvance u).sched = [] ∧ (micro P .advance stAdvance u).ph.extClk = clk ∧
      (micro P .advance stAdvance u).ph.extData = data := micro_pulled h

theorem Undisturbed.advance (P : Params) (u : State) : Undisturbed 1 u (micro P .advance stAdvance u) :=
  .microStep rfl rfl rfl

/-- From the checks of pulse `i` the send comes undisturbed to those of pulse `k`, where the computer pulls. -/
theorem AtPulse.sendLoop_until {P : Params} {c : Byte} {s0 : State} {k : Nat} {clk data : Bool} (hk : k ≤ 10) :
    ∀ (more : Nat) {s : State} {i : Nat}, i + more + 1 = k → AtPulse P c s0 i s → computerReleased s →
    s.sched = List.replicate (sendBoundaries c k - sendBoundaries c i - 1) .ctrl ++ [.envH clk data] →
    ∃ u, stSendLoop P (10 - i) s = stSendLoop P (10 - k) u ∧ AtPulse P c s0 k u ∧ u.sched = [] ∧
      u.ph.extClk = clk ∧ u.ph.extData = data := by
  intro more
  induction more with
  | zero =>
    intro s i hi h hcomputer hs
    obtain rfl : k = i + 1 := by omega
    have hcost : sendBoundaries c (i + 1) - sendBoundaries c i - 1 = (pulseBoundaries c i - 7) + 6 := by
      rw [sendBoundaries_succ, pulseBoundaries]
      split <;> omega
    rw [hcost, List.replicate_add, List.append_assoc] at hs
    obtain ⟨t, hx, ht, hreleased⟩ := h.passes_undisturbed hcomputer hs
    have hcheck := h.check
    rw [hx] at hcheck
    obtain ⟨hbit, -, -⟩ := Undisturbed.driveBit P t _ ht
    obtain ⟨hsched, hclk, hdata⟩ := micro_advance_pulled (P := P) hbit
    refine ⟨_, ?_, hcheck.advance (by omega), hsched, hclk, hdata⟩
    rw [show 10 - i = 10 - (i + 1) + 1 by omega, stSendLoop_more hx]
  | succ n ih =>
    intro s i hi h hcomputer hs
    have hnext := sendBoundaries_lt c (i := i + 1) (k := k) (by omega)
    have hcost : sendBoundaries c k - sendBoundaries c i - 1 =
        (pulseBoundaries c i - 7) + 6 + 1 + (sendBoundaries c k - sendBoundaries c (i + 1) - 1) := by
      have hpos : 8 ≤ pulseBoundaries c i ∧ 8 ≤ pulseBoundaries c (i + 1) := by
        unfold pulseBoundaries
        split <;> split <;> omega
      rw [sendBoundaries_succ] at *
      omega
    rw [hcost, List.replicate_add, List.replicate_add, List.replicate_add, List.append_assoc, List.append_assoc,
      List.append_assoc] at hs
    obtain ⟨t, hx, ht, hreleased⟩ := h.passes_undisturbed hcomputer hs
    have hcheck := h.check
    rw [hx] at hcheck
    obtain ⟨hsched, hclk, hdata⟩ := (Undisturbed.driveBit P t).trans (.advance P _) _
      (ht.trans (by rw [List.replicate_add, List.append_assoc]))
    obtain ⟨u, hu, hrest⟩ := ih (by omega) (hcheck.advance (by omega))
      ⟨hclk.trans hreleased.1, hdata.trans hreleased.2⟩ hsched
    refine ⟨u, ?_, hrest⟩
    rw [show 10 - i = 10 - (i + 1) + 1 by omega, stSendLoop_more hx, hu]

/-- A send comes undisturbed to the checks of pulse `k`, where the computer pulls. -/
theorem stSend_until {P : Params} (c : Byte) {s : State} {k : Nat} {clk data : Bool} (hk : k ≤ 10)
    (hs : s.sched = pullBefore c k clk data) (hcomputer : computerReleased s) (hreleased : phDriversReleased s) :
    ∃ u, stSend P c s = stSendLoop P (10 - k) u ∧ AtPulse P c s k u ∧ u.sched = [] ∧ u.ph.extClk = clk ∧
      u.ph.extData = data := by
  have hbegin := AtPulse.begin (P := P) c hreleased
  cases k with
  | zero =>
    obtain ⟨hsched, hclk, hdata⟩ := micro_pulled (P := P) (pc := .begin) (f := stBeginSend c) (s := s) hs
    exact ⟨_, rfl, hbegin, hsched, hclk, hdata⟩
  | succ k =>
    have hpos : sendBoundaries c (k + 1) = 1 + (sendBoundaries c (k + 1) - sendBoundaries c 0 - 1) := by
      have hlt := sendBoundaries_lt c (i := 0) (k := k + 1) (by omega)
      have hcost : 8 ≤ pulseBoundaries c 0 := by unfold pulseBoundaries; split <;> omega
      have hzero : sendBoundaries c 0 = 0 := rfl
      omega
    have hone : Undisturbed 1 s (micro P .begin (stBeginSend c) s) := .microStep rfl rfl rfl
    rw [pullBefore, hpos, List.replicate_add, List.append_assoc] at hs
    obtain ⟨hsched, hclk, hdata⟩ := hone _ hs
    exact hbegin.sendLoop_until hk k (by omega) ⟨hclk.trans hcomputer.1, hdata.trans hcomputer.2⟩ hsched

/-- What a send answers is what RES holds: the status, and the pulses as VALUE (10_state.md R21). -/
theorem packRes_aborted {j : Nat} (hj : j ≤ 10) :
    packRes ⟨.inhibited, false, BitVec.ofNat 16 j⟩ = BitVec.ofNat 32 (0x50000000 + j) ∧
    packRes ⟨.rts, false, BitVec.ofNat 16 j⟩ = BitVec.ofNat 32 (0x60000000 + j) := by
  interval_cases j <;> decide

/-- A send that aborts at pulse `j`, in the terms of the claims. -/
theorem exec_stSend_abort {c : Byte} {s : State} {e : Status} {j : Nat} (hreleased : phDriversReleased s) (hj : j ≤ 10)
    (he : e ≠ .ok) (hr : (stSend s.params c s).2 = ⟨e, false, BitVec.ofNat 16 j⟩) :
    ∃ t, exec (.stSend c) s = .next t ∧ t.res = packRes ⟨e, false, BitVec.ofNat 16 j⟩ ∧
      t.ph = { s.ph with lastErr := statusCode e, extClk := t.ph.extClk, extData := t.ph.extData } ∧
      t.ph.extClk = (stSend s.params c s).1.ph.extClk ∧ t.ph.extData = (stSend s.params c s).1.ph.extData ∧
      phTrace t = phTrace s ++ (sendTrace s.params c).take (6 * j) ++ [.drive .ph .data true] ∧ t.st.busy = false := by
  have hend := stSend_end s.params c hreleased
  obtain ⟨herr, htrace⟩ := sendEnd_abort hend hj he hr
  refine ⟨_, exec_eq _ _, by rw [after, hr]; rfl, ?_, rfl, rfl, ?_, hend.idle⟩
  · rw [← herr]
    exact (StFrame.send s.params c s).ph_released hreleased hend.released
  · rw [sendTrace_eq, pulsesTrace_take]
    exact htrace

/-- A send that completes, in the terms of the claims. -/
theorem exec_stSend_ok {c : Byte} {s : State} (hreleased : phDriversReleased s)
    (hr : (stSend s.params c s).2 = ⟨.ok, false, 11⟩) :
    ∃ t, exec (.stSend c) s = .next t ∧ t.res = 0x0000000B ∧
      t.ph = { s.ph with extClk := t.ph.extClk, extData := t.ph.extData } ∧
      t.ph.extClk = (stSend s.params c s).1.ph.extClk ∧ t.ph.extData = (stSend s.params c s).1.ph.extData ∧
      phTrace t = phTrace s ++ sendTrace s.params c ∧ t.st.busy = false := by
  have hend := stSend_end s.params c hreleased
  obtain ⟨herr, htrace⟩ := sendEnd_ok hend hr
  refine ⟨_, exec_eq _ _, by rw [after, hr]; exact packRes_sent, ?_, rfl, rfl, htrace, hend.idle⟩
  have hph := (StFrame.send s.params c s).ph_released hreleased hend.released
  rw [herr] at hph
  exact hph

/-- A still computer's levels at the end of a send loop are those at its checks. -/
theorem AtPulse.levels {P : Params} {c : Byte} {s0 u : State} {k : Nat} (hk : k ≤ 10) (h : AtPulse P c s0 k u)
    (hs : u.sched = []) : (stSendLoop P (10 - k) u).1.ph.extClk = u.ph.extClk ∧
      (stSendLoop P (10 - k) u).1.ph.extData = u.ph.extData :=
  (((StFrame.microKeeps P u).sendLoop (10 - k) u (by rw [h.index]; omega) (.refl u)).still (by simp [computerStill, hs])).2

/-- Settles O42: the first checks before a computer that pulls from the start, and the first checks that find its pull
before one that pulls later. -/
theorem stSendAbortsBeforeAnyPulse : Obligations.StSendAbortsBeforeAnyPulse := by
  refine ⟨fun c s hs hreleased => ?_, fun c s k clk data hk hsched hcomputer hreleased => ?_⟩
  · obtain ⟨hstill, hclk, hdata⟩ := (StFrame.begin s.params c s).still hs
    obtain ⟨-, hclk', hdata'⟩ := (StFrame.send s.params c s).still hs
    have hbegin := AtPulse.begin (P := s.params) c hreleased
    refine ⟨fun hlow => ?_, fun hhigh hlow => ?_⟩
    · obtain ⟨t, ht, hres, hph, htclk, htdata, htrace, hbusy⟩ := exec_stSend_abort (j := 0) hreleased (by omega)
        (by decide) (hbegin.inhibited (more := 10) (by omega) hstill (hclk.trans hlow))
      rw [htclk, htdata, hclk', hdata'] at hph
      exact ⟨t, ht, hres.trans (by decide), hph, by simpa using htrace, hbusy⟩
    · obtain ⟨t, ht, hres, hph, htclk, htdata, htrace, hbusy⟩ := exec_stSend_abort (j := 0) hreleased (by omega)
        (by decide) (hbegin.requested_here (more := 10) (by omega) hstill (hclk.trans hhigh) (hdata.trans hlow) rfl)
      rw [htclk, htdata, hclk', hdata'] at hph
      exact ⟨t, ht, hres.trans (by decide), hph, by simpa using htrace, hbusy⟩
  · obtain ⟨u, hu, hat, husched, huclk, hudata⟩ := stSend_until (P := s.params) c hk hsched hcomputer hreleased
    have hstill : computerStill u := by simp [computerStill, husched]
    obtain ⟨hendClk, hendData⟩ := hat.levels hk husched
    rw [← hu, huclk] at hendClk
    rw [← hu, hudata] at hendData
    refine ⟨fun hlow => ?_, fun hhigh hlow j hkj hj hout hbefore => ?_, fun hhigh hlow hnone => ?_⟩
    · obtain ⟨t, ht, hres, hph, htclk, htdata, htrace, hbusy⟩ := exec_stSend_abort hreleased hk (by decide)
        (hu ▸ hat.inhibited (more := 10 - k) hk hstill (huclk.trans hlow))
      rw [htclk, htdata, hendClk, hendData] at hph
      exact ⟨t, ht, hres.trans (packRes_aborted hk).1, hph, htrace, hbusy⟩
    · obtain ⟨t, ht, hres, hph, htclk, htdata, htrace, hbusy⟩ := exec_stSend_abort hreleased hj (by decide)
        (hu ▸ hat.requested (10 - k) (by omega) hkj hj hstill (huclk.trans hhigh) (hudata.trans hlow) hout hbefore)
      rw [htclk, htdata, hendClk, hendData, hhigh, hlow, ← hcomputer.1] at hph
      exact ⟨t, ht, hres.trans (packRes_aborted hj).2, hph, htrace, hbusy⟩
    · obtain ⟨t, ht, hres, hph, htclk, htdata, htrace, hbusy⟩ := exec_stSend_ok hreleased
        (hu ▸ hat.sends (10 - k) (by omega) hstill (huclk.trans hhigh) fun i hki hi hout => by
          rw [hnone i hki hi] at hout; cases hout)
      rw [htclk, htdata, hendClk, hendData, hhigh, hlow, ← hcomputer.1] at hph
      exact ⟨t, ht, hres, hph, htrace, hbusy⟩

end Sys2Proof.Machine
end

/-! ## Proofs: ST_RECV (43_selftimed_engine.md R177 to R182) -/

section

namespace Sys2Proof.Machine

/-! ### The receive loop under every schedule -/

/-- The trace of `n` clock pulses. -/
def clocks (P : Params) (n : Nat) : List WireEvent := (List.replicate n (pulseTrace P)).flatten

theorem clocks_succ (P : Params) (n : Nat) : clocks P (n + 1) = clocks P n ++ pulseTrace P := by
  simp [clocks, List.replicate_succ']

theorem unansweredTrace_eq (P : Params) : unansweredTrace P = clocks P P.nRecvMax ++ [.drive .ph .data true] := rfl

/-- The receive that began in `s0` stands at index `i` with `n` pulses driven, and no error yet. -/
structure Receiving (P : Params) (s0 : State) (i n : Nat) (s : State) : Prop where
  index : s.st.i = i
  clk : s.ph.outClk = true
  data : s.ph.outData = s0.ph.outData
  err : s.ph.lastErr = s0.ph.lastErr
  trace : phTrace s = phTrace s0 ++ clocks P n

theorem phTrace_afterSample (P : Params) (s : State) : phTrace (afterSample P s) = phTrace s ++ pulseTrace P :=
  (phTrace_micro ..).trans (phTrace_clockPulse P s)

theorem Receiving.sample {P : Params} {s0 s : State} {i n : Nat} (h : Receiving P s0 i n s) :
    Receiving P s0 i (n + 1) (afterSample P s) := by
  obtain ⟨⟨pc, hst⟩, hclk, hdata, herr⟩ := afterSample_out P s
  refine ⟨?_, hclk, hdata.trans h.data, herr.trans h.err, ?_⟩
  · rw [hst]
    exact h.index
  · rw [phTrace_afterSample, h.trace, clocks_succ, List.append_assoc]

/-- Storing a sample steps the index, and touches neither PH's drivers nor its trace. -/
theorem micro_store_out (P : Params) (b : Bool) (u : State) :
    (micro P .advance (stStore b) u).st.i = u.st.i + 1 ∧
    (micro P .advance (stStore b) u).st.acc = (if u.st.i ≤ 9 then setAccBit u.st.acc (u.st.i - 1) b else u.st.acc) ∧
    (micro P .advance (stStore b) u).ph.outClk = u.ph.outClk ∧
    (micro P .advance (stStore b) u).ph.outData = u.ph.outData ∧
    (micro P .advance (stStore b) u).ph.lastErr = u.ph.lastErr ∧
    phTrace (micro P .advance (stStore b) u) = phTrace u := by
  obtain ⟨heq, hi, -, hacc⟩ := stStore_eq b (atPc .advance u)
  obtain ⟨hclk, hdata, herr⟩ := (micro_frame P .advance (stStore b) u).phOut
  have hst := micro_st P .advance (stStore b) u
  rw [heq] at hclk hdata herr
  refine ⟨by rw [hst, hi]; rfl, by rw [hst, hacc]; rfl, hclk, hdata, herr, ?_⟩
  rw [phTrace_micro]
  exact phTrace_congr (by rw [heq]; rfl)

theorem Receiving.store {P : Params} {s0 u : State} {i n : Nat} (b : Bool) (h : Receiving P s0 i n u) :
    Receiving P s0 (i + 1) n (micro P .advance (stStore b) u) := by
  obtain ⟨hi, -, hclk, hdata, herr, htrace⟩ := micro_store_out P b u
  exact ⟨hi.trans (by rw [h.index]), hclk.trans h.clk, hdata.trans h.data, herr.trans h.err, htrace.trans h.trace⟩

/-- How a receive that began to clock in `s0` can end: the clock released and ST not busy, DATA released if it was; OK
with a byte and no error, or a failure with no value, recorded. -/
structure RecvEnd (s0 : State) (r : State × CmdResult) : Prop where
  idle : r.1.st.busy = false
  clk : r.1.ph.outClk = true
  data : s0.ph.outData = true → r.1.ph.outData = true
  result : (∃ d : Byte, r.2 = ⟨.ok, false, zext16 d⟩ ∧ r.1.ph.lastErr = s0.ph.lastErr) ∨
    ∃ e, (e = .framing ∨ e = .parity) ∧ r.2 = ⟨e, true, 0⟩ ∧ r.1.ph.lastErr = statusCode e

/-- `fail(e)` (R182). -/
theorem stFail_out (P : Params) (e : Status) (u : State) :
    (stFail P e u).2 = ⟨e, true, 0⟩ ∧ (stFail P e u).1.st.busy = false ∧
    (stFail P e u).1.ph.outClk = u.ph.outClk ∧ (stFail P e u).1.ph.outData = true ∧
    (stFail P e u).1.ph.lastErr = statusCode e ∧
    phTrace (stFail P e u).1 = phTrace u ++ [.drive .ph .data true] := by
  obtain ⟨hclk, hdata, -⟩ := (micro_frame P .release (setHigh .ph .data) u).phOut
  exact ⟨rfl, rfl, hclk, hdata, rfl, phTrace_micro_drive P .release .data true u⟩

theorem recvEnd_fail {P : Params} {s0 u : State} {e : Status} (he : e = .framing ∨ e = .parity)
    (hclk : u.ph.outClk = true) : RecvEnd s0 (stFail P e u) := by
  obtain ⟨hr, hidle, hclk', hdata, herr, -⟩ := stFail_out P e u
  exact ⟨hidle, hclk'.trans hclk, fun _ => hdata, .inr ⟨e, he, hr, herr⟩⟩

/-- What the acknowledge drives (R180). -/
def ackTrace (P : Params) : List WireEvent :=
  if P.stRecvAck then [.drive .ph .data false] ++ pulseTrace P ++ [.drive .ph .data true] else []

/-- A micro-step that drives DATA. -/
theorem micro_data_out (P : Params) (pc : MicroPc) (b : Bool) (u : State) :
    (micro P pc (driveWire .ph .data b) u).st = { u.st with pc := pc } ∧
    (micro P pc (driveWire .ph .data b) u).ph.outClk = u.ph.outClk ∧
    (micro P pc (driveWire .ph .data b) u).ph.outData = b ∧
    (micro P pc (driveWire .ph .data b) u).ph.lastErr = u.ph.lastErr ∧
    phTrace (micro P pc (driveWire .ph .data b) u) = phTrace u ++ [.drive .ph .data b] := by
  obtain ⟨hclk, hdata, herr⟩ := (micro_frame P pc (driveWire .ph .data b) u).phOut
  exact ⟨micro_st .., hclk, hdata, herr, phTrace_micro_drive P pc .data b u⟩

/-- The acknowledge, if any, moves the position in ST and releases the clock and, if it was, DATA (R180). -/
theorem afterAck_out (P : Params) (u : State) :
    (∃ pc, (afterAck P u).st = { u.st with pc := pc }) ∧ (u.ph.outClk = true → (afterAck P u).ph.outClk = true) ∧
    (u.ph.outData = true → (afterAck P u).ph.outData = true) ∧ (afterAck P u).ph.lastErr = u.ph.lastErr ∧
    phTrace (afterAck P u) = phTrace u ++ ackTrace P := by
  by_cases hack : P.stRecvAck = true
  · have hack' : afterAck P u = micro P .ackHigh (driveWire .ph .data true)
        (clockPulse P (micro P .ackLow (driveWire .ph .data false) u)) := if_pos hack
    obtain ⟨hst, -, -, herr, htrace⟩ := micro_data_out P .ackLow false u
    obtain ⟨⟨pc, hst'⟩, hclk', -, herr'⟩ := clockPulse_out P (micro P .ackLow (driveWire .ph .data false) u)
    have htrace' := phTrace_clockPulse P (micro P .ackLow (driveWire .ph .data false) u)
    obtain ⟨hst'', hclk'', hdata'', herr'', htrace''⟩ := micro_data_out P .ackHigh true
      (clockPulse P (micro P .ackLow (driveWire .ph .data false) u))
    rw [hack', ackTrace, if_pos hack]
    refine ⟨⟨.ackHigh, by rw [hst'', hst', hst]⟩, fun _ => hclk''.trans hclk', fun _ => hdata'',
      herr''.trans (herr'.trans herr), ?_⟩
    rw [htrace'', htrace', htrace]
    simp
  · rw [afterAck, if_neg hack, ackTrace, if_neg hack]
    exact ⟨⟨u.st.pc, rfl⟩, id, id, rfl, by simp⟩

/-- The good end: OK with the byte, or PARITY. -/
theorem stStopOk_out (P : Params) {u : State} (hclk : u.ph.outClk = true) (hdata : u.ph.outData = true) :
    (stStopOk P u).1.st.busy = false ∧ phDriversReleased (stStopOk P u).1 ∧
    (parityOk u.st.acc = true → (stStopOk P u).2 = ⟨.ok, false, zext16 (u.st.acc.extractLsb' 0 8)⟩ ∧
      (stStopOk P u).1.ph.lastErr = u.ph.lastErr ∧ phTrace (stStopOk P u).1 = phTrace u ++ ackTrace P) ∧
    (parityOk u.st.acc = false → (stStopOk P u).2 = ⟨.parity, true, 0⟩ ∧ (stStopOk P u).1.ph.lastErr = 8 ∧
      phTrace (stStopOk P u).1 = phTrace u ++ ackTrace P ++ [.drive .ph .data true]) := by
  obtain ⟨⟨pc, hst⟩, hclk', hdata', herr, htrace⟩ := afterAck_out P u
  have hacc : (afterAck P u).st.acc = u.st.acc := by rw [hst]
  rcases stStopOk_split P u with ⟨hpar, e⟩ | ⟨hpar, e⟩ <;> rw [hacc] at hpar <;> rw [e, hpar]
  · exact ⟨rfl, ⟨hclk' hclk, hdata' hdata⟩, fun _ => ⟨by rw [hacc], herr, htrace⟩, fun h => by cases h⟩
  · obtain ⟨hr, hidle, hclk'', hdata'', herr'', htrace''⟩ := stFail_out P .parity (afterAck P u)
    exact ⟨hidle, ⟨hclk''.trans (hclk' hclk), hdata''⟩, (fun h => by cases h),
      fun _ => ⟨hr, herr'', by rw [htrace'', htrace]⟩⟩

theorem Receiving.stopOk {P : Params} {s0 u : State} {i n : Nat} (h : Receiving P s0 i n u) :
    RecvEnd s0 (stStopOk P u) := by
  obtain ⟨⟨pc, hst⟩, hclk, hdata, herr, -⟩ := afterAck_out P u
  rcases stStopOk_split P u with ⟨-, e⟩ | ⟨-, e⟩ <;> rw [e]
  · exact ⟨rfl, hclk h.clk, fun h0 => hdata (h.data.trans h0), .inl ⟨_, rfl, herr.trans h.err⟩⟩
  · exact recvEnd_fail (.inr rfl) (hclk h.clk)

/-- The receive loop under every schedule, by induction on the pulses left. -/
theorem Receiving.recvLoop {P : Params} {s0 : State} : ∀ (left : Nat) {s : State} {i n : Nat},
    Receiving P s0 i n s → RecvEnd s0 (stRecvLoop P left s) := by
  intro left
  induction left with
  | zero => intro s i n h; exact recvEnd_fail (.inl rfl) h.clk
  | succ left ih =>
    intro s i n h
    rcases stRecvLoop_split P left s with ⟨-, e⟩ | ⟨-, -, e⟩ | ⟨-, -, e⟩ <;> rw [e]
    · exact ih (h.sample.store _)
    · exact h.sample.stopOk
    · exact recvEnd_fail (.inl rfl) h.sample.clk

/-- Nothing is written before the begin of a receive but the position (R177, R178). -/
structure BeforeRecv (s u : State) : Prop where
  st : ∃ pc, u.st = { s.st with pc := pc }
  ph : u.ph = { s.ph with extClk := u.ph.extClk, extData := u.ph.extData }
  trace : phTrace u = phTrace s

theorem BeforeRecv.read {s u : State} (P : Params) (pc : MicroPc) (h : BeforeRecv s u) :
    BeforeRecv s (micro P pc id u) := by
  obtain ⟨⟨pc', hst⟩, hph, htrace⟩ := h
  refine ⟨⟨pc, ?_⟩, ?_, (phTrace_micro P pc id u).trans htrace⟩
  · rw [micro_st, id, atPc_st, hst]
  · rw [(micro_frame P pc id u).ph, id, atPc_ph, hph]

theorem BeforeRecv.clkRead (P : Params) (s : State) : BeforeRecv s (afterClkRead P s) :=
  .read P .readClk ⟨⟨s.st.pc, rfl⟩, rfl, rfl⟩

theorem BeforeRecv.dataRead (P : Params) (s : State) : BeforeRecv s (afterDataRead P s) :=
  (BeforeRecv.clkRead P s).read P .readData

/-- The begin of a receive, after the reads of its entry guard. -/
theorem Receiving.begin (P : Params) {s : State} (hclk : s.ph.outClk = true) :
    Receiving P s 1 0 (micro P .begin stBeginRecv (afterDataRead P s)) := by
  obtain ⟨-, hclk', hdata', herr'⟩ := afterDataRead_out P s
  obtain ⟨hclk'', hdata'', herr''⟩ := (micro_frame P .begin stBeginRecv (afterDataRead P s)).phOut
  refine ⟨by rw [micro_st]; rfl, (hclk''.trans hclk').trans hclk, hdata''.trans hdata', herr''.trans herr', ?_⟩
  rw [phTrace_micro]
  exact (BeforeRecv.dataRead P s).trace.trans (by simp [clocks])

/-- A receive whose entry guard holds has its clock released. -/
theorem outClk_of_readWire {s : State} (h : readWire .ph .clk s = true) : s.ph.outClk = true := by
  rw [readWire_ph_clk, Bool.and_eq_true] at h
  exact h.1

/-- Every receive: NOFRAME before anything is written, or the end of the receive loop. -/
theorem stRecv_end (P : Params) (s : State) :
    ((stRecv P s).2 = ⟨.noframe, true, 0⟩ ∧ BeforeRecv s (stRecv P s).1) ∨ RecvEnd s (stRecv P s) := by
  rcases stRecv_split P s with ⟨-, e⟩ | ⟨-, -, e⟩ | ⟨hclk, -, e⟩ <;> rw [e]
  · exact .inl ⟨rfl, .clkRead P s⟩
  · exact .inl ⟨rfl, .dataRead P s⟩
  · exact .inr ((Receiving.begin P (outClk_of_readWire hclk)).recvLoop _)

/-- The reads of ST_RECV before a line that is not there: the clock is low, or DATA is high and stays so. -/
theorem stRecv_noFrame (P : Params) {s : State}
    (h : readWire .ph .clk s = false ∨ (computerStill s ∧ readWire .ph .data s = true)) :
    (stRecv P s).2 = ⟨.noframe, true, 0⟩ ∧ BeforeRecv s (stRecv P s).1 := by
  rcases stRecv_split P s with ⟨-, e⟩ | ⟨-, -, e⟩ | ⟨hclk, hdata, e⟩
  · rw [e]; exact ⟨rfl, .clkRead P s⟩
  · rw [e]; exact ⟨rfl, .dataRead P s⟩
  · rcases h with hlow | ⟨hstill, hhigh⟩
    · rw [hclk] at hlow; cases hlow
    · have hph : (afterClkRead P s).ph = s.ph := (yieldTurn_still (P := P) (s := atPc .readClk s) hstill).2
      rw [readWire_ph_data, hph, ← readWire_ph_data, hhigh] at hdata
      cases hdata

/-- Settles O44: the receive answers from its entry guard. -/
theorem stRecvNeedsStartBit : Obligations.StRecvNeedsStartBit := by
  intro s h
  obtain ⟨hr, ⟨pc, hst⟩, hph, htrace⟩ := stRecv_noFrame s.params h
  refine ⟨_, exec_eq _ _, ?_, htrace, hph, ?_⟩
  · rw [after, hr]; rfl
  · rw [after, writeRes_st, hst]

theorem packRes_byte (d : Byte) : packRes ⟨.ok, false, zext16 d⟩ = d.setWidth 32 := by
  rw [packRes_ok_value, zext16]
  refine BitVec.eq_of_toNat_eq ?_
  simp only [BitVec.toNat_setWidth]
  omega

/-- Settles O47: the ends of a receive, read from RES. -/
theorem stRecvAlwaysEndsClean : Obligations.StRecvAlwaysEndsClean := by
  intro s hreleased hidle
  refine ⟨_, exec_eq _ _, ?_⟩
  simp only [after, writeRes_res, writeRes_st, writeRes_ph, phDriversReleased]
  rcases stRecv_end s.params s with ⟨hr, ⟨pc, hst⟩, hph, -⟩ | ⟨hidle', hclk, hdata, hresult⟩
  · rw [hr, hph, hst]
    exact ⟨hreleased, hidle, .inr (.inl ⟨rfl, rfl⟩)⟩
  · refine ⟨⟨hclk, hdata hreleased.2⟩, hidle', ?_⟩
    rcases hresult with ⟨d, hr, herr⟩ | ⟨e, rfl | rfl, hr, herr⟩ <;> rw [hr, herr]
    · exact .inl ⟨d, packRes_byte d, rfl⟩
    · exact .inr (.inr (.inl ⟨rfl, rfl⟩))
    · exact .inr (.inr (.inr ⟨rfl, rfl⟩))

end Sys2Proof.Machine
end

/-! ## Proofs: frames presented to ST_RECV (43_selftimed_engine.md R177 to R182) -/

section

namespace Sys2Proof.Machine

/-! ### A computer that holds data low -/

@[simp] theorem phTrace_writeRes (r : CmdResult) (s : State) : phTrace (writeRes r s) = phTrace s := rfl

theorem StFrame.clockPulse (P : Params) (s : State) : StFrame s (clockPulse P s) :=
  (StFrame.microKeeps P s).pulse (.refl s)

theorem StFrame.sample (P : Params) (s : State) : StFrame s (afterSample P s) :=
  (StFrame.microKeeps P s).micro .sample (fun _ => id) (.clockPulse P s)

theorem StFrame.store (P : Params) (b : Bool) (u : State) : StFrame u (micro P .advance (stStore b) u) := by
  have hwrite : StFrame u (stStore b (atPc .advance u)) := by
    rw [(stStore_eq b (atPc .advance u)).1]
    exact ⟨rfl, rfl, fun _ => rfl, rfl, rfl, rfl, rfl, fun h => ⟨h, rfl, rfl⟩⟩
  exact hwrite.trans (.yield P _)

theorem StFrame.recvBegin (P : Params) (s : State) : StFrame s (micro P .begin stBeginRecv (afterDataRead P s)) := by
  have hread : ∀ pc u, StFrame u (micro P pc id u) := fun pc u =>
    (StFrame.microKeeps P u).micro pc (fun _ => id) (.refl u)
  have hwrite : ∀ u, StFrame u (micro P .begin stBeginRecv u) := fun u =>
    (show StFrame u (stBeginRecv (atPc .begin u)) from
      ⟨rfl, rfl, fun _ => rfl, rfl, rfl, rfl, rfl, fun h => ⟨h, rfl, rfl⟩⟩).trans (.yield P _)
  exact ((hread .readClk s).trans (hread .readData _)).trans (hwrite _)

/-- A line held low reads 0. -/
theorem sampleOf_low (P : Params) {s : State} (hs : computerStill s) (hlow : s.ph.extData = false) :
    sampleOf P s = false := by
  obtain ⟨-, -, hdata⟩ := (StFrame.clockPulse P s).still hs
  rw [sampleOf, readWire_ph_data, hdata, hlow, Bool.and_false]

/-- Before a still computer that holds data low no pulse brings a stop bit (R179). -/
theorem Receiving.unanswered {P : Params} {s0 : State} : ∀ (left : Nat) {s : State} {i n : Nat},
    Receiving P s0 i n s → computerStill s → s.ph.extData = false →
    ∃ u, stRecvLoop P left s = stFail P .framing u ∧ Receiving P s0 (i + left) (n + left) u := by
  intro left
  induction left with
  | zero => intro s i n h _ _; exact ⟨s, rfl, h⟩
  | succ left ih =>
    intro s i n h hs hlow
    have hsample := sampleOf_low P hs hlow
    rcases stRecvLoop_split P left s with ⟨-, e⟩ | ⟨-, hhigh, -⟩ | ⟨-, hhigh, -⟩
    · obtain ⟨hs', -, hdata⟩ := ((StFrame.sample P s).trans (.store P (sampleOf P s) _)).still hs
      obtain ⟨u, hu, hat⟩ := ih (h.sample.store (sampleOf P s)) hs' (hdata.trans hlow)
      rw [show i + (left + 1) = i + 1 + left by omega, show n + (left + 1) = n + 1 + left by omega]
      exact ⟨u, e.trans hu, hat⟩
    · rw [hsample] at hhigh; cases hhigh
    · rw [hsample] at hhigh; cases hhigh

/-- The entry guard before a still computer that holds only data low. -/
theorem stRecv_asked (P : Params) {s : State} (hs : computerStill s) (hreleased : phDriversReleased s)
    (hclk : s.ph.extClk = true) (hlow : s.ph.extData = false) :
    stRecv P s = stRecvLoop P P.nRecvMax (micro P .begin stBeginRecv (afterDataRead P s)) := by
  have hph : (afterClkRead P s).ph = s.ph := (yieldTurn_still (P := P) (s := atPc .readClk s) hs).2
  rcases stRecv_split P s with ⟨hread, -⟩ | ⟨-, hread, -⟩ | ⟨-, -, e⟩
  · rw [readWire_ph_clk, hreleased.1, hclk] at hread; cases hread
  · rw [readWire_ph_data, hph, hlow, Bool.and_false] at hread; cases hread
  · exact e

/-- A receive from a still computer that holds data low for ever. -/
theorem stRecv_unanswered (P : Params) {s : State} (hs : computerStill s) (hreleased : phDriversReleased s)
    (hclk : s.ph.extClk = true) (hlow : s.ph.extData = false) :
    (stRecv P s).2 = ⟨.framing, true, 0⟩ ∧ (stRecv P s).1.ph = { s.ph with lastErr := 9 } ∧
    (stRecv P s).1.st.busy = false ∧ phTrace (stRecv P s).1 = phTrace s ++ unansweredTrace P := by
  obtain ⟨hs', -, hdata⟩ := (StFrame.recvBegin P s).still hs
  obtain ⟨u, hu, hat⟩ := (Receiving.begin P hreleased.1).unanswered P.nRecvMax hs' (hdata.trans hlow)
  rw [Nat.zero_add] at hat
  have hrecv := (stRecv_asked P hs hreleased hclk hlow).trans hu
  obtain ⟨hr, hidle, hclk', hdata', herr, htrace⟩ := stFail_out P .framing u
  have hframe := StFrame.recv P s
  obtain ⟨-, hext, hext'⟩ := hframe.still hs
  have hph := hframe.ph_released hreleased (by rw [hrecv]; exact ⟨hclk'.trans hat.clk, hdata'⟩)
  rw [hext, hext'] at hph
  rw [hrecv] at hph ⊢
  rw [herr] at hph
  exact ⟨hr, hph, hidle, by rw [htrace, hat.trace, unansweredTrace_eq, List.append_assoc]⟩

/-! ### A computer that presents bits -/

/-- The turns of one pulse of `presentBits`. -/
def presentBit (b : Bool) : List Turn := [.ctrl, .ctrl, .ctrl, .envH true b, .ctrl, .ctrl, .ctrl, .ctrl]

theorem presentBits_eq (bits : List Bool) : presentBits bits = List.replicate 3 .ctrl ++ bits.flatMap presentBit := rfl

/-- A boundary at which the computer sets its drivers, then CTRL goes on. -/
theorem micro_set {P : Params} {pc : MicroPc} {f : State → State} {s : State} {clk data : Bool} {rest : List Turn}
    (hsched : (f (atPc pc s)).sched = .envH clk data :: .ctrl :: rest) :
    (micro P pc f s).sched = rest ∧ (micro P pc f s).ph.extClk = clk ∧ (micro P pc f s).ph.extData = data := by
  have hyield : micro P pc f s = { envHTurn clk data (f (atPc pc s)) with sched := rest } := by
    rw [micro_eq, yieldTurn, hsched]
    rfl
  rw [hyield]
  exact ⟨rfl, rfl, rfl⟩

/-- A pulse in which the bit `b` is set after the rising edge: the sample reads it. -/
theorem clockPulse_presented (P : Params) {s : State} {b : Bool} {rest : List Turn}
    (hs : s.sched = presentBit b ++ rest) : (clockPulse P s).sched = .ctrl :: .ctrl :: rest ∧
      (clockPulse P s).ph.extClk = true ∧ (clockPulse P s).ph.extData = b := by
  have hthree : Undisturbed 3 s (micro P .waitLow (waitFor P.tLow) (micro P .clkLow (setLow .ph .clk)
      (micro P .waitSetup (waitFor P.tSetup) s))) :=
    ((Undisturbed.wait P .waitSetup _ s).trans (.drive P .clkLow .clk false _)).trans (.wait P .waitLow _ _)
  obtain ⟨hsched, -, -⟩ := hthree (.envH true b :: .ctrl :: .ctrl :: .ctrl :: .ctrl :: rest) hs
  obtain ⟨hsched', hclk, hdata⟩ := micro_set (P := P) (pc := .clkHigh) (f := setHigh .ph .clk) hsched
  obtain ⟨hsched'', hclk', hdata'⟩ := Undisturbed.wait P .waitHold P.tHold _ _ hsched'
  exact ⟨hsched'', hclk'.trans hclk, hdata'.trans hdata⟩

theorem sampleOf_presented (P : Params) {s : State} {b : Bool} {rest : List Turn} (hout : s.ph.outData = true)
    (hs : s.sched = presentBit b ++ rest) : sampleOf P s = b := by
  obtain ⟨-, -, hdata, -⟩ := clockPulse_out P s
  rw [sampleOf, readWire_ph_data, hdata, hout, (clockPulse_presented P hs).2.2, Bool.true_and]

theorem afterSample_presented (P : Params) {s : State} {b : Bool} {rest : List Turn}
    (hs : s.sched = presentBit b ++ rest) : (afterSample P s).sched = .ctrl :: rest ∧
      (afterSample P s).ph.extClk = true ∧ (afterSample P s).ph.extData = b := by
  obtain ⟨hsched, hclk, hdata⟩ := clockPulse_presented P hs
  obtain ⟨hsched', hclk', hdata'⟩ := Undisturbed.read P .sample _ _ hsched
  exact ⟨hsched', hclk'.trans hclk, hdata'.trans hdata⟩

theorem Undisturbed.store (P : Params) (b : Bool) (u : State) : Undisturbed 1 u (micro P .advance (stStore b) u) := by
  have heq := (stStore_eq b (atPc .advance u)).1
  exact .microStep (by rw [heq]; rfl) (by rw [heq]; rfl) (by rw [heq]; rfl)

/-- A pulse whose presented bit does not end the receive. -/
theorem Receiving.round {P : Params} {s0 s : State} {i n : Nat} {b : Bool} {rest : List Turn} (left : Nat)
    (h : Receiving P s0 i n s) (hreleased : phDriversReleased s0) (hgo : 9 < i → b = false)
    (hs : s.sched = presentBit b ++ rest) :
    ∃ u, stRecvLoop P (left + 1) s = stRecvLoop P left u ∧ Receiving P s0 (i + 1) (n + 1) u ∧ u.sched = rest ∧
      u.st.acc = if i ≤ 9 then setAccBit s.st.acc (i - 1) b else s.st.acc := by
  have hsample := sampleOf_presented P (h.data.trans hreleased.2) hs
  obtain ⟨⟨pc, hst⟩, -⟩ := afterSample_out P s
  obtain ⟨-, hacc, -⟩ := micro_store_out P b (afterSample P s)
  have hnext : stRecvLoop P (left + 1) s = stRecvLoop P left (micro P .advance (stStore b) (afterSample P s)) := by
    rcases stRecvLoop_split P left s with ⟨-, e⟩ | ⟨hten, hhigh, -⟩ | ⟨hlate, hhigh, -⟩
    · rwa [hsample] at e
    · rw [hsample, hgo (by rw [← h.index]; omega)] at hhigh; cases hhigh
    · rw [hsample, hgo (by rw [← h.index]; omega)] at hhigh; cases hhigh
  refine ⟨_, hnext, h.sample.store b, (Undisturbed.store P b _ _ (afterSample_presented P hs).1).1, ?_⟩
  rw [hacc, hst]
  show (if s.st.i ≤ 9 then setAccBit s.st.acc (s.st.i - 1) b else s.st.acc) = _
  rw [h.index]

/-- The pulse at which the presented bit 1 ends the receive (R179). -/
theorem Receiving.stop {P : Params} {s0 s : State} {i n : Nat} {rest : List Turn} (left : Nat)
    (h : Receiving P s0 i n s) (hreleased : phDriversReleased s0) (hi : 9 < i) (hs : s.sched = presentBit true ++ rest) :
    stRecvLoop P (left + 1) s = if i = 10 then stStopOk P (afterSample P s) else stFail P .framing (afterSample P s) := by
  have hsample := sampleOf_presented P (h.data.trans hreleased.2) hs
  rcases stRecvLoop_split P left s with ⟨hlow, -⟩ | ⟨hten, -, e⟩ | ⟨hlate, -, e⟩
  · rw [hlow (by rw [h.index]; exact hi)] at hsample; cases hsample
  · rw [e, if_pos (h.index.symm.trans hten)]
  · rw [e, if_neg (by rw [← h.index]; omega)]

/-- The received bits, bit `k` on (R132). -/
def storeBits : Nat → List Bool → BitVec 9 → BitVec 9
  | _, [], acc => acc
  | k, b :: l, acc => storeBits (k + 1) l (setAccBit acc k b)

/-- The pulses 1 to 9: the presented bits are stored in order. -/
theorem Receiving.bits {P : Params} {s0 : State} {rest : List Turn} (hreleased : phDriversReleased s0) :
    ∀ (bits : List Bool) (left : Nat) {s : State} {k n : Nat}, k + bits.length ≤ 9 → Receiving P s0 (k + 1) n s →
    s.sched = bits.flatMap presentBit ++ rest →
    ∃ u, stRecvLoop P (left + bits.length) s = stRecvLoop P left u ∧
      Receiving P s0 (k + bits.length + 1) (n + bits.length) u ∧ u.sched = rest ∧
      u.st.acc = storeBits k bits s.st.acc := by
  intro bits
  induction bits with
  | nil => intro left s k n _ h hs; exact ⟨s, rfl, h, hs, rfl⟩
  | cons b l ih =>
    intro left s k n hk h hs
    rw [List.length_cons] at hk
    rw [List.flatMap_cons, List.append_assoc] at hs
    obtain ⟨u, hu, hat, hsched, hacc⟩ := h.round (left + l.length) hreleased (by omega) hs
    obtain ⟨v, hv, hat', hsched', hacc'⟩ := ih left (by omega) hat hsched
    refine ⟨v, hu.trans hv, ?_, hsched', ?_⟩
    · rw [List.length_cons, show k + (l.length + 1) + 1 = k + 1 + l.length + 1 by omega,
        show n + (l.length + 1) = n + 1 + l.length by omega]
      exact hat'
    · rw [hacc', hacc, if_pos (by omega), storeBits, Nat.add_sub_cancel]

/-- The pulses after the ninth that bring no stop bit. -/
theorem Receiving.late {P : Params} {s0 : State} {rest : List Turn} (hreleased : phDriversReleased s0) :
    ∀ (m left : Nat) {s : State} {i n : Nat}, Receiving P s0 i n s →
    s.sched = (List.replicate m false).flatMap presentBit ++ rest →
    ∃ u, stRecvLoop P (left + m) s = stRecvLoop P left u ∧ Receiving P s0 (i + m) (n + m) u ∧ u.sched = rest := by
  intro m
  induction m with
  | zero => intro left s i n h hs; exact ⟨s, rfl, h, hs⟩
  | succ m ih =>
    intro left s i n h hs
    rw [List.replicate_succ, List.flatMap_cons, List.append_assoc] at hs
    obtain ⟨u, hu, hat, hsched, -⟩ := h.round (left + m) hreleased (fun _ => rfl) hs
    obtain ⟨v, hv, hat', hsched'⟩ := ih left hat hsched
    refine ⟨v, hu.trans hv, ?_, hsched'⟩
    rw [show i + (m + 1) = i + 1 + m by omega, show n + (m + 1) = n + 1 + m by omega]
    exact hat'

/-- A receive from a computer that holds data low, up to its first pulse. -/
theorem stRecv_begin_presented (P : Params) {s : State} {rest : List Turn} (hreleased : phDriversReleased s)
    (hclk : s.ph.extClk = true) (hlow : s.ph.extData = false) (hs : s.sched = List.replicate 3 .ctrl ++ rest) :
    ∃ u, stRecv P s = stRecvLoop P P.nRecvMax u ∧ Receiving P s 1 0 u ∧ u.sched = rest ∧ u.st.acc = 0 := by
  obtain ⟨hsched, -, hdata⟩ := Undisturbed.read P .readClk s (.ctrl :: .ctrl :: rest) hs
  obtain ⟨hsched', -, -⟩ := Undisturbed.read P .readData (afterClkRead P s) (.ctrl :: rest) hsched
  have hbegin : ∀ v, Undisturbed 1 v (micro P .begin stBeginRecv v) := fun v => .microStep rfl rfl rfl
  obtain ⟨hsched'', -, -⟩ := hbegin (afterDataRead P s) rest hsched'
  refine ⟨_, ?_, Receiving.begin P hreleased.1, hsched'', by rw [micro_st]; rfl⟩
  rcases stRecv_split P s with ⟨hread, -⟩ | ⟨-, hread, -⟩ | ⟨-, -, e⟩
  · rw [readWire_ph_clk, hreleased.1, hclk] at hread; cases hread
  · rw [readWire_ph_data, show (afterClkRead P s).ph.extData = s.ph.extData from hdata, hlow, Bool.and_false] at hread
    cases hread
  · exact e

/-- A receive from a computer that presents nine bits and the stop bit. -/
theorem stRecv_presented (P : Params) {s : State} {bits : List Bool} (hbits : bits.length = 9) (hmax : 10 ≤ P.nRecvMax)
    (hreleased : phDriversReleased s) (hclk : s.ph.extClk = true) (hlow : s.ph.extData = false)
    (hs : s.sched = presentBits (bits ++ [true])) :
    ∃ u, stRecv P s = stStopOk P u ∧ Receiving P s 10 10 u ∧ u.sched = [.ctrl] ∧ u.ph.extClk = true ∧
      u.ph.extData = true ∧ u.st.acc = storeBits 0 bits 0 := by
  rw [presentBits_eq, List.flatMap_append] at hs
  obtain ⟨u, hu, hat, hsched, hacc⟩ := stRecv_begin_presented P hreleased hclk hlow hs
  obtain ⟨v, hv, hat', hsched', hacc'⟩ := Receiving.bits hreleased bits (P.nRecvMax - 9) (by omega) hat hsched
  rw [hbits] at hv hat'
  have hstop : v.sched = presentBit true ++ [] := by rw [hsched']; rfl
  have hend := hat'.stop (P.nRecvMax - 10) hreleased (by omega) hstop
  obtain ⟨hsched'', hclk', hdata'⟩ := afterSample_presented P hstop
  obtain ⟨⟨pc, hst⟩, -⟩ := afterSample_out P v
  refine ⟨afterSample P v, ?_, hat'.sample, hsched'', hclk', hdata', ?_⟩
  · rw [hu, show P.nRecvMax = P.nRecvMax - 9 + 9 by omega, hv, show P.nRecvMax - 9 = P.nRecvMax - 10 + 1 by omega, hend]
    rfl
  · rw [hst]
    exact hacc'.trans (by rw [hacc])

/-! ### The received group -/

theorem setAccBit_getLsbD (acc : BitVec 9) {k j : Nat} (b : Bool) (hj : j < 9) :
    (setAccBit acc k b).getLsbD j = if j = k then b else acc.getLsbD j := by
  rw [setAccBit]
  simp only [BitVec.getLsbD_or, BitVec.getLsbD_and, BitVec.getLsbD_not, BitVec.getLsbD_shiftLeft, BitVec.getLsbD_setWidth,
    BitVec.getLsbD_ofBool, BitVec.getLsbD_one]
  rcases Nat.lt_trichotomy j k with h | rfl | h
  · simp [h, hj, h.ne]
  · simp [hj]
  · have hsub : j - k ≠ 0 := by omega
    simp [Nat.not_lt.mpr h.le, hj, h.ne', hsub]

/-- The stored bits are the presented ones. -/
theorem storeBits_getLsbD : ∀ (bits : List Bool) (k : Nat) (acc : BitVec 9) (j : Nat), j < 9 →
    (storeBits k bits acc).getLsbD j = if k ≤ j then (bits[j - k]?).getD (acc.getLsbD j) else acc.getLsbD j := by
  intro bits
  induction bits with
  | nil => intro k acc j _; simp [storeBits]
  | cons b l ih =>
    intro k acc j hj
    rw [storeBits, ih (k + 1) _ j hj, setAccBit_getLsbD acc b hj]
    rcases Nat.lt_trichotomy j k with h | rfl | h
    · rw [if_neg (by omega), if_neg h.ne, if_neg (by omega)]
    · simp
    · rw [if_pos (by omega), if_neg h.ne', if_pos h.le, show j - k = (j - (k + 1)) + 1 by omega, List.getElem?_cons_succ]

/-- Eight data bits and a parity bit make the 9-bit group of R126. -/
theorem storeBits_group (d : Byte) (b : Bool) :
    storeBits 0 (((wireFrame d).drop 1).take 8 ++ [b]) 0 = BitVec.ofBool b ++ d := by
  refine BitVec.eq_of_getLsbD_eq fun j hj => ?_
  rw [storeBits_getLsbD _ _ _ _ hj, if_pos (Nat.zero_le j), BitVec.getLsbD_append, BitVec.getLsbD_ofBool]
  interval_cases j <;> rfl

theorem extract_group (d : Byte) (b : Bool) : (BitVec.ofBool b ++ d).extractLsb' 0 8 = d := by
  refine BitVec.eq_of_getLsbD_eq fun j hj => ?_
  rw [BitVec.getLsbD_extractLsb', BitVec.getLsbD_append]
  simp [hj]

theorem wireFrame_group_length (d : Byte) (b : Bool) : (((wireFrame d).drop 1).take 8 ++ [b]).length = 9 := rfl

theorem nRecvMax_of_wellFormed {P : Params} (h : P.wellFormed = true) : 10 ≤ P.nRecvMax := by
  simp [Literals.wellFormed] at h
  omega

/-- Settles O45: the ten pulses store the presented group, and the good end judges it. -/
theorem stRecvJudgesPresentedFrame : Obligations.StRecvJudgesPresentedFrame := by
  intro d b s driven hwf hs hreleased hclk hlow hdriven
  obtain ⟨u, hu, hat, -, -, -, hacc⟩ := stRecv_presented s.params (wireFrame_group_length d b)
    (nRecvMax_of_wellFormed hwf) hreleased hclk hlow (by rw [hs, List.append_assoc]; rfl)
  rw [storeBits_group] at hacc
  obtain ⟨hidle, hend, hodd, heven⟩ := stStopOk_out s.params hat.clk (hat.data.trans hreleased.2)
  rw [hacc, extract_group, hat.err, hat.trace] at hodd
  rw [hacc, hat.trace] at heven
  have hparity := (parityCheckAcceptsEncoderBit d b).2
  have hall : clocks s.params 10 ++ ackTrace s.params = driven := by rw [hdriven]; rfl
  refine ⟨_, exec_eq _ _, ?_⟩
  rw [after, hu]
  refine ⟨hend, hidle, fun hb => ?_, fun hb => ?_⟩
  · obtain ⟨hr, herr, htrace⟩ := hodd (hparity.mpr hb)
    exact ⟨by rw [writeRes_res, hr, packRes_byte], herr, htrace.trans (by rw [List.append_assoc, hall])⟩
  · obtain ⟨hr, herr, htrace⟩ := heven (by rw [← Bool.not_eq_true, hparity]; exact hb)
    exact ⟨by rw [writeRes_res, hr]; rfl, herr, htrace.trans (by rw [List.append_assoc, List.append_assoc, ← hall]; simp)⟩

/-- Settles O46: a still computer is never answered, and a late stop bit comes at its pulse. -/
theorem stRecvFramingWithoutTimelyStop : Obligations.StRecvFramingWithoutTimelyStop := by
  refine ⟨fun s hs hreleased hclk hlow => ?_, fun bits n s hbits hn hmax hs hreleased hclk hlow => ?_⟩
  · obtain ⟨hr, hph, hidle, htrace⟩ := stRecv_unanswered s.params hs hreleased hclk hlow
    refine ⟨_, exec_eq _ _, ?_⟩
    rw [after]
    exact ⟨by rw [writeRes_res, hr]; rfl, hph, hidle, htrace⟩
  · rw [presentBits_eq, List.append_assoc, List.flatMap_append, List.flatMap_append] at hs
    obtain ⟨u, hu, hat, hsched, -⟩ := stRecv_begin_presented s.params hreleased hclk hlow hs
    obtain ⟨v, hv, hat', hsched', -⟩ := Receiving.bits hreleased bits (s.params.nRecvMax - 9) (by omega) hat hsched
    obtain ⟨w, hw, hat'', hsched''⟩ := Receiving.late hreleased (n - 10) (s.params.nRecvMax - n + 1) hat' hsched'
    have hstop : w.sched = presentBit true ++ [] := by rw [hsched'']; rfl
    have hend := hat''.stop (s.params.nRecvMax - n) hreleased (by omega) hstop
    rw [if_neg (by omega), ← hw, show s.params.nRecvMax - n + 1 + (n - 10) = s.params.nRecvMax - 9 by omega, ← hv,
      show s.params.nRecvMax - 9 + bits.length = s.params.nRecvMax by omega, ← hu] at hend
    have hlast := hat''.sample
    obtain ⟨hr, hidle, hclk', hdata', herr, htrace⟩ := stFail_out s.params .framing (afterSample s.params w)
    refine ⟨_, exec_eq _ _, ?_⟩
    rw [after, hend]
    refine ⟨by rw [writeRes_res, hr]; rfl, herr, ⟨hclk'.trans hlast.clk, hdata'⟩, hidle, ?_⟩
    rw [phTrace_writeRes, htrace, hlast.trace, show 0 + bits.length + (n - 10) + 1 = n by omega, clocks]

end Sys2Proof.Machine
end

/-! ## Proofs: the invariants (10_state.md section 7) -/

section

namespace Sys2Proof.Machine

/-! ### A legal receive marker through a shift (R39 (b), R146) -/

theorem recvLegal_iff {r : Word} : recvLegal r = true ↔ r = 0 ∨ ∃ j < 10, r.toNat % 2 ^ (j + 6) = 2 ^ (j + 1) := by
  simp [recvLegal]

theorem shiftIn_toNat_mod (d : Bool) (r : Word) : (shiftIn d r).toNat % 2 ^ 15 = r.toNat / 2 := by
  have hbit : (bitAt d 15).toNat % 2 ^ 15 = 0 := by cases d <;> rfl
  have hr := r.isLt
  rw [shiftIn, BitVec.toNat_or, Nat.or_mod_two_pow, hbit, Nat.or_zero, BitVec.toNat_ushiftRight, Nat.shiftRight_one]
  omega

/-- An edge moves the marker one place down; one that does not reach bit 0 leaves it legal. -/
theorem recvLegal_recvNext {d : Bool} {r : Word} (h : recvLegal r = true) (hf : (recvNext d r).getLsbD 0 = false) :
    recvLegal (recvNext d r) = true := by
  rw [recvLegal_iff]
  rw [← BitVec.testBit_toNat, Nat.testBit_zero, decide_eq_false_iff_not] at hf
  rw [recvNext] at hf ⊢
  by_cases h0 : r = 0
  · have hmod := shiftIn_toNat_mod d 0x800
    rw [if_pos h0]
    refine .inr ⟨9, by decide, ?_⟩
    rw [show Config.recvArm = 0x800 from rfl, hmod]
    rfl
  · rw [if_neg h0] at hf ⊢
    have hmod := shiftIn_toNat_mod d r
    obtain hz | ⟨j, hj, hmark⟩ := recvLegal_iff.mp h
    · exact absurd hz h0
    · have hpos : j ≠ 0 := by
        rintro rfl
        omega
      refine .inr ⟨j - 1, by omega, ?_⟩
      interval_cases j <;> omega

/-! ### The unit invariant by its parts -/

/-- What UnitInv says of PD's shift state (R39, R25, R145). -/
structure ShiftOk (P : Params) (recv send : Word) (timeout : BitVec 8) (data : Bool) : Prop where
  notBoth : recv = 0 ∨ send = 0
  recvShape : recvLegal recv = true
  sendBound : send.toNat < 0x800
  timeoutBound : timeout ≤ P.tmoGuard
  timeoutRuns : recv ≠ 0 ∨ send ≠ 0 → timeout ≠ 0
  dataReleased : send = 0 → data = true

/-- The four queues of a port are well formed. -/
def QueuesOk (P : Params) (x : PortState) : Prop :=
  x.qIn.wf P.rbCap = true ∧ x.qOut.wf P.rbCap = true ∧ x.qAux0.wf P.rbCap = true ∧ x.qAux1.wf P.rbCap = true

/-- UnitInv in the form in which a unit of a command with parameters `P` keeps it: by parts that a write to another part
does not touch. -/
structure UnitAt (P : Params) (s : State) : Prop where
  params : s.params = P
  paramsWf : P.wellFormed = true
  shifts : ShiftOk P s.pd.recvShift s.pd.sendShift s.pd.busTimeout s.pd.outData
  pdQueues : QueuesOk P s.pd
  phQueues : QueuesOk P s.ph
  phRegisters : s.ph.recvShift = 0 ∧ s.ph.sendShift = 0 ∧ s.ph.busTimeout = 0
  resShape : resLegal s.res = true
  pdLastErr : lastErrLegal .pd s.pd.lastErr = true
  phLastErr : lastErrLegal .ph s.ph.lastErr = true
  stIndex : s.st.i ≤ P.nRecvMax + 1

theorem unitInv_iff {s : State} : UnitInv s ↔ UnitAt s.params s := by
  constructor
  · intro h
    exact ⟨rfl, h.paramsWf, ⟨h.notBoth, h.recvShape, h.sendBound, h.timeoutBound, fun hbusy => h.timeoutRuns
      ((pdBusy_iff s).mpr hbusy), h.pdDataReleased⟩,
      ⟨h.queuesWf .pd .inq, h.queuesWf .pd .out, h.queuesWf .pd .aux0, h.queuesWf .pd .aux1⟩,
      ⟨h.queuesWf .ph .inq, h.queuesWf .ph .out, h.queuesWf .ph .aux0, h.queuesWf .ph .aux1⟩,
      h.phRegisters, h.resShape, h.pdLastErr, h.phLastErr, h.stIndex⟩
  · intro h
    obtain ⟨hpdIn, hpdOut, hpd0, hpd1⟩ := h.pdQueues
    obtain ⟨hphIn, hphOut, hph0, hph1⟩ := h.phQueues
    refine ⟨h.paramsWf, h.shifts.notBoth, h.shifts.recvShape, h.shifts.sendBound, fun p q => ?_, h.shifts.timeoutBound,
      fun hbusy => h.shifts.timeoutRuns ((pdBusy_iff s).mp hbusy), h.phRegisters, h.shifts.dataReleased, h.resShape,
      h.pdLastErr, h.phLastErr, h.stIndex⟩
    cases p <;> cases q <;> assumption

theorem tmoGuard_ne_zero {P : Params} (h : P.wellFormed = true) : P.tmoGuard ≠ 0 := by
  simp [Literals.wellFormed] at h
  exact h.1.2

theorem Ring.wf_queue {P : Params} {s : State} (h : UnitAt P s) (p : Port) (q : QueueId) :
    (getQueue p q s).wf P.rbCap = true := by
  obtain ⟨hpdIn, hpdOut, hpd0, hpd1⟩ := h.pdQueues
  obtain ⟨hphIn, hphOut, hph0, hph1⟩ := h.phQueues
  cases p <;> cases q <;> assumption

theorem UnitAt.setQueue {P : Params} {s : State} (h : UnitAt P s) (p : Port) (q : QueueId) {r : Ring}
    (hr : r.wf P.rbCap = true) : UnitAt P (setQueue p q r s) := by
  obtain ⟨hpdIn, hpdOut, hpd0, hpd1⟩ := h.pdQueues
  obtain ⟨hphIn, hphOut, hph0, hph1⟩ := h.phQueues
  cases p <;> cases q <;> exact { h with
    pdQueues := ⟨by assumption, by assumption, by assumption, by assumption⟩
    phQueues := ⟨by assumption, by assumption, by assumption, by assumption⟩ }

/-- The three ring primitives that write. -/
theorem UnitAt.insert {P : Params} {s : State} (h : UnitAt P s) (p : Port) (q : QueueId) (v : Byte) :
    UnitAt P (rbInsert P p q v s).2 := by
  rcases rbInsert_spec h.params p q v (Ring.wf_queue h p q) with ⟨-, hop⟩ | ⟨-, r, hop, hr, -⟩ <;> rw [hop]
  · exact h
  · exact h.setQueue p q hr

theorem UnitAt.remove {P : Params} {s : State} (h : UnitAt P s) (p : Port) (q : QueueId) :
    UnitAt P (rbRemove P p q s).2 := by
  rcases rbRemove_spec h.params p q (Ring.wf_queue h p q) with ⟨-, hop⟩ | ⟨v, l, r, -, hop, hr, -⟩ <;> rw [hop]
  · exact h
  · exact h.setQueue p q hr

theorem UnitAt.pushBack {P : Params} {s : State} (h : UnitAt P s) (p : Port) (q : QueueId) (v : Byte) :
    UnitAt P (rbPushBack P p q v s).2 := by
  rcases rbPushBack_spec h.params p q v (Ring.wf_queue h p q) with ⟨-, hop⟩ | ⟨-, r, hop, hr, -⟩ <;> rw [hop]
  · exact h
  · exact h.setQueue p q hr

/-! ### The edge service and the other agents' turns -/

theorem UnitAt.setErr {P : Params} {s : State} (h : UnitAt P s) {e : Status}
    (he : e = .full ∨ e = .parity ∨ e = .framing ∨ e = .timeout) : UnitAt P (setLastErr .pd e s) := by
  refine { h with pdLastErr := ?_ }
  rcases he with rfl | rfl | rfl | rfl <;> rfl

theorem UnitAt.deliver {P : Params} {s : State} (h : UnitAt P s) (f : Word) : UnitAt P (deliverFrame P f s) := by
  by_cases hstop : frameStop f = true
  · by_cases hpar : parityOk (frameGroup f) = true
    · rcases deliverFrame_ok h.params hstop hpar h.pdQueues.1 with ⟨-, hop⟩ | ⟨-, r, hr, -, hop⟩ <;> rw [hop]
      · exact h.setErr (.inl rfl)
      · exact h.setQueue .pd .inq hr
    · rw [deliverFrame_parity hstop (Bool.not_eq_true _ ▸ hpar)]
      exact h.setErr (.inr (.inl rfl))
  · rw [deliverFrame_framing (Bool.not_eq_true _ ▸ hstop)]
    exact h.setErr (.inr (.inr (.inl rfl)))

/-- A state whose PD shift state alone changed. -/
theorem UnitAt.shift {P : Params} {s : State} (h : UnitAt P s) {recv send : Word} {timeout : BitVec 8} {clk data : Bool}
    (hx : ShiftOk P recv send timeout data) : UnitAt P { s with pd := { s.pd with
      recvShift := recv, sendShift := send, busTimeout := timeout, outClk := clk, outData := data } } :=
  { h with shifts := hx }

/-- The bit that is left last in `send_shift` is the one the edge drives. -/
theorem getLsbD_zero_of_shift {w : Word} (hw : w ≠ 0) (hshift : w >>> 1 = 0) : w.getLsbD 0 = true := by
  have hnat := congrArg BitVec.toNat hshift
  rw [BitVec.toNat_ushiftRight, Nat.shiftRight_one, show BitVec.toNat (0 : Word) = 0 from rfl] at hnat
  have hne : w.toNat ≠ 0 := fun h => hw (BitVec.eq_of_toNat_eq h)
  rw [← BitVec.testBit_toNat, Nat.testBit_zero, decide_eq_true_eq]
  omega

theorem ShiftOk.transmit {P : Params} (hP : P.wellFormed = true) {recv send : Word} {timeout : BitVec 8} {data : Bool}
    (h : ShiftOk P recv send timeout data) (hsend : send ≠ 0) :
    ShiftOk P recv (send >>> 1) P.tmoGuard (send.getLsbD 0) where
  notBoth := .inl (h.notBoth.resolve_right hsend)
  recvShape := h.recvShape
  sendBound := by
    have hlt := h.sendBound
    rw [BitVec.toNat_ushiftRight, Nat.shiftRight_one]
    omega
  timeoutBound := BitVec.le_refl _
  timeoutRuns _ := tmoGuard_ne_zero hP
  dataReleased := getLsbD_zero_of_shift hsend

theorem ShiftOk.receive {P : Params} (hP : P.wellFormed = true) {recv send next : Word} {timeout : BitVec 8} {data : Bool}
    (h : ShiftOk P recv send timeout data) (hsend : send = 0) (hnext : recvLegal next = true) :
    ShiftOk P next send P.tmoGuard data where
  notBoth := .inr hsend
  recvShape := hnext
  sendBound := h.sendBound
  timeoutBound := BitVec.le_refl _
  timeoutRuns _ := tmoGuard_ne_zero hP
  dataReleased := h.dataReleased

theorem UnitAt.unlatch {P : Params} {s : State} (h : UnitAt P s) (b : Bool) (w : List WireEvent) :
    UnitAt P { s with edgePend := b, wtrace := w } :=
  { h with }

/-- The edge service, on its three paths (R145 to R149). -/
theorem UnitAt.edge {P : Params} {s : State} (h : UnitAt P s) : UnitAt P (edgeService P s) := by
  by_cases hsend : s.pd.sendShift = 0
  · rcases hf : (edgeSample s).getLsbD 0 with - | -
    · rw [edgeService_of_recv hsend hf]
      exact (h.unlatch false s.wtrace).shift (clk := s.pd.outClk) (h.shifts.receive h.paramsWf hsend
        (recvLegal_recvNext h.shifts.recvShape hf))
    · rw [edgeService_of_complete hsend hf]
      exact ((h.unlatch false s.wtrace).shift (clk := s.pd.outClk) (h.shifts.receive h.paramsWf hsend rfl)).deliver _
  · rw [edgeService_of_send hsend]
    exact (h.unlatch false _).shift (clk := s.pd.outClk) (h.shifts.transmit h.paramsWf hsend)

theorem UnitAt.envP {P : Params} {s : State} (h : UnitAt P s) (clk data : Bool) : UnitAt P (envPTurn clk data s) := by
  obtain ⟨p, o, hop, -, -⟩ := envPTurn_frame clk data s
  rw [hop]
  exact { h with }

theorem UnitAt.envH {P : Params} {s : State} (h : UnitAt P s) (clk data : Bool) : UnitAt P (envHTurn clk data s) :=
  { h with }

theorem UnitAt.tick {P : Params} {s : State} (h : UnitAt P s) : UnitAt P (tickTurn s) :=
  { h with }

theorem UnitAt.sched {P : Params} {s : State} (h : UnitAt P s) (l : List Turn) : UnitAt P { s with sched := l } :=
  { h with }

theorem UnitAt.othersMove {P : Params} {s : State} (h : UnitAt P s) (atEdge : Bool) (turns : List Turn) :
    UnitAt P (othersMove P atEdge turns s) :=
  othersMove_keeps (fun _ l h => h.sched l) (fun _ _ h => h.edge) (fun _ h => h.tick) turns
    (fun _ c d _ h => h.envP c d) (fun _ c d _ h => h.envH c d) s h

/-- Settles O4: every turn keeps the parts of the unit invariant. -/
theorem otherAgentsKeepUnitInvariant : Obligations.OtherAgentsKeepUnitInvariant := by
  intro atEdge turns s h
  have ht := (unitInv_iff.mp h).othersMove atEdge turns
  exact unitInv_iff.mpr (ht.params.symm ▸ ht)

/-! ### The units of CTRL -/

theorem UnitAt.microKeeps (P : Params) : MicroKeeps P (UnitAt P) where
  yield s h := h.othersMove true s.sched
  wait _ _ h := { h with }
  drive w _ _ h := by
    cases w <;> exact { h with }
  st s x hi h := by
    refine { h with stIndex := ?_ }
    have hmax := nRecvMax_of_wellFormed h.paramsWf
    have hold := h.stIndex
    show x.i ≤ P.nRecvMax + 1
    omega
  err e s he h := by
    refine { h with phLastErr := ?_ }
    simp only [List.mem_cons, List.not_mem_nil, or_false] at he
    rcases he with rfl | rfl | rfl | rfl <;> rfl

/-- The load of a transmit (R150, R152). -/
theorem ShiftOk.loaded {P : Params} (hP : P.wellFormed = true) (c : Byte) (data : Bool) :
    ShiftOk P 0 (irqPattern c) P.tmoGuard data where
  notBoth := .inl rfl
  recvShape := rfl
  sendBound := irqPattern_lt c
  timeoutBound := BitVec.le_refl _
  timeoutRuns _ := tmoGuard_ne_zero hP
  dataReleased h := absurd h (irqPattern_ne_zero c)

theorem UnitAt.irqSend {P : Params} {s : State} (h : UnitAt P s) (c : Byte) : UnitAt P (irqSend P c s).1 := by
  rcases irqSend_split P c s with ⟨-, hop⟩ | ⟨-, -, -, hop⟩ | ⟨hrecv, -, -, hop⟩ <;> rw [hop]
  · exact h
  · exact h
  · obtain ⟨a, b, x, y, f, l, harm⟩ := armingSequence_eq P (irqLoaded P c s)
    have hloaded : ShiftOk P s.pd.recvShift (irqPattern c) P.tmoGuard false := hrecv ▸ .loaded h.paramsWf c false
    rw [harm]
    exact { h with shifts := hloaded }

theorem ShiftOk.idle (P : Params) (recv send : Word) (hr : recv = 0) (hs : send = 0) : ShiftOk P recv send 0 true where
  notBoth := .inl hr
  recvShape := by rw [hr]; rfl
  sendBound := by rw [hs]; decide
  timeoutBound := Nat.zero_le _
  timeoutRuns h := by simp [hr, hs] at h
  dataReleased _ := rfl

theorem ShiftOk.countDown {P : Params} {recv send : Word} {timeout : BitVec 8} {data : Bool}
    (h : ShiftOk P recv send timeout data) (hne : timeout ≠ 0) (hnext : timeout - 1 ≠ 0) :
    ShiftOk P recv send (timeout - 1) data where
  notBoth := h.notBoth
  recvShape := h.recvShape
  sendBound := h.sendBound
  timeoutBound := by
    have hle := h.timeoutBound
    bv_omega
  timeoutRuns _ := hnext
  dataReleased := h.dataReleased

theorem UnitAt.tmoService {P : Params} {s : State} (h : UnitAt P s) : UnitAt P (tmoService s).2 := by
  rcases tmoService_split s with ⟨-, hop⟩ | ⟨-, -, hop⟩ | ⟨-, hne, hnext, hop⟩ | ⟨-, -, -, hop⟩ <;> rw [hop]
  · exact h
  · exact { h with }
  · exact { h with shifts := h.shifts.countDown hne hnext }
  · show UnitAt P (recovery { s with tickFlag := false, pd := { s.pd with busTimeout := 0 } })
    rw [recovery_eq]
    refine { h with shifts := .idle P 0 0 rfl rfl, pdLastErr := ?_ }
    show lastErrLegal .pd (if _ then 10 else s.pd.lastErr) = true
    split
    · rfl
    · exact h.pdLastErr

theorem UnitAt.relayKeeps (P : Params) : RelayKeeps P (UnitAt P) where
  toMicroKeeps := UnitAt.microKeeps P
  insertOut p v _ h := h.insert p .out v
  removeOut p _ h := h.remove p .out
  pushBackOut p v _ h := h.pushBack p .out v
  removeIn _ h := h.remove .pd .inq
  log _ _ _ h := { h with }
  irq c _ h := h.irqSend c
  tmo _ h := h.tmoService

/-! ### RES (R21, R231) -/

/-- A legal result: no TIMEOUT, and no value without a value. -/
def ResultOk (r : CmdResult) : Prop := r.status ≠ .timeout ∧ (r.nv = true → r.value = 0)

theorem resLegal_packRes {r : CmdResult} (h : ResultOk r) : resLegal (packRes r) = true := by
  obtain ⟨hstatus, hvalue⟩ := h
  have hcode : [0, 1, 2, 3, 4, 5, 6, 7, 8, 9, 15].contains (statusCode r.status).toNat = true := by
    cases hs : r.status with
    | timeout => exact absurd hs hstatus
    | _ => rfl
  have hnv : (!r.nv || r.value == 0) = true := by
    cases hn : r.nv
    · rfl
    · simp [hvalue hn]
  rw [resLegal, packRes_gap_high, packRes_gap_low, resNv_packRes, resValue_packRes, resStatus_packRes, hcode, hnv]
  rfl

theorem UnitAt.writeRes {P : Params} {s : State} (h : UnitAt P s) {r : CmdResult} (hr : ResultOk r) :
    UnitAt P (writeRes r s) :=
  { h with resShape := resLegal_packRes hr }

theorem resultOk_noValue {e : Status} (he : e ≠ .timeout) : ResultOk ⟨e, true, 0⟩ := ⟨he, fun _ => rfl⟩

theorem resultOk_value {e : Status} (he : e ≠ .timeout) (w : Word) : ResultOk ⟨e, false, w⟩ :=
  ⟨he, fun h => by cases h⟩

theorem SendOutcome.resultOk {P : Params} {c : Byte} {s0 : State} {r : State × CmdResult} (h : SendOutcome P c s0 r) :
    ResultOk r.2 := by
  rcases h.result with ⟨hr, -⟩ | ⟨e, j, he, -, hr, -⟩ <;> rw [hr]
  · exact resultOk_value (by decide) 11
  · rcases he with rfl | rfl <;> exact resultOk_value (by decide) _

theorem resultOk_stRecv (P : Params) (s : State) : ResultOk (stRecv P s).2 := by
  rcases stRecv_end P s with ⟨hr, -⟩ | hend
  · rw [hr]; exact resultOk_noValue (by decide)
  · rcases hend.result with ⟨d, hr, -⟩ | ⟨e, rfl | rfl, hr, -⟩ <;> rw [hr]
    · exact resultOk_value (by decide) _
    · exact resultOk_noValue (by decide)
    · exact resultOk_noValue (by decide)

theorem resultOk_byteOrEmpty (v : Option Byte) : ResultOk (byteOrEmpty v) := by
  cases v with
  | none => exact resultOk_noValue (by decide)
  | some c => exact resultOk_value (by decide) _

theorem resultOk_regResult (v : Option Word) : ResultOk (regResult v) := by
  cases v with
  | none => exact resultOk_noValue (by decide)
  | some c => exact resultOk_value (by decide) _

/-! ### Between commands -/

/-- PH's drivers and PD's clock are released, and no blocking command is in progress. -/
structure AtRest (s : State) : Prop where
  phReleased : phDriversReleased s
  pdClk : s.pd.outClk = true
  idle : s.st.busy = false

theorem OtherFrame.atRest {s t : State} (h : OtherFrame s t) (hs : AtRest s) : AtRest t := by
  obtain ⟨⟨hclk, hdata⟩, hpd, hidle⟩ := hs
  obtain ⟨hclk', hdata', -⟩ := h.phOut
  refine ⟨⟨hclk'.trans hclk, hdata'.trans hdata⟩, ?_, by rw [h.st]; exact hidle⟩
  rw [h.pd]
  exact hpd

theorem AtRest.setQueue {s : State} (h : AtRest s) (p : Port) (q : QueueId) (r : Ring) : AtRest (setQueue p q r s) := by
  obtain ⟨⟨hclk, hdata⟩, hpd, hidle⟩ := h
  cases p <;> cases q <;> exact ⟨⟨hclk, hdata⟩, hpd, hidle⟩

theorem AtRest.writeRes {s : State} (h : AtRest s) (r : CmdResult) : AtRest (writeRes r s) :=
  { h with }

theorem AtRest.send {s : State} (h : AtRest s) (P : Params) (c : Byte) : AtRest (stSend P c s).1 := by
  obtain ⟨⟨hidle, -⟩, hreleased⟩ := stSend_end P c h.phReleased
  refine ⟨hreleased, ?_, hidle⟩
  rw [(StFrame.send P c s).pd]
  exact h.pdClk

theorem AtRest.recv {s : State} (h : AtRest s) (P : Params) : AtRest (stRecv P s).1 := by
  have hpd : (stRecv P s).1.pd.outClk = true := by
    rw [(StFrame.recv P s).pd]
    exact h.pdClk
  rcases stRecv_end P s with ⟨-, ⟨pc, hst⟩, hph, -⟩ | ⟨hidle, hclk, hdata, -⟩
  · refine ⟨?_, hpd, by rw [hst]; exact h.idle⟩
    rw [phDriversReleased, hph]
    exact h.phReleased
  · exact ⟨⟨hclk, hdata h.phReleased.2⟩, hpd, hidle⟩

theorem AtRest.irqSend {s : State} (h : AtRest s) (P : Params) (c : Byte) : AtRest (irqSend P c s).1 := by
  rcases irqSend_split P c s with ⟨-, hop⟩ | ⟨-, -, -, hop⟩ | ⟨-, -, -, hop⟩ <;> rw [hop]
  · exact h
  · exact h
  · obtain ⟨a, b, x, y, f, l, harm⟩ := armingSequence_eq P (irqLoaded P c s)
    rw [harm]
    exact { h with pdClk := rfl }

theorem AtRest.tmoService {s : State} (h : AtRest s) : AtRest (tmoService s).2 := by
  rcases tmoService_split s with ⟨-, hop⟩ | ⟨-, -, hop⟩ | ⟨-, -, -, hop⟩ | ⟨-, -, -, hop⟩ <;> rw [hop]
  · exact h
  · exact { h with }
  · exact { h with }
  · show AtRest (recovery { s with tickFlag := false, pd := { s.pd with busTimeout := 0 } })
    rw [recovery_eq]
    exact { h with pdClk := rfl }

/-- What must hold of `I` for the boundaries of a RELAY_STEP and its queue and log writes to keep it. -/
structure RelayMoves (P : Params) (I : State → Prop) : Prop where
  yield : ∀ s, I s → I (yieldTurn P s)
  queue : ∀ p q r s, I s → I (setQueue p q r s)
  log : ∀ d c s, I s → I (appendLog d c s)

/-- What must hold of `I` for the units of a RELAY_STEP outside its E_ST commands to keep it. -/
structure RelayTail (P : Params) (I : State → Prop) : Prop extends RelayMoves P I where
  irq : ∀ c s, I s → I (irqSend P c s).1
  tmo : ∀ s, I s → I (tmoService s).2

/-- What must hold of `I` for a whole RELAY_STEP to keep it when it need not hold inside an E_ST command. -/
structure RelayUnits (P : Params) (I : State → Prop) : Prop extends RelayTail P I where
  send : ∀ c s, I s → I (stSend P c s).1
  recv : ∀ s, I s → I (stRecv P s).1

theorem RelayMoves.insert {P : Params} {I : State → Prop} (h : RelayMoves P I) (p : Port) (q : QueueId) (v : Byte)
    {s : State} (hs : I s) : I (rbInsert P p q v s).2 := by
  obtain ⟨r, hop⟩ := rbInsert_state P p q v s
  rw [hop]
  exact h.queue p q r s hs

theorem RelayMoves.remove {P : Params} {I : State → Prop} (h : RelayMoves P I) (p : Port) (q : QueueId)
    {s : State} (hs : I s) : I (rbRemove P p q s).2 := by
  obtain ⟨r, hop⟩ := rbRemove_state P p q s
  rw [hop]
  exact h.queue p q r s hs

theorem RelayMoves.pushBack {P : Params} {I : State → Prop} (h : RelayMoves P I) (p : Port) (q : QueueId) (v : Byte)
    {s : State} (hs : I s) : I (rbPushBack P p q v s).2 := by
  obtain ⟨r, hop⟩ := rbPushBack_state P p q v s
  rw [hop]
  exact h.queue p q r s hs

/-- Steps 2 and 3 in their three cases: an empty queue, a send that was OK, and a send that failed and its push-back. -/
theorem sendFrom_split (P : Params) (p : Port) (send : Byte → State → State × CmdResult) (s : State) :
    ((rbRemove P p .out s).1 = none ∧ sendFrom P p send s = (false, yieldTurn P (rbRemove P p .out s).2)) ∨
    (∃ c, (rbRemove P p .out s).1 = some c ∧
      (send c (yieldTurn P (rbRemove P p .out s).2)).2.status = .ok ∧
      sendFrom P p send s = (true, yieldTurn P (send c (yieldTurn P (rbRemove P p .out s).2)).1)) ∨
    (∃ c, (rbRemove P p .out s).1 = some c ∧
      (send c (yieldTurn P (rbRemove P p .out s).2)).2.status ≠ .ok ∧
      sendFrom P p send s = (false, yieldTurn P (rbPushBack P p .out c (yieldTurn P
        (send c (yieldTurn P (rbRemove P p .out s).2)).1)).2)) := by
  unfold sendFrom
  rcases hr : (rbRemove P p .out s).1 with - | c
  · exact .inl ⟨rfl, rfl⟩
  · by_cases ho : (send c (yieldTurn P (rbRemove P p .out s).2)).2.status = .ok
    · exact .inr (.inl ⟨c, rfl, ho, by simp [ho]⟩)
    · exact .inr (.inr ⟨c, rfl, ho, by simp [ho]⟩)

theorem RelayMoves.sendFrom {P : Params} {I : State → Prop} (h : RelayMoves P I) (p : Port)
    {send : Byte → State → State × CmdResult} (hsend : ∀ c s, I s → I (send c s).1) {s : State} (hs : I s) :
    I (sendFrom P p send s).2 := by
  have hr := h.yield _ (h.remove p .out hs)
  rcases sendFrom_split P p send s with ⟨-, e⟩ | ⟨c, -, -, e⟩ | ⟨c, -, -, e⟩ <;> rw [e]
  · exact hr
  · exact h.yield _ (hsend c _ hr)
  · exact h.yield _ (h.pushBack p .out c (h.yield _ (hsend c _ hr)))

theorem RelayMoves.move {P : Params} {I : State → Prop} (h : RelayMoves P I) {s : State} (hs : I s) :
    I (relayMove P s).2 := by
  rcases relayMove_split P s with ⟨-, e⟩ | ⟨-, -, c, t, hr, e⟩
  · rw [e]; exact hs
  · have ht := h.remove .pd .inq hs
    rw [hr] at ht
    rw [e]
    exact h.log _ _ _ (h.insert _ _ _ ht)

theorem RelayMoves.step1 {P : Params} {I : State → Prop} (h : RelayMoves P I) {s : State} (hrecv : I (stRecv P s).1)
    (hs : I s) : I (relayStep1 P s).2 := by
  rcases relayStep1_split P s with ⟨-, e⟩ | ⟨-, -, e⟩ | ⟨-, -, e⟩ <;> rw [e]
  · exact hs
  · exact h.yield _ hrecv
  · exact h.yield _ (h.log _ _ _ (h.yield _ (h.insert _ _ _ (h.yield _ hrecv))))

/-- So is it before the last boundary of a RELAY_STEP. -/
theorem RelayUnits.moved {P : Params} {I : State → Prop} (h : RelayUnits P I) {s : State} (hs : I s) :
    I (relayMove P (relayStep3 P (relayStep2 P (relayStep1 P s).2).2).2).2 :=
  h.move (h.sendFrom .pd h.irq (h.sendFrom .ph h.send (h.step1 (h.recv _ hs) hs)))

/-- A whole RELAY_STEP keeps what each of its units keeps. -/
theorem RelayUnits.relay {P : Params} {I : State → Prop} (h : RelayUnits P I) {s : State} (hs : I s) :
    I (relay P s).2 :=
  h.tmo _ (h.yield _ (h.moved hs))

theorem AtRest.relayUnits (P : Params) : RelayUnits P AtRest where
  yield s h := (yieldTurn_frame P s).atRest h
  send c _ h := h.send P c
  recv _ h := h.recv P
  queue p q r _ h := h.setQueue p q r
  log _ _ _ h := { h with }
  irq c _ h := h.irqSend P c
  tmo _ h := h.tmoService

/-! ### Reset and steps -/

theorem blockInv_iff {s : State} : BlockInv s ↔ UnitAt s.params s ∧ AtRest s := by
  constructor
  · intro h
    exact ⟨unitInv_iff.mp h.unit, h.phReleased, h.pdClkReleased, h.notBusy⟩
  · rintro ⟨hunit, hph, hpd, hidle⟩
    exact ⟨unitInv_iff.mpr hunit, hph, hpd, hidle⟩

/-- After every instruction: what its unit keeps, and a legal result. -/
theorem UnitAt.after {s : State} (i : Instr) (h : UnitAt s.params s) (hrest : AtRest s) :
    UnitAt s.params (after i s) ∧ AtRest (after i s) := by
  have hvalue : ∀ e, e ≠ Status.timeout → ResultOk ⟨e, true, 0⟩ := fun _ => resultOk_noValue
  cases i with
  | rbInsert p q v =>
    refine ⟨(h.insert p q v).writeRes (hvalue _ ?_), ?_⟩
    · rcases rbInsert_spec rfl p q v (Ring.wf_queue h p q) with ⟨-, hop⟩ | ⟨-, r, hop, -⟩ <;> rw [hop] <;> exact nofun
    · exact ((AtRest.relayUnits s.params).insert p q v hrest).writeRes _
  | rbRemove p q =>
    exact ⟨(h.remove p q).writeRes (resultOk_byteOrEmpty _), ((AtRest.relayUnits s.params).remove p q hrest).writeRes _⟩
  | rbPeek p q => exact ⟨h.writeRes (resultOk_byteOrEmpty _), hrest.writeRes _⟩
  | rbPushback p q v =>
    refine ⟨(h.pushBack p q v).writeRes (hvalue _ ?_), ?_⟩
    · rcases rbPushBack_spec rfl p q v (Ring.wf_queue h p q) with ⟨-, hop⟩ | ⟨-, r, hop, -⟩ <;> rw [hop] <;> exact nofun
    · exact ((AtRest.relayUnits s.params).pushBack p q v hrest).writeRes _
  | irqSend c =>
    refine ⟨(h.irqSend c).writeRes ?_, (hrest.irqSend _ c).writeRes _⟩
    rcases irqSend_split s.params c s with ⟨-, hop⟩ | ⟨-, -, -, hop⟩ | ⟨-, -, -, hop⟩ <;> rw [hop] <;>
      exact hvalue _ (by decide)
  | stSend c =>
    exact ⟨((UnitAt.microKeeps s.params).send c h).writeRes (stSend_outcome s.params c s).resultOk,
      (hrest.send s.params c).writeRes _⟩
  | stRecv =>
    exact ⟨((UnitAt.microKeeps s.params).recv h).writeRes (resultOk_stRecv s.params s), (hrest.recv s.params).writeRes _⟩
  | tmoService => exact ⟨h.tmoService.writeRes (resultOk_value (by decide) _), hrest.tmoService.writeRes _⟩
  | csEnter =>
    refine ⟨UnitAt.writeRes (s := { s with ie := false }) ?_ (hvalue _ (by decide)), { hrest with }⟩
    exact { h with }
  | csExit =>
    refine ⟨UnitAt.writeRes (s := { s with ie := true }) ?_ (hvalue _ (by decide)), { hrest with }⟩
    exact { h with }
  | relayStep =>
    exact ⟨((UnitAt.relayKeeps s.params).relay h).writeRes (resultOk_value (by decide) _),
      ((AtRest.relayUnits s.params).relay hrest).writeRes _⟩
  | regRead n => exact ⟨h.writeRes (resultOk_regResult _), hrest.writeRes _⟩
  | evEdge =>
    obtain ⟨r, v, o, e, q, w, hedge, -⟩ := edgeService_frame s.params s
    refine ⟨h.edge, ?_⟩
    rw [Machine.after, hedge]
    exact { hrest with }
  | evTick => exact ⟨h.tick, (OtherFrame.tick s).atRest hrest⟩

theorem UnitAt.moved {P : Params} {s : State} (h : UnitAt P s) (sch : List Turn) (cm : List Word) :
    UnitAt P { s with sched := sch, cmds := cm } :=
  { h with }

/-- Settles O3: an instruction, an illegal word, or another agent's turn. -/
theorem stepKeepsInvariant : Obligations.StepKeepsInvariant := by
  intro s t hstep
  have hparams := (StepFrame.step hstep).params
  refine ⟨hparams, fun h => ?_⟩
  rw [blockInv_iff] at h ⊢
  obtain ⟨hunit, hrest⟩ := h
  rw [hparams]
  rcases step_cases hstep with ⟨i, sch, cm, rfl, -⟩ | ⟨sch, cm, rfl⟩ | ⟨sch, rfl⟩ | ⟨c, d, sch, rfl⟩ | ⟨c, d, sch, rfl⟩
  · exact UnitAt.after (s := { s with sched := sch, cmds := cm }) i (hunit.moved sch cm) { hrest with }
  · exact ⟨(hunit.moved sch cm).writeRes (resultOk_noValue (by decide)), { hrest with }⟩
  · exact ⟨hunit.sched sch, { hrest with }⟩
  · exact ⟨(hunit.sched sch).envP c d, (OtherFrame.envP { s with sched := sch } c d).atRest
      { hrest with }⟩
  · exact ⟨(hunit.sched sch).envH c d, { hrest with }⟩

/-- The reset state by the parts of the invariant (R44). -/
theorem UnitAt.reset {L : Literals} (hL : L.wellFormed = true) (hP : (State.resetAt L).params.wellFormed = true) :
    UnitAt (State.resetAt L).params (State.resetAt L) := by
  have hcap : 0 < L.rbCap := by
    simp [Literals.wellFormed] at hL
    exact hL.1.1.1
  have hwf := Ring.reset_wf hcap
  exact ⟨rfl, hP, .idle _ 0 0 rfl rfl, ⟨hwf, hwf, hwf, hwf⟩, ⟨hwf, hwf, hwf, hwf⟩, ⟨rfl, rfl, rfl⟩, by
    show resLegal 0 = true
    decide, rfl, rfl, Nat.zero_le _⟩

/-- Settles O2: the bounds do not speak of ST_RECV_ACK. -/
theorem resetMeetsInvariant : Obligations.ResetMeetsInvariant := by
  have hall : ∀ L : Literals, L.wellFormed = true → BlockInv (State.resetAt L) := fun L hL =>
    blockInv_iff.mpr ⟨.reset hL hL, ⟨rfl, rfl⟩, rfl, rfl⟩
  exact ⟨hall, hall _ (by decide)⟩

end Sys2Proof.Machine
end

/-! ## Proofs: the other agents' turns (42_irq_engine.md R142, 60_exceptions.md R240, log 5, log 9) -/

section

namespace Sys2Proof.Machine

/-! ### The turns of a step -/

theorem step_of_tick {s : State} {sch : List Turn} (h : s.sched = .tick :: sch) :
    step s = exec .evTick { s with sched := sch } := by rw [step, h]

theorem step_of_edge {s : State} {sch : List Turn} (h : s.sched = .edge :: sch) :
    step s = stepEdge { s with sched := sch } := by rw [step, h]

theorem edgeEnabled_iff {s : State} : edgeEnabled s = true ↔ s.edgePend = true ∧ s.ie = true := by
  rw [edgeEnabled, Bool.and_eq_true]

theorem edgeEnabled_eq_false {s : State} : edgeEnabled s = false ↔ s.edgePend = false ∨ s.ie = false := by
  rw [edgeEnabled, Bool.and_eq_false_iff]

theorem edgeTurn_of_enabled {P : Params} {s : State} (h : edgeEnabled s = true) : edgeTurn P s = edgeService P s := by
  rw [edgeTurn, if_pos h]

theorem edgeTurn_of_not_enabled {P : Params} {s : State} (h : edgeEnabled s = false) : edgeTurn P s = s := by
  rw [edgeTurn, if_neg (by rw [h]; decide)]

theorem edgeService_edgePend (P : Params) (s : State) : (edgeService P s).edgePend = false := by
  obtain ⟨r, v, o, e, q, w, h, -⟩ := edgeService_frame P s
  rw [h]

/-- After an edge service no second one is enabled. -/
theorem edgeTurn_edgeService (P : Params) (s : State) : edgeTurn P (edgeService P s) = edgeService P s :=
  edgeTurn_of_not_enabled (edgeEnabled_eq_false.mpr (.inl (edgeService_edgePend P s)))

/-- Where the schedule stands does not matter to a turn of the peripheral. -/
theorem envPTurn_sched (clk data : Bool) (s : State) (l l' : List Turn) :
    { envPTurn clk data { s with sched := l } with sched := l' } = envPTurn clk data { s with sched := l' } := by
  rcases hfall : qualifiedFall clk s with - | -
  · have hkept : ∀ m, qualifiedFall clk { s with sched := m } = false := fun _ => hfall
    rw [envPTurn_of_not_fall (hkept l), envPTurn_of_not_fall (hkept l')]
  · have hkept : ∀ m, qualifiedFall clk { s with sched := m } = true := fun _ => hfall
    rw [envPTurn_of_fall (hkept l), envPTurn_of_fall (hkept l')]

/-! ### An edge latched when a command starts -/

/-- A boundary after which only EDGE's turns are left services an edge that is enabled. -/
theorem yieldTurn_services (P : Params) {s : State} (hsched : s.sched = [] ∨ s.sched = [.edge])
    (he : edgeEnabled s = true) : yieldTurn P s = { edgeService P s with sched := [] } := by
  rcases hsched with h | h
  · rw [yieldTurn, h]
    show { edgeTurn P s with sched := [] } = _
    rw [edgeTurn_of_enabled he]
  · rw [yieldTurn, h]
    show { edgeTurn P (edgeTurn P s) with sched := [] } = _
    rw [edgeTurn_of_enabled he, edgeTurn_edgeService]

/-- Where ST stands does not matter to an edge service. -/
theorem edgeService_pd_st (P : Params) (s : State) (x : StState) :
    (edgeService P { s with st := x }).pd = (edgeService P s).pd := by
  by_cases hsend : s.pd.sendShift = 0
  · rcases hf : (edgeSample s).getLsbD 0 with - | -
    · rw [edgeService_of_recv hsend hf, edgeService_of_recv (s := { s with st := x }) hsend hf]
      rfl
    · rw [edgeService_of_complete hsend hf, edgeService_of_complete (s := { s with st := x }) hsend hf]
      have hdeliver : ∀ (f : Word) (t : State), (deliverFrame P f { t with st := x }).pd = (deliverFrame P f t).pd := by
        intro f t
        have hq : getQueue .pd .inq { t with st := x } = getQueue .pd .inq t := rfl
        cases hs : frameStop f <;> cases hp : parityOk (frameGroup f) <;>
          cases hi : (getQueue .pd .inq t).insert P.rbCap (frameData f) <;> simp [deliverFrame, hs, hp, rbInsert, hq, hi]
      exact hdeliver (edgeSample s)
        { s with edgePend := false, pd := { s.pd with busTimeout := P.tmoGuard, recvShift := 0 } }
  · rw [edgeService_of_send hsend, edgeService_of_send (s := { s with st := x }) hsend]

/-- Nothing is left to move, and PD is as `x`. -/
structure Serviced (x : PortState) (s : State) : Prop where
  sched : s.sched = []
  edgePend : s.edgePend = false
  pd : s.pd = x

theorem Serviced.isQuiet {x : PortState} {s : State} (h : Serviced x s) : quiet s :=
  ⟨h.sched, edgeEnabled_eq_false.mpr (.inl h.edgePend)⟩

theorem Serviced.microKeeps (P : Params) (x : PortState) : MicroKeeps P (Serviced x) where
  yield s h := by rw [yieldTurn_quiet h.isQuiet]; exact h
  wait _ _ h := { h with }
  drive w _ _ h := by cases w <;> exact { h with }
  st _ _ _ h := { h with }
  err _ _ _ h := { h with }

/-- The first boundary of an E_ST command services the edge. -/
theorem Serviced.first (P : Params) {s : State} (x : StState) (hsched : s.sched = [] ∨ s.sched = [.edge])
    (he : edgeEnabled s = true) : Serviced (edgeService P s).pd (yieldTurn P { s with st := x }) := by
  rw [yieldTurn_services P (s := { s with st := x }) hsched he]
  exact ⟨rfl, edgeService_edgePend P _, edgeService_pd_st P s x⟩

/-- A receive keeps from its first boundary on what each of its micro-steps keeps. -/
theorem MicroKeeps.recv_from {P : Params} {I : State → Prop} (h : MicroKeeps P I) {s : State}
    (hs : I (afterClkRead P s)) : I (stRecv P s).1 := by
  have hdata : I (afterDataRead P s) := h.micro _ (fun _ => id) hs
  rcases stRecv_split P s with ⟨-, e⟩ | ⟨-, -, e⟩ | ⟨-, -, e⟩ <;> rw [e]
  · exact hs
  · exact hdata
  · refine h.recvLoop _ _ ?_ (h.yield _ (h.st _ _ (.inr ?_) (h.st _ _ (.inl rfl) hdata)))
    · rw [micro_st, stBeginRecv_st]
      show 1 + P.nRecvMax ≤ P.nRecvMax + 1
      omega
    · show 1 ≤ max 10 (P.nRecvMax + 1)
      omega

/-- The edges are unmasked, and only EDGE's turns are left. -/
structure OnlyEdges (s : State) : Prop where
  ie : s.ie = true
  sched : s.sched = [] ∨ s.sched = [.edge]

theorem OnlyEdges.othersMove {s : State} (h : OnlyEdges s) (P : Params) (atEdge : Bool) :
    OnlyEdges (othersMove P atEdge s.sched s) := by
  refine ⟨(othersMove_frame P atEdge s.sched s).ie.trans h.ie, ?_⟩
  obtain ⟨k, hk⟩ := othersMove_sched P atEdge s.sched s
  rw [hk]
  rcases h.sched with hs | hs <;> rw [hs]
  · exact .inl List.drop_nil
  · cases k with
    | zero => exact .inr rfl
    | succ k => exact .inl (by simp)

theorem OnlyEdges.setQueue {s : State} (h : OnlyEdges s) (p : Port) (q : QueueId) (r : Ring) :
    OnlyEdges (setQueue p q r s) := by
  cases p <;> exact { h with }

/-- An arming sequence keeps what its writes and its waits keep (R151, R153). -/
theorem armingSequence_keeps {P : Params} {I : State → Prop} (hdrive : ∀ w v s, I s → I (driveWire .pd w v s))
    (hwait : ∀ n s, I s → I (waitFor n s)) (hyield : ∀ s, I s → I (yieldInSend P s)) {s : State} (hs : I s) :
    I (armingSequence P s) :=
  hdrive _ _ _ (hyield _ (hwait _ _ (hdrive _ _ _ (hyield _ (hwait _ _ (hdrive .clk false s hs))))))

theorem OnlyEdges.irqSend {s : State} (h : OnlyEdges s) (P : Params) (c : Byte) : OnlyEdges (irqSend P c s).1 := by
  rcases irqSend_split P c s with ⟨-, hop⟩ | ⟨-, -, -, hop⟩ | ⟨-, -, -, hop⟩ <;> rw [hop]
  · exact h
  · exact h
  · exact armingSequence_keeps (fun w _ _ h => by cases w <;> exact { h with }) (fun _ _ h => { h with })
      (fun _ h => h.othersMove P false) (s := irqLoaded P c s) { h with }

theorem OnlyEdges.microKeeps (P : Params) : MicroKeeps P OnlyEdges where
  yield s h := h.othersMove P true
  wait _ _ h := { h with }
  drive w _ _ h := by cases w <;> exact { h with }
  st _ _ _ h := { h with }
  err _ _ _ h := { h with }

/-- TMO_SERVICE writes neither the latch nor IE nor the schedule. -/
theorem tmoService_fields (s : State) : (tmoService s).2.edgePend = s.edgePend ∧ (tmoService s).2.ie = s.ie ∧
    (tmoService s).2.sched = s.sched := by
  rcases tmoService_split s with ⟨-, hop⟩ | ⟨-, -, hop⟩ | ⟨-, -, -, hop⟩ | ⟨-, -, -, hop⟩ <;> rw [hop]
  · exact ⟨rfl, rfl, rfl⟩
  · exact ⟨rfl, rfl, rfl⟩
  · exact ⟨rfl, rfl, rfl⟩
  · rw [recovery_eq]; exact ⟨rfl, rfl, rfl⟩

theorem OnlyEdges.relayUnits (P : Params) : RelayUnits P OnlyEdges where
  yield s h := h.othersMove P true
  send c _ h := (OnlyEdges.microKeeps P).send c h
  recv _ h := (OnlyEdges.microKeeps P).recv h
  queue p q r _ h := h.setQueue p q r
  log _ _ _ h := { h with }
  irq c _ h := h.irqSend P c
  tmo t h := by
    obtain ⟨-, hie, hsched⟩ := tmoService_fields t
    exact ⟨hie.trans h.ie, by rw [hsched]; exact h.sched⟩

/-- No edge is left latched after a boundary at which only EDGE's turns are left. -/
theorem OnlyEdges.yieldTurn_edgePend {P : Params} {s : State} (h : OnlyEdges s) : (yieldTurn P s).edgePend = false := by
  by_cases he : edgeEnabled s = true
  · rw [yieldTurn_services P h.sched he]
    exact edgeService_edgePend P s
  · rw [Bool.not_eq_true] at he
    have hpend : s.edgePend = false := (edgeEnabled_eq_false.mp he).resolve_right (by rw [h.ie]; decide)
    have hturn : edgeTurn P s = s := edgeTurn_of_not_enabled he
    rcases h.sched with hs | hs <;> rw [yieldTurn, hs]
    · show (edgeTurn P s).edgePend = false
      rw [hturn, hpend]
    · show (edgeTurn P (edgeTurn P s)).edgePend = false
      rw [hturn, hturn, hpend]

/-- The last boundary of a RELAY_STEP leaves no edge latched. -/
theorem OnlyEdges.relay_edgePend {P : Params} {s : State} (h : OnlyEdges s) : (relay P s).2.edgePend = false :=
  (tmoService_fields _).1.trans ((OnlyEdges.relayUnits P).moved h).yieldTurn_edgePend

/-- Settles O15: each turn by the branch of `step` and `othersMove` it takes, then the edge of a command's first or last
boundary. -/
theorem turnsRunTheirEvents : Obligations.TurnsRunTheirEvents := by
  refine ⟨fun s sch h => step_of_tick h, fun s sch h hp hie => ?_, fun s sch h hno => ?_, fun s h hp hie => ?_,
    fun s sch h hc => ?_, fun s u hp hie hu => ?_, fun atEdge s hno => ?_, fun atEdge turn s u hctrl hedge hu rest => ?_,
    fun atEdge s rest => rfl, fun i s t u hi hsched hp hie ht hu => ?_⟩
  · have he : edgeEnabled { s with sched := sch } = true := edgeEnabled_iff.mpr ⟨hp, hie⟩
    rw [step_of_edge h, stepEdge, if_pos he]
  · have he : edgeEnabled { s with sched := sch } = false := edgeEnabled_eq_false.mpr hno
    rw [step_of_edge h, stepEdge, if_neg (by rw [he]; decide)]
  · rw [step, h]
    exact if_pos (edgeEnabled_iff.mpr ⟨hp, hie⟩)
  · rw [step, h]
    show ctrlTurn { s with sched := sch } = _
    rw [ctrlTurn]
    simp only [hc]
  · obtain rfl := exec_next_iff.mp hu
    have hturn : edgeTurn s.params s = edgeService s.params s := edgeTurn_of_enabled (edgeEnabled_iff.mpr ⟨hp, hie⟩)
    refine ⟨fun rest => ?_, ?_⟩
    · show othersMove s.params true rest (edgeTurn s.params s) = _
      rw [hturn]
      rfl
    · show { edgeTurn s.params s with sched := [] } = _
      rw [hturn]
      rfl
  · have hturn : (if atEdge = true then edgeTurn s.params s else s) = s := by
      rcases Bool.eq_false_or_eq_true atEdge with ha | ha
      · have hnot : s.edgePend = false ∨ s.ie = false := by simpa [ha] using hno
        rw [if_pos ha, edgeTurn_of_not_enabled (edgeEnabled_eq_false.mpr hnot)]
      · rw [if_neg (by rw [ha]; decide)]
    refine ⟨fun rest => ?_, ?_⟩
    · show othersMove s.params atEdge rest (if atEdge = true then edgeTurn s.params s else s) = _
      rw [hturn]
    · show { (if atEdge = true then edgeTurn s.params s else s) with sched := [] } = _
      rw [hturn]
  · cases turn with
    | ctrl => exact absurd rfl hctrl
    | edge => exact absurd rfl hedge
    | tick =>
      rw [step_of_tick rfl] at hu
      obtain rfl := exec_next_iff.mp hu
      rfl
    | envP c d =>
      rw [step_of_envP rfl] at hu
      injection hu with hu
      rw [← hu, envPTurn_sched]
      rfl
    | envH c d =>
      rw [step_of_envH rfl] at hu
      injection hu with hu
      rw [← hu]
      rfl
  · obtain rfl := exec_next_iff.mp ht
    obtain rfl := exec_next_iff.mp hu
    have he := edgeEnabled_iff.mpr ⟨hp, hie⟩
    have hkeeps := Serviced.microKeeps s.params (edgeService s.params s).pd
    rcases hi with rfl | rfl | ⟨c, rfl⟩
    · rw [after, writeRes_edgePend]
      exact ⟨OnlyEdges.relay_edgePend ⟨hie, hsched⟩, fun hne => absurd rfl hne⟩
    · rw [after, after, writeRes_edgePend, writeRes_pd]
      obtain ⟨-, hpend, hpd⟩ := hkeeps.recv_from (s := s) (.first s.params _ hsched he)
      exact ⟨hpend, fun _ => hpd⟩
    · rw [after, after, writeRes_edgePend, writeRes_pd]
      have hbegin : Serviced (edgeService s.params s).pd (micro s.params .begin (stBeginSend c) s) :=
        .first s.params _ hsched he
      obtain ⟨-, hpend, hpd⟩ := hkeeps.sendLoop 10 _ (by rw [micro_st]; rfl) hbegin
      exact ⟨hpend, fun _ => hpd⟩

end Sys2Proof.Machine
end

/-! ## Proofs: RELAY_STEP when the other agents rest (44_supervisor.md R206 to R213) -/

section

namespace Sys2Proof.Machine

/-! ### The bits of m and the last step (R206, R212) -/

/-- The bits of m. -/
theorem relayBits (b0 b1 b2 b3 b4 : Bool) :
    (nibble b0 b1 b2 b3 ||| bitAt b4 4).getLsbD 0 = b0 ∧ (nibble b0 b1 b2 b3 ||| bitAt b4 4).getLsbD 1 = b1 ∧
    (nibble b0 b1 b2 b3 ||| bitAt b4 4).getLsbD 2 = b2 ∧ (nibble b0 b1 b2 b3 ||| bitAt b4 4).getLsbD 3 = b3 ∧
    (nibble b0 b1 b2 b3 ||| bitAt b4 4).getLsbD 4 = b4 ∧ (nibble b0 b1 b2 b3 ||| bitAt b4 4).toNat < 32 := by
  revert b0 b1 b2 b3 b4
  decide

/-- RELAY_STEP from what its steps do. -/
theorem relay_of_steps {P : Params} {s s1 s2 s3 s4 t : State} {b1 b2 b3 b4 b5 : Bool} (h1 : relayStep1 P s = (b1, s1))
    (h2 : relayStep2 P s1 = (b2, s2)) (h3 : relayStep3 P s2 = (b3, s3)) (h4 : relayStep4 P s3 = (b4, s4))
    (h5 : tmoService s4 = (b5, t)) : relay P s = (nibble b1 b2 b3 b4 ||| bitAt b5 4, t) := by
  simp only [relay, h1, h2, h3, h4, h5]

theorem exec_relayStep_of_eq {s t : State} {m : Word} (h : relay s.params s = (m, t)) :
    exec .relayStep s = .next (writeRes ⟨.ok, false, m⟩ t) := by
  rw [exec_eq, after, h]

/-- The tick is consumed, and a recovery leaves PD idle and released (R201, R202). -/
theorem tmoService_out (s : State) : (tmoService s).2.tickFlag = false ∧ ((tmoService s).1 = true →
    pdPhase (tmoService s).2 = .idle ∧ (tmoService s).2.pd.busTimeout = 0 ∧ (tmoService s).2.pd.outClk = true ∧
      (tmoService s).2.pd.outData = true) := by
  rcases tmoService_split s with ⟨hflag, hop⟩ | ⟨-, -, hop⟩ | ⟨-, -, -, hop⟩ | ⟨-, -, -, hop⟩ <;> rw [hop]
  · exact ⟨hflag, fun h => by cases h⟩
  · exact ⟨rfl, fun h => by cases h⟩
  · exact ⟨rfl, fun h => by cases h⟩
  · rw [recovery_eq]
    exact ⟨rfl, fun _ => ⟨rfl, rfl, rfl, rfl⟩⟩

/-- ST is not busy between the units of a RELAY_STEP. -/
theorem relayUnits_idle (P : Params) : RelayUnits P (fun t => t.st.busy = false) where
  yield s h := by rw [(yieldTurn_frame P s).st]; exact h
  queue p q _ _ h := by rw [setQueue_st]; exact h
  log _ _ _ h := h
  irq c s h := by
    rcases irqSend_split P c s with ⟨-, hop⟩ | ⟨-, -, -, hop⟩ | ⟨-, -, -, hop⟩ <;> rw [hop]
    · exact h
    · exact h
    · obtain ⟨a, b, x, y, f, l, harm⟩ := armingSequence_eq P (irqLoaded P c s)
      rw [harm]
      exact h
  tmo s h := by
    rcases tmoService_split s with ⟨-, hop⟩ | ⟨-, -, hop⟩ | ⟨-, -, -, hop⟩ | ⟨-, -, -, hop⟩ <;> rw [hop]
    · exact h
    · exact h
    · exact h
    · rw [recovery_eq]; exact h
  send c s _ := (stSend_outcome P c s).idle
  recv s h := by
    rcases stRecv_end P s with ⟨-, ⟨pc, hst⟩, -⟩ | hend
    · rw [hst]; exact h
    · exact hend.idle

/-- What a RELAY_STEP reports, and that it ends with TMO_SERVICE. -/
theorem relay_ends (P : Params) (s : State) : ∃ b1 b2 b3 b4 u,
    relay P s = (nibble b1 b2 b3 b4 ||| bitAt (tmoService u).1 4, (tmoService u).2) := ⟨_, _, _, _, _, rfl⟩

/-- Settles O54: the result's form, the frame of a command, and the last step. -/
theorem relayStepAlwaysReports : Obligations.RelayStepAlwaysReports := by
  intro s
  have hframe := (CmdFrame.relayKeeps s.params s).relay (.refl s)
  have hidle := (relayUnits_idle s.params).relay (s := s)
  obtain ⟨b1, b2, b3, b4, u, hrelay⟩ := relay_ends s.params s
  obtain ⟨-, -, -, -, hbit, hlt⟩ := relayBits b1 b2 b3 b4 (tmoService u).1
  obtain ⟨htick, hrecovered⟩ := tmoService_out u
  rw [hrelay] at hframe hidle
  refine ⟨_, exec_relayStep_of_eq hrelay, ?_⟩
  rw [writeRes_res, resStatus_packRes, resNv_packRes, resValue_packRes]
  exact ⟨rfl, rfl, hlt, hidle, hframe.ie, hframe.cmds, htick, fun h => hrecovered (hbit.symm.trans h)⟩

/-! ### Boundaries at which no other agent moves -/

/-- Only CTRL's turns are left, and no edge can be serviced. -/
structure Calm (s : State) : Prop where
  sched : ∀ u ∈ s.sched, u = .ctrl
  edge : edgeEnabled s = false

/-- A boundary of a calm state takes at most CTRL's turn off the schedule. -/
def passed (s : State) : State := { s with sched := s.sched.drop 1 }

theorem passed_of_nil {s : State} (h : s.sched = []) : passed s = s := by
  have hself : { s with sched := s.sched } = s := rfl
  rw [passed, h, List.drop_nil, ← h, hself]

theorem Calm.of_quiet {s : State} (h : quiet s) : Calm s := ⟨fun u hu => by simp [h.1] at hu, h.2⟩

theorem calm_passed {s : State} (h : Calm s) : Calm (passed s) :=
  ⟨fun u hu => h.sched u (List.mem_of_mem_drop hu), h.edge⟩

theorem othersMove_calm {s : State} (h : Calm s) (P : Params) (atEdge : Bool) :
    othersMove P atEdge s.sched s = passed s := by
  rcases hs : s.sched with - | ⟨u, rest⟩
  · have hturn : (if atEdge = true then edgeTurn P s else s) = s := by
      rw [edgeTurn_of_not_enabled h.edge, ite_self]
    show { (if atEdge = true then edgeTurn P s else s) with sched := [] } = _
    rw [hturn, passed, hs]
    rfl
  · obtain rfl := h.sched u (by rw [hs]; exact List.mem_cons_self ..)
    rw [passed, hs]
    rfl

theorem yieldTurn_calm {s : State} (h : Calm s) (P : Params) : yieldTurn P s = passed s := othersMove_calm h P true

theorem yieldInSend_calm {s : State} (h : Calm s) (P : Params) : yieldInSend P s = passed s := othersMove_calm h P false

theorem calm_setQueue {s : State} (h : Calm s) (p : Port) (q : QueueId) (r : Ring) : Calm (setQueue p q r s) := by
  cases p <;> exact { h with }

/-- The state an arming sequence leaves when no other agent moves (R151). -/
def armedState (P : Params) (c : Byte) (s : State) : State :=
  { s with
    pd := { s.pd with sendShift := irqPattern c, busTimeout := P.tmoGuard, outClk := true, outData := false }
    wtrace := s.wtrace ++ armTrace P
    sched := s.sched.drop 2 }

theorem armingSequence_calm {s : State} (h : Calm s) (P : Params) (c : Byte) :
    armingSequence P (irqLoaded P c s) = armedState P c s := by
  have hfirst : Calm (waitFor P.tInh (setLow .pd .clk (irqLoaded P c s))) := { h with }
  have hsecond : Calm (waitFor P.tStart (setLow .pd .data
      (passed (waitFor P.tInh (setLow .pd .clk (irqLoaded P c s)))))) :=
    ⟨(calm_passed hfirst).sched, h.edge⟩
  rw [armingSequence, yieldInSend_calm hfirst, yieldInSend_calm hsecond]
  simp [armedState, passed, armTrace, driveWire, waitFor, updPort, irqLoaded]

theorem calm_armedState {s : State} (h : Calm s) (P : Params) (c : Byte) : Calm (armedState P c s) :=
  ⟨fun u hu => h.sched u (List.mem_of_mem_drop hu), h.edge⟩

/-! ### The steps at such boundaries -/

/-- An empty queue is found empty. -/
theorem rbRemove_of_empty {P : Params} {p : Port} {q : QueueId} {s : State} (h : (getQueue p q s).count = 0) :
    rbRemove P p q s = (none, s) := by
  simp [rbRemove, Ring.remove, h]

theorem fifo_eq_nil {p : Port} {q : QueueId} {s : State} : fifo p q s = [] ↔ (getQueue p q s).count = 0 :=
  Ring.seq_eq_nil

/-- Steps 2 and 3 with nothing to send. -/
theorem Calm.sendFrom_empty {s : State} (h : Calm s) (P : Params) {p : Port} {send : Byte → State → State × CmdResult}
    (hq : (getQueue p .out s).count = 0) : sendFrom P p send s = (false, passed s) := by
  rcases sendFrom_split P p send s with ⟨-, e⟩ | ⟨c, hc, -⟩ | ⟨c, hc, -⟩
  · rw [e, rbRemove_of_empty hq, yieldTurn_calm h]
  · rw [rbRemove_of_empty hq] at hc; cases hc
  · rw [rbRemove_of_empty hq] at hc; cases hc

/-- Step 4 with nothing to move. -/
theorem Calm.step4_empty {s : State} (h : Calm s) (P : Params) (hq : s.pd.qIn.count = 0) :
    relayStep4 P s = (false, passed s) := by
  rcases relayMove_split P s with ⟨-, e⟩ | ⟨hne, -⟩
  · rw [relayStep4, e, yieldTurn_calm h]
  · exact absurd hq hne

/-- Step 4 with a byte to move and room for it. -/
theorem Calm.step4_moves {P : Params} {s : State} (h : Calm s) (hP : s.params = P) {v : Byte} {l : List Byte}
    (hin : (getQueue .pd .inq s).wf P.rbCap = true) (hout : (getQueue .ph .out s).wf P.rbCap = true)
    (hfifo : fifo .pd .inq s = v :: l) (hroom : (fifo .ph .out s).length < P.rbCap) :
    ∃ r r', r.wf P.rbCap = true ∧ r'.wf P.rbCap = true ∧ r.seq P.rbCap = l ∧
      r'.seq P.rbCap = fifo .ph .out s ++ [v] ∧
      relayStep4 P s = (true, passed (appendLog .p2c v (setQueue .ph .out r' (setQueue .pd .inq r s)))) := by
  rcases relayMove_split P s with ⟨hstop, -⟩ | ⟨-, -, c, t, hr, e⟩
  · rcases hstop with hempty | hfull
    · have hnil : fifo .pd .inq s = [] := fifo_eq_nil.mpr hempty
      rw [hnil] at hfifo
      cases hfifo
    · rw [fifo, hP, Ring.seq_length] at hroom
      exact absurd hfull hroom.ne
  · rcases rbRemove_spec hP .pd .inq hin with ⟨hnil, -⟩ | ⟨v', l', r, hcons, hop, hwf, hseq, -⟩
    · rw [hnil] at hfifo; cases hfifo
    · obtain ⟨rfl, rfl⟩ : v' = v ∧ l' = l := by
        rw [hcons] at hfifo
        exact ⟨(List.cons.inj hfifo).1, (List.cons.inj hfifo).2⟩
      rw [hop] at hr
      obtain ⟨rfl, rfl⟩ : v' = c ∧ setQueue .pd .inq r s = t := by
        injection hr with hv ht
        exact ⟨Option.some.inj hv, ht⟩
      have hkept : fifo .ph .out (setQueue .pd .inq r s) = fifo .ph .out s := by simp [fifo_setQueue]
      rcases rbInsert_spec (P := P) (s := setQueue .pd .inq r s) hP .ph .out v' hout with
        ⟨hfull, -⟩ | ⟨-, r', hins, hwf', hseq'⟩
      · rw [hkept] at hfull
        exact absurd hfull hroom.ne
      · refine ⟨r, r', hwf, hwf', hseq, by rw [hseq', hkept], ?_⟩
        rw [hins] at e
        rw [relayStep4, e]
        have hcalm : Calm (appendLog .p2c v' (setQueue .ph .out r' (setQueue .pd .inq r s))) := { h with }
        rw [yieldTurn_calm hcalm]

/-- A removal, with the queue it leaves. -/
theorem rbRemove_cons {P : Params} {s : State} (hP : s.params = P) {p : Port} {q : QueueId} {v : Byte} {l : List Byte}
    (hwf : (getQueue p q s).wf P.rbCap = true) (hfifo : fifo p q s = v :: l) :
    ∃ r, rbRemove P p q s = (some v, setQueue p q r s) ∧ r.wf P.rbCap = true ∧ r.seq P.rbCap = l ∧ r.count < P.rbCap := by
  rcases rbRemove_spec hP p q hwf with ⟨hnil, -⟩ | ⟨v', l', r, hcons, hop, hr, hseq, hlt⟩
  · rw [hnil] at hfifo; cases hfifo
  · rw [hcons] at hfifo
    obtain ⟨rfl, rfl⟩ := List.cons.inj hfifo
    exact ⟨r, hop, hr, hseq, hlt⟩

/-- Step 3 on an idle PD: the byte is taken and its send armed (R209). -/
theorem Calm.step3_arms {P : Params} {s : State} (h : Calm s) (hP : s.params = P) {v : Byte} {l : List Byte}
    (hwf : (getQueue .pd .out s).wf P.rbCap = true) (hfifo : fifo .pd .out s = v :: l) (hrecv : s.pd.recvShift = 0)
    (hsend : s.pd.sendShift = 0) (hpend : s.edgePend = false) :
    ∃ r, r.wf P.rbCap = true ∧ r.seq P.rbCap = l ∧ relayStep3 P s =
      (true, passed (armedState P v (passed (setQueue .pd .out r s)))) := by
  obtain ⟨r, hop, hr, hseq, -⟩ := rbRemove_cons hP hwf hfifo
  have hcalm : Calm (passed (setQueue .pd .out r s)) := calm_passed (calm_setQueue h .pd .out r)
  have harm := irqSend_armed (P := P) v (s := passed (setQueue .pd .out r s)) hrecv hpend hsend
  refine ⟨r, hr, hseq, ?_⟩
  rw [relayStep3_eq]
  rcases sendFrom_split P .pd (irqSend P) s with ⟨hc, -⟩ | ⟨c, hc, hok, e⟩ | ⟨c, hc, hfail, -⟩
  · rw [hop] at hc; cases hc
  · rw [hop] at hc e
    obtain rfl : v = c := Option.some.inj hc
    rw [e, yieldTurn_calm (calm_setQueue h .pd .out r), harm, armingSequence_calm hcalm,
      yieldTurn_calm (calm_armedState hcalm P v)]
  · rw [hop] at hc hfail
    obtain rfl : v = c := Option.some.inj hc
    rw [yieldTurn_calm (calm_setQueue h .pd .out r), harm] at hfail
    exact absurd rfl hfail

/-- Step 3 on a PD that refuses: the byte is put back (R209, R213 (c)). -/
theorem Calm.step3_refused {P : Params} {s : State} (h : Calm s) (hP : s.params = P) {v : Byte} {l : List Byte}
    (hwf : (getQueue .pd .out s).wf P.rbCap = true) (hfifo : fifo .pd .out s = v :: l)
    (hbusy : pdPhase s ≠ .idle ∨ s.edgePend = true) :
    ∃ r, r.wf P.rbCap = true ∧ r.seq P.rbCap = v :: l ∧ ∃ k, relayStep3 P s =
      (false, { setQueue .pd .out r s with sched := s.sched.drop k }) := by
  obtain ⟨r, hop, hr, hseq, hlt⟩ := rbRemove_cons hP hwf hfifo
  have hcalm : Calm (passed (setQueue .pd .out r s)) := calm_passed (calm_setQueue h .pd .out r)
  have hrefused : ∃ e, e ≠ Status.ok ∧ irqSend P v (passed (setQueue .pd .out r s)) =
      (passed (setQueue .pd .out r s), ⟨e, true, 0⟩) := by
    rcases irqSend_split P v (passed (setQueue .pd .out r s)) with
      ⟨-, hx⟩ | ⟨-, -, -, hx⟩ | ⟨hrecv, hpend, hsend, -⟩
    · exact ⟨_, by decide, hx⟩
    · exact ⟨_, by decide, hx⟩
    · have hidle : pdPhase s = .idle := (pdPhase_idle_iff s).mpr ⟨hrecv, hsend⟩
      have hpend' : s.edgePend = false := hpend
      rw [hidle, hpend'] at hbusy
      simp at hbusy
  obtain ⟨e, hne, hirq⟩ := hrefused
  have hback : ∃ r', rbPushBack P .pd .out v (passed (passed (setQueue .pd .out r s))) =
      (.ok, setQueue .pd .out r' (passed (passed (setQueue .pd .out r s)))) ∧
      r'.wf P.rbCap = true ∧ r'.seq P.rbCap = v :: l := by
    have hlen : (fifo .pd .out (passed (passed (setQueue .pd .out r s)))).length = r.count :=
      Ring.seq_length _ r
    rcases rbPushBack_spec (P := P) (s := passed (passed (setQueue .pd .out r s))) hP .pd .out v
      hr with ⟨hfull, -⟩ | ⟨-, r', hpush, hr', hseq'⟩
    · rw [hlen] at hfull
      exact absurd hfull hlt.ne
    · refine ⟨r', hpush, hr', hseq'.trans ?_⟩
      rw [← hseq, ← hP]
      rfl
  obtain ⟨r', hpush, hr', hseq'⟩ := hback
  refine ⟨r', hr', hseq', 3, ?_⟩
  rw [relayStep3_eq]
  rcases sendFrom_split P .pd (irqSend P) s with ⟨hc, -⟩ | ⟨c, hc, hok, -⟩ | ⟨c, hc, -, hx⟩
  · rw [hop] at hc; cases hc
  · rw [hop] at hc hok
    obtain rfl : v = c := Option.some.inj hc
    rw [yieldTurn_calm (calm_setQueue h .pd .out r), hirq] at hok
    exact absurd hok hne
  · rw [hop] at hc hx
    obtain rfl : v = c := Option.some.inj hc
    rw [hx, yieldTurn_calm (calm_setQueue h .pd .out r), hirq, yieldTurn_calm hcalm, hpush,
      yieldTurn_calm (calm_setQueue (calm_passed hcalm) .pd .out r')]
    simp [passed, setQueue, updPort, PortState.setQueue]

end Sys2Proof.Machine
end

/-! ## Proofs: RELAY_STEP in a quiet system (44_supervisor.md R206 to R213) -/

section

namespace Sys2Proof.Machine

/-! ### Steps 1 and 2 before a passive computer -/

@[simp] theorem fifo_atPc (p : Port) (q : QueueId) (pc : MicroPc) (s : State) : fifo p q (atPc pc s) = fifo p q s := by
  cases p <;> rfl

@[simp] theorem fifo_passed (p : Port) (q : QueueId) (s : State) : fifo p q (passed s) = fifo p q s := by
  cases p <;> rfl

@[simp] theorem fifo_appendLog (p : Port) (q : QueueId) (d : Dir) (c : Byte) (s : State) :
    fifo p q (appendLog d c s) = fifo p q s := by
  cases p <;> rfl

theorem quiet.still {s : State} (h : quiet s) : computerStill s := fun u hu => by simp [h.1] at hu

/-- Step 1 before a passive computer moves the position only (R207, R178). -/
theorem quiet_step1 (P : Params) {s : State} (hq : quiet s) (hcomputer : computerReleased s)
    (hreleased : phDriversReleased s) : ∃ pc, relayStep1 P s = (false, atPc pc s) := by
  have hdata : readWire .ph .data s = true := by rw [readWire_ph_data, hreleased.2, hcomputer.2]; rfl
  obtain ⟨hr, ⟨pc, hst⟩, hph, htrace⟩ := stRecv_noFrame P (.inr ⟨hq.still, hdata⟩)
  have hquiet := (QuietFrame.microKeeps P s).recv (.refl hq)
  obtain ⟨-, hclk', hdata'⟩ := (StFrame.recv P s).still hq.still
  rw [hclk', hdata'] at hph
  have heq : (stRecv P s).1 = atPc pc s := by
    rw [hquiet.eq_of_ph (l := []) hph (by rw [htrace, List.append_nil]), hst, List.append_nil]
    rfl
  rcases relayStep1_split P s with ⟨-, e⟩ | ⟨-, -, e⟩ | ⟨-, hok, -⟩
  · exact ⟨s.st.pc, e⟩
  · exact ⟨pc, by rw [e, yieldTurn_quiet hquiet.isQuiet, heq]⟩
  · rw [hr] at hok; cases hok

/-- Step 2 to a passive computer: the head is taken and sent (R208). -/
theorem quiet_step2_sends {P : Params} {s : State} (hP : s.params = P) (hq : quiet s) (hcomputer : computerReleased s)
    (hreleased : phDriversReleased s) {v : Byte} {l : List Byte} (hwf : (getQueue .ph .out s).wf P.rbCap = true)
    (hfifo : fifo .ph .out s = v :: l) :
    ∃ r u, r.seq P.rbCap = l ∧ u = { setQueue .ph .out r s with wtrace := s.wtrace ++ sendTrace P v, st := u.st } ∧
      relayStep2 P s = (true, u) := by
  obtain ⟨r, hop, -, hseq, -⟩ := rbRemove_cons hP hwf hfifo
  have hquiet : quiet (setQueue .ph .out r s) := hq
  obtain ⟨hok, hph, htrace⟩ := stSend_passive P v (s := setQueue .ph .out r s) hquiet.still hcomputer hreleased
  have hsend := (QuietFrame.microKeeps P (setQueue .ph .out r s)).send v (.refl hquiet)
  refine ⟨r, (stSend P v (setQueue .ph .out r s)).1, hseq, hsend.eq_of_ph hph htrace, ?_⟩
  rw [relayStep2_eq]
  rcases sendFrom_split P .ph (stSend P) s with ⟨hc, -⟩ | ⟨c, hc, -, e⟩ | ⟨c, hc, hfail, -⟩
  · rw [hop] at hc; cases hc
  · rw [hop] at hc e
    obtain rfl : v = c := Option.some.inj hc
    rw [e, yieldTurn_quiet hquiet, yieldTurn_quiet hsend.isQuiet]
  · rw [hop] at hc hfail
    obtain rfl : v = c := Option.some.inj hc
    rw [yieldTurn_quiet hquiet, hok] at hfail
    exact absurd rfl hfail

/-! ### Whole steps -/

theorem quiet_atPc {s : State} (pc : MicroPc) (h : quiet s) : quiet (atPc pc s) := h

/-- TMO_SERVICE by its cases (R201). -/
theorem tmoService_no_tick {s : State} (h : s.tickFlag = false) : tmoService s = (false, s) := by
  simp [tmoService, h]

theorem tmoService_stopped {s : State} (h : s.tickFlag = true) (hstop : s.pd.busTimeout = 0#8) :
    tmoService s = (false, { s with tickFlag := false }) := by
  simp [tmoService, h, hstop]

theorem tmoService_counts {s : State} (h : s.tickFlag = true) (hrun : s.pd.busTimeout ≠ 0#8)
    (hnot : s.pd.busTimeout ≠ 1#8) :
    tmoService s = (false, { s with tickFlag := false, pd := { s.pd with busTimeout := s.pd.busTimeout - 1 } }) := by
  have hnext : ¬ s.pd.busTimeout - 1#8 = 0#8 := fun hz => hnot (sub_eq_zero.mp hz)
  simp [tmoService, h, hrun, countDown, hnext]
  rfl

theorem tmoService_recovers {s : State} (h : s.tickFlag = true) (hone : s.pd.busTimeout = 1#8) :
    tmoService s = (true, recovery { s with tickFlag := false, pd := { s.pd with busTimeout := 0 } }) := by
  simp [tmoService, h, countDown, hone, updPort]

theorem quiet_step3_empty (P : Params) {s : State} (hq : quiet s) (hout : s.pd.qOut.count = 0) :
    relayStep3 P s = (false, s) := by
  rw [relayStep3_eq, (Calm.of_quiet hq).sendFrom_empty P (p := .pd) hout, passed_of_nil hq.1]

theorem quiet_step4_empty (P : Params) {s : State} (hq : quiet s) (hin : s.pd.qIn.count = 0) :
    relayStep4 P s = (false, s) := by
  rw [(Calm.of_quiet hq).step4_empty P hin, passed_of_nil hq.1]

/-- RELAY_STEP with an empty PH.OUT before a passive computer, up to step 3. -/
theorem quiet_steps12 (P : Params) {s : State} (hq : quiet s) (hcomputer : computerReleased s)
    (hreleased : phDriversReleased s) (hempty : s.ph.qOut.count = 0) :
    ∃ pc, relayStep1 P s = (false, atPc pc s) ∧ relayStep2 P (atPc pc s) = (false, atPc pc s) := by
  obtain ⟨pc, h1⟩ := quiet_step1 P hq hcomputer hreleased
  refine ⟨pc, h1, ?_⟩
  rw [relayStep2_eq, (Calm.of_quiet (quiet_atPc pc hq)).sendFrom_empty P (p := .ph) hempty,
    passed_of_nil (quiet_atPc pc hq).1]

theorem writeRes_value {w : Word} {x : ResWord} (t : State) (h : packRes ⟨.ok, false, w⟩ = x) :
    writeRes ⟨.ok, false, w⟩ t = { t with res := x } := by
  rw [← h]
  rfl

/-- RELAY_STEP with nothing to relay before a passive computer is its step 5. -/
theorem quiet_relay_empty (P : Params) {s : State} (hq : quiet s) (hcomputer : computerReleased s)
    (hreleased : phDriversReleased s) (hin : s.pd.qIn.count = 0) (hout : s.pd.qOut.count = 0)
    (hempty : s.ph.qOut.count = 0) : ∃ pc, relay P s =
      (nibble false false false false ||| bitAt (tmoService (atPc pc s)).1 4, (tmoService (atPc pc s)).2) := by
  obtain ⟨pc, h1, h2⟩ := quiet_steps12 P hq hcomputer hreleased hempty
  exact ⟨pc, relay_of_steps h1 h2 (quiet_step3_empty P (quiet_atPc pc hq) hout)
    (quiet_step4_empty P (quiet_atPc pc hq) hin) rfl⟩

/-- Settles O53: step 5 in the four cases of R201. -/
theorem relayStepServicesTick : Obligations.RelayStepServicesTick := by
  intro s hq hcomputer hreleased hin hout hempty
  obtain ⟨pc, hrelay⟩ := quiet_relay_empty s.params hq hcomputer hreleased hin hout hempty
  have hres : ∀ b t, tmoService (atPc pc s) = (b, t) → exec .relayStep s =
      .next { t with res := packRes ⟨.ok, false, nibble false false false false ||| bitAt b 4⟩ } := by
    intro b t hop
    rw [hop] at hrelay
    rw [exec_relayStep_of_eq hrelay]
    rfl
  have hzero : packRes ⟨.ok, false, nibble false false false false ||| bitAt false 4⟩ = 0 := by decide
  have hsixteen : packRes ⟨.ok, false, nibble false false false false ||| bitAt true 4⟩ = 16 := by decide
  refine ⟨{ s.st with pc := pc }, rfl, fun hflag => ?_, fun hflag hstop => ?_, fun hflag hrun hnot => ?_,
    fun hflag hone => ?_⟩
  · rw [hres _ _ (tmoService_no_tick hflag), hzero]
    rfl
  · rw [hres _ _ (tmoService_stopped hflag hstop), hzero]
    rfl
  · rw [hres _ _ (tmoService_counts hflag hrun hnot), hzero]
    rfl
  · rw [hres _ _ (tmoService_recovers hflag hone), recovery_eq, hsixteen]
    simp only [pdBusy_iff]
    rfl

/-- Settles O56: steps 1 to 3 find nothing, and step 4 moves the byte. -/
theorem relayStepForwardsPeripheralByte : Obligations.RelayStepForwardsPeripheralByte := by
  intro s v l hinv hq hcomputer htick hin hout hpdOut
  obtain ⟨hunit, hrest⟩ := blockInv_iff.mp hinv
  obtain ⟨pc, h1, h2⟩ := quiet_steps12 s.params hq hcomputer hrest.phReleased (fifo_eq_nil.mp hout)
  have hcalm := Calm.of_quiet (quiet_atPc pc hq)
  have h3 := quiet_step3_empty s.params (quiet_atPc pc hq) (fifo_eq_nil.mp hpdOut)
  obtain ⟨r, r', -, -, hseq, hseq', h4⟩ := hcalm.step4_moves (P := s.params) rfl (v := v) (l := l)
    (Ring.wf_queue hunit .pd .inq) (Ring.wf_queue hunit .ph .out) (by rw [fifo_atPc]; exact hin)
    (by rw [fifo_atPc, hout]; exact Ring.wf_cap_pos (Ring.wf_queue hunit .ph .out))
  have hrelay := relay_of_steps h1 h2 h3 h4 (tmoService_no_tick htick)
  refine ⟨_, exec_relayStep_of_eq hrelay, ?_, ?_, ?_, rfl, rfl, ?_⟩
  · exact (writeRes_res ..).trans (by decide)
  · rw [fifo_writeRes, fifo_passed, fifo_appendLog, fifo_setQueue, if_neg (by decide), fifo_setQueue, if_pos ⟨rfl, rfl⟩]
    exact hseq
  · rw [fifo_writeRes, fifo_passed, fifo_appendLog, fifo_setQueue, if_pos ⟨rfl, rfl⟩]
    rw [fifo_atPc, hout] at hseq'
    exact hseq'
  · rw [fifo_writeRes, fifo_passed, fifo_appendLog, fifo_setQueue, if_neg (by decide), fifo_setQueue, if_neg (by decide),
      fifo_atPc]
    exact hpdOut

/-- Settles O58: step 2 sends the head, and the other steps find nothing. -/
theorem relayStepSendsToComputer : Obligations.RelayStepSendsToComputer := by
  intro s v l hinv hq hcomputer htick hout hin hpdOut
  obtain ⟨hunit, hrest⟩ := blockInv_iff.mp hinv
  obtain ⟨pc, h1⟩ := quiet_step1 s.params hq hcomputer hrest.phReleased
  obtain ⟨r, u, hseq, hu, h2⟩ := quiet_step2_sends (P := s.params) (s := atPc pc s) rfl hq hcomputer hrest.phReleased
    (Ring.wf_queue hunit .ph .out) ((fifo_atPc ..).trans hout)
  have hquiet : quiet u := by rw [hu]; exact hq
  have hpd : u.pd = s.pd := by rw [hu]; rfl
  have h3 := quiet_step3_empty s.params hquiet (by rw [hpd]; exact fifo_eq_nil.mp hpdOut)
  have h4 := quiet_step4_empty s.params hquiet (by rw [hpd]; exact fifo_eq_nil.mp hin)
  have hrelay := relay_of_steps h1 h2 h3 h4 (tmoService_no_tick (by rw [hu]; exact htick))
  refine ⟨_, exec_relayStep_of_eq hrelay, (writeRes_res ..).trans (by decide), ?_⟩
  rw [hu]
  exact ⟨hseq, rfl, rfl, hrest.phReleased, rfl, rfl⟩

/-- Settles O59: step 3 arms the head, and the other steps find nothing. -/
theorem relayStepArmsPeripheralSend : Obligations.RelayStepArmsPeripheralSend := by
  intro s v l hinv hq hcomputer htick hidle hpend hfifo hout hin
  obtain ⟨hunit, hrest⟩ := blockInv_iff.mp hinv
  obtain ⟨hrecv, hsend⟩ := (pdPhase_idle_iff s).mp hidle
  obtain ⟨pc, h1, h2⟩ := quiet_steps12 s.params hq hcomputer hrest.phReleased (fifo_eq_nil.mp hout)
  have hcalm := Calm.of_quiet (quiet_atPc pc hq)
  obtain ⟨r, -, hseq, h3⟩ := hcalm.step3_arms (P := s.params) rfl (Ring.wf_queue hunit .pd .out)
    ((fifo_atPc ..).trans hfifo) hrecv hsend hpend
  have hafter := calm_passed (calm_armedState (calm_passed (calm_setQueue hcalm .pd .out r)) s.params v)
  have h4 := hafter.step4_empty s.params (fifo_eq_nil.mp hin)
  have hrelay := relay_of_steps h1 h2 h3 h4 (tmoService_no_tick htick)
  exact ⟨_, exec_relayStep_of_eq hrelay, (writeRes_res ..).trans (by decide), hseq, rfl, rfl, rfl, rfl, rfl, rfl⟩

end Sys2Proof.Machine
end

/-! ## Proofs: RELAY_STEP conserves bytes under every schedule (44_supervisor.md R207 to R213) -/

section

namespace Sys2Proof.Machine

/-! ### What boundaries and E_ST commands do to the queues -/

/-- How often the block has pulled PD's clock low. -/
def clockPulls (s : State) : Nat := s.wtrace.count (.drive .pd .clk false)

/-- No edge is latched, and no turn is left that could clock one. -/
def Unclocked (s : State) : Prop := s.edgePend = false ∧ ∀ u ∈ s.sched, ∀ c d, u ≠ .envP c d

/-- A ring to which bytes were only appended. -/
def Grown (P : Params) (r r' : Ring) : Prop :=
  r.wf P.rbCap = true → r'.wf P.rbCap = true ∧ ∃ rcv, r'.seq P.rbCap = r.seq P.rbCap ++ rcv

theorem Grown.refl (P : Params) (r : Ring) : Grown P r r := fun h => ⟨h, [], by simp⟩

theorem Grown.trans {P : Params} {r r' r'' : Ring} (h : Grown P r r') (g : Grown P r' r'') : Grown P r r'' := by
  intro hwf
  obtain ⟨hwf', rcv, hseq⟩ := h hwf
  obtain ⟨hwf'', rcv', hseq'⟩ := g hwf'
  exact ⟨hwf'', rcv ++ rcv', by rw [hseq', hseq, List.append_assoc]⟩

/-- What the turns at a boundary do to PD.IN and to PD's clock. -/
structure InGrows (P : Params) (s t : State) : Prop where
  grown : Grown P s.pd.qIn t.pd.qIn
  pulls : clockPulls t = clockPulls s

theorem InGrows.edge (P : Params) (s : State) : InGrows P s (edgeService P s) := by
  by_cases hsend : s.pd.sendShift = 0
  · rcases hf : (edgeSample s).getLsbD 0 with - | -
    · rw [edgeService_of_recv hsend hf]
      exact ⟨.refl P _, rfl⟩
    · rw [edgeService_of_complete hsend hf]
      rcases deliverFrame_cases P (edgeSample s) { s with
          edgePend := false, pd := { s.pd with busTimeout := P.tmoGuard, recvShift := 0 } } with
        ⟨-, hop⟩ | ⟨-, -, hop⟩ | ⟨-, -, -, hop⟩ | ⟨r, -, -, hins, hop⟩ <;> rw [hop]
      · exact ⟨.refl P _, rfl⟩
      · exact ⟨.refl P _, rfl⟩
      · exact ⟨.refl P _, rfl⟩
      · refine ⟨fun hwf => ?_, rfl⟩
        rcases Ring.insert_spec (frameData (edgeSample s)) hwf with ⟨-, hnone⟩ | ⟨-, r', hsome, hwf', hseq⟩
        · rw [hnone] at hins; cases hins
        · rw [hsome] at hins
          obtain rfl : r' = r := Option.some.inj hins
          exact ⟨hwf', _, hseq⟩
  · rw [edgeService_of_send hsend]
    exact ⟨.refl P _, by simp [clockPulls]⟩

theorem InGrows.trans {P : Params} {s t u : State} (h : InGrows P s t) (g : InGrows P t u) : InGrows P s u :=
  ⟨h.grown.trans g.grown, g.pulls.trans h.pulls⟩

theorem InGrows.othersMove (P : Params) (atEdge : Bool) (l : List Turn) (s : State) :
    InGrows P s (othersMove P atEdge l s) := by
  refine othersMove_keeps (I := InGrows P s) (fun _ _ h => { h with }) (fun t _ h => h.trans (.edge P t))
    (fun _ h => { h with }) l (fun t c d _ h => ?_) (fun _ _ _ _ h => { h with }) s ⟨.refl P _, rfl⟩
  obtain ⟨p, o, hop, -⟩ := envPTurn_frame c d t
  rw [hop]
  exact { h with }

/-- Without a clock no byte comes in at a boundary. -/
theorem Unclocked.othersMove {s : State} (h : Unclocked s) (P : Params) (atEdge : Bool) :
    Unclocked (othersMove P atEdge s.sched s) ∧ (othersMove P atEdge s.sched s).pd.qIn = s.pd.qIn := by
  obtain ⟨hpend, hno⟩ := h
  obtain ⟨hpend', hin⟩ := othersMove_keeps (P := P) (atEdge := atEdge)
    (I := fun t => t.edgePend = false ∧ t.pd.qIn = s.pd.qIn) (fun _ _ h => h)
    (fun t he ht => by rw [edgeEnabled, ht.1] at he; cases he) (fun _ h => h) s.sched
    (fun t c d hm _ => absurd rfl (hno _ hm c d)) (fun _ _ _ _ h => h) s ⟨hpend, rfl⟩
  obtain ⟨k, hk⟩ := othersMove_sched P atEdge s.sched s
  refine ⟨⟨hpend', ?_⟩, hin⟩
  rw [hk]
  exact fun u hu => hno u (List.mem_of_mem_drop hu)

/-- What E_ST's commands and the boundaries do: PD.IN may grow, and nothing else of the queues and the log moves. -/
structure Carries (P : Params) (s t : State) : Prop extends StFrame s t, InGrows P s t where
  unclocked : Unclocked s → Unclocked t ∧ t.pd.qIn = s.pd.qIn

theorem Carries.refl (P : Params) (s : State) : Carries P s s := ⟨.refl s, ⟨.refl P _, rfl⟩, fun h => ⟨h, rfl⟩⟩

theorem Carries.trans {P : Params} {s t u : State} (h : Carries P s t) (g : Carries P t u) : Carries P s u := by
  refine ⟨h.toStFrame.trans g.toStFrame, h.toInGrows.trans g.toInGrows, fun hs => ?_⟩
  obtain ⟨ht, hin⟩ := h.unclocked hs
  obtain ⟨hu, hin'⟩ := g.unclocked ht
  exact ⟨hu, hin'.trans hin⟩

theorem Carries.yield (P : Params) (s : State) : Carries P s (yieldTurn P s) :=
  ⟨.yield P s, .othersMove P true s.sched s, fun h => h.othersMove P true⟩

theorem Carries.microKeeps (P : Params) (s : State) : MicroKeeps P (Carries P s) where
  yield t h := h.trans (.yield P t)
  wait n t h := ⟨(StFrame.microKeeps P s).wait n t h.toStFrame, ⟨h.grown, by
    rw [clockPulls, waitFor_wtrace, List.count_append]
    exact h.pulls⟩, h.unclocked⟩
  drive w v t h := by
    refine ⟨(StFrame.microKeeps P s).drive w v t h.toStFrame, ⟨h.grown, ?_⟩, h.unclocked⟩
    rw [clockPulls, driveWire_wtrace, List.count_append]
    exact h.pulls
  st t x hi h := ⟨(StFrame.microKeeps P s).st t x hi h.toStFrame, { h with }, h.unclocked⟩
  err e t he h := ⟨(StFrame.microKeeps P s).err e t he h.toStFrame, { h with }, h.unclocked⟩

theorem Carries.send (P : Params) (c : Byte) (s : State) : Carries P s (stSend P c s).1 :=
  (Carries.microKeeps P s).send c (.refl P s)

theorem Carries.recv (P : Params) (s : State) : Carries P s (stRecv P s).1 :=
  (Carries.microKeeps P s).recv (.refl P s)

/-! ### The effect of a part of a RELAY_STEP -/

/-- What a part of a RELAY_STEP does to the queues, the log and PD's clock. -/
structure Effect where
  /-- The bytes put at the tail of PD.OUT. -/
  received : List Byte := []
  /-- The bytes moved from the head of PD.IN to the tail of PH.OUT. -/
  moved : List Byte := []
  /-- The entries of the log. -/
  logged : List LogEvent := []
  /-- How many bytes left PH.OUT at its head. -/
  sent : Nat := 0
  /-- How many bytes left PD.OUT at its head. -/
  armed : Nat := 0
  /-- How often PD's clock was pulled low. -/
  pulls : Nat := 0

/-- The effect of one part after another. -/
def Effect.andThen (e f : Effect) : Effect where
  received := e.received ++ f.received
  moved := e.moved ++ f.moved
  logged := e.logged ++ f.logged
  sent := e.sent + f.sent
  armed := e.armed + f.armed
  pulls := e.pulls + f.pulls

/-- A queue's head is not asked for after its tail has changed. -/
def Effect.before (e f : Effect) : Prop := (f.received = [] ∨ e.armed = 0) ∧ (e.moved = [] ∨ f.sent = 0)

/-- All queues are well formed. -/
def RingsOk (P : Params) (s : State) : Prop := s.params = P ∧ ∀ p q, (getQueue p q s).wf P.rbCap = true

/-- A part of a RELAY_STEP takes `s` to `t` with the effect `e`, and bytes that E_IRQ inserts meanwhile. -/
structure Track (P : Params) (e : Effect) (s t : State) : Prop where
  rings : RingsOk P t
  pdOut : fifo .pd .out t = (fifo .pd .out s ++ e.received).drop e.armed
  phOut : fifo .ph .out t = (fifo .ph .out s).drop e.sent ++ e.moved
  pdIn : ∃ rcv, fifo .pd .inq s ++ rcv = e.moved ++ fifo .pd .inq t ∧ (s.ie = false ∨ Unclocked s → rcv = [])
  log : t.log = s.log ++ e.logged
  pulls : clockPulls t = clockPulls s + e.pulls
  ie : t.ie = s.ie
  unclocked : Unclocked s → Unclocked t

theorem Track.trans {P : Params} {e f : Effect} {s t u : State} (h : Track P e s t) (g : Track P f t u)
    (hef : e.before f) : Track P (e.andThen f) s u where
  rings := g.rings
  pdOut := by
    rw [g.pdOut, h.pdOut, Effect.andThen, ← List.drop_drop, ← List.append_assoc]
    rcases hef.1 with hf | he
    · rw [hf, List.append_nil, List.append_nil]
    · rw [he, List.drop_zero, List.drop_zero]
  phOut := by
    rw [g.phOut, h.phOut, Effect.andThen, ← List.drop_drop, ← List.append_assoc]
    rcases hef.2 with he | hf
    · rw [he, List.append_nil, List.append_nil]
    · rw [hf, List.drop_zero, List.drop_zero]
  pdIn := by
    obtain ⟨rcv, hin, hno⟩ := h.pdIn
    obtain ⟨rcv', hin', hno'⟩ := g.pdIn
    refine ⟨rcv ++ rcv', ?_, fun hs => ?_⟩
    · rw [← List.append_assoc, hin, List.append_assoc, hin', Effect.andThen, List.append_assoc]
    · rw [hno hs, hno' (hs.imp h.ie.trans h.unclocked)]
      rfl
  log := by rw [g.log, h.log, Effect.andThen, List.append_assoc]
  pulls := by rw [g.pulls, h.pulls, Effect.andThen, Nat.add_assoc]
  ie := g.ie.trans h.ie
  unclocked hs := g.unclocked (h.unclocked hs)

theorem Carries.track {P : Params} {s t : State} (h : Carries P s t) (hs : RingsOk P s) : Track P {} s t := by
  obtain ⟨hP, hwf⟩ := hs
  obtain ⟨hwf', rcv, hseq⟩ := h.grown (hwf .pd .inq)
  have hfifo : ∀ p q, ¬(p = .pd ∧ q = .inq) → fifo p q t = fifo p q s := fun p q hne => by
    rw [fifo, fifo, h.params, h.queue p q hne]
  have hin : fifo .pd .inq t = fifo .pd .inq s ++ rcv := by
    rw [fifo, fifo, h.params, hP]
    exact hseq
  refine ⟨⟨h.params.trans hP, fun p q => ?_⟩, ?_, ?_, ⟨rcv, hin.symm, fun hno => ?_⟩, ?_, h.pulls, h.ie,
    fun hs => (h.unclocked hs).1⟩
  · by_cases hpq : p = .pd ∧ q = .inq
    · rw [hpq.1, hpq.2]
      exact hwf'
    · rw [h.queue p q hpq]
      exact hwf p q
  · rw [hfifo _ _ (by decide), List.append_nil, List.drop_zero]
  · rw [hfifo _ _ (by decide), List.append_nil, List.drop_zero]
  · have hsame : t.pd.qIn = s.pd.qIn := hno.elim h.masked fun hs => (h.unclocked hs).2
    have hlen := congrArg List.length hseq
    rw [hsame, List.length_append] at hlen
    exact List.length_eq_zero_iff.mp (by omega)
  · rw [h.log, List.append_nil]

theorem Effect.empty_andThen (e : Effect) : Effect.andThen {} e = e := by
  cases e
  simp [Effect.andThen]

theorem Effect.andThen_empty (e : Effect) : e.andThen {} = e := by
  cases e
  simp [Effect.andThen]

/-- A boundary or an E_ST command after a part. -/
theorem Track.carried {P : Params} {e : Effect} {s t u : State} (h : Track P e s t) (g : Carries P t u) :
    Track P e s u :=
  Effect.andThen_empty e ▸ h.trans (g.track h.rings) ⟨.inl rfl, .inr rfl⟩

/-- A boundary or an E_ST command before a part. -/
theorem Carries.trackThen {P : Params} {e : Effect} {s t u : State} (h : Carries P s t) (hs : RingsOk P s)
    (g : Track P e t u) : Track P e s u :=
  Effect.empty_andThen e ▸ (h.track hs).trans g ⟨.inr rfl, .inl rfl⟩

theorem RingsOk.setQueue {P : Params} {s : State} (h : RingsOk P s) (p : Port) (q : QueueId) {r : Ring}
    (hr : r.wf P.rbCap = true) : RingsOk P (setQueue p q r s) := by
  refine ⟨by rw [setQueue_params]; exact h.1, fun p' q' => ?_⟩
  rw [getQueue_setQueue]
  split
  · exact hr
  · exact h.2 p' q'

theorem clockPulls_setQueue (p : Port) (q : QueueId) (r : Ring) (s : State) :
    clockPulls (setQueue p q r s) = clockPulls s := by
  rw [clockPulls, clockPulls, setQueue_wtrace]

theorem unclocked_setQueue {p : Port} {q : QueueId} {r : Ring} {s : State} (h : Unclocked s) :
    Unclocked (setQueue p q r s) := by
  cases p <;> exact h

/-- A write to PD.OUT. -/
theorem Track.setPdOut {P : Params} {e : Effect} {s t : State} (h : Track P e s t) {r : Ring} {a : List Byte} {k : Nat}
    (hr : r.wf P.rbCap = true) (hseq : r.seq P.rbCap = (fifo .pd .out s ++ a).drop k) :
    Track P { e with received := a, armed := k } s (setQueue .pd .out r t) where
  rings := h.rings.setQueue .pd .out hr
  pdOut := by rw [fifo_setQueue, if_pos ⟨rfl, rfl⟩, h.rings.1, hseq]
  phOut := by rw [fifo_setQueue, if_neg (by decide), h.phOut]
  pdIn := by
    rw [fifo_setQueue, if_neg (by decide)]
    exact h.pdIn
  log := h.log
  pulls := (clockPulls_setQueue ..).trans h.pulls
  ie := h.ie
  unclocked hs := unclocked_setQueue (h.unclocked hs)

/-- A write to PH.OUT. -/
theorem Track.setPhOut {P : Params} {e : Effect} {s t : State} (h : Track P e s t) {r : Ring} {k : Nat}
    (hr : r.wf P.rbCap = true) (hseq : r.seq P.rbCap = (fifo .ph .out s).drop k ++ e.moved) :
    Track P { e with sent := k } s (setQueue .ph .out r t) where
  rings := h.rings.setQueue .ph .out hr
  pdOut := by rw [fifo_setQueue, if_neg (by decide), h.pdOut]
  phOut := by rw [fifo_setQueue, if_pos ⟨rfl, rfl⟩, h.rings.1, hseq]
  pdIn := by
    rw [fifo_setQueue, if_neg (by decide)]
    exact h.pdIn
  log := h.log
  pulls := (clockPulls_setQueue ..).trans h.pulls
  ie := h.ie
  unclocked hs := unclocked_setQueue (h.unclocked hs)

theorem Track.appendLog {P : Params} {e : Effect} {s t : State} (h : Track P e s t) (d : Dir) (c : Byte) :
    Track P { e with logged := e.logged ++ [⟨d, c⟩] } s (appendLog d c t) where
  rings := h.rings
  pdOut := by rw [fifo_appendLog, h.pdOut]
  phOut := by rw [fifo_appendLog, h.phOut]
  pdIn := by
    rw [fifo_appendLog]
    exact h.pdIn
  log := by rw [appendLog_log, h.log, List.append_assoc]
  pulls := h.pulls
  ie := h.ie
  unclocked := h.unclocked

theorem Track.refl {P : Params} {s : State} (h : RingsOk P s) : Track P {} s s := (Carries.refl P s).track h

end Sys2Proof.Machine
end

/-! ## Proofs: the steps of RELAY_STEP and their effects (44_supervisor.md R207 to R213) -/

section

namespace Sys2Proof.Machine

/-! ### IRQ_SEND and TMO_SERVICE -/

/-- A unit that leaves the queues and the log alone. -/
theorem Track.of_same {P : Params} {s t : State} {n : Nat} (hs : RingsOk P s) (hparams : t.params = s.params)
    (hq : ∀ p q, getQueue p q t = getQueue p q s) (hlog : t.log = s.log) (hpulls : clockPulls t = clockPulls s + n)
    (hie : t.ie = s.ie) (hunclocked : Unclocked s → Unclocked t) : Track P { pulls := n } s t := by
  have hfifo : ∀ p q, fifo p q t = fifo p q s := fun p q => by rw [fifo, fifo, hparams, hq]
  exact ⟨⟨hparams.trans hs.1, fun p q => by rw [hq]; exact hs.2 p q⟩, by rw [hfifo]; simp, by rw [hfifo]; simp,
    ⟨[], by rw [hfifo]; simp, fun _ => rfl⟩, by rw [hlog]; simp, hpulls, hie, hunclocked⟩

theorem Unclocked.irqSend {s : State} (h : Unclocked s) (P : Params) (c : Byte) : Unclocked (irqSend P c s).1 := by
  rcases irqSend_split P c s with ⟨-, hop⟩ | ⟨-, -, -, hop⟩ | ⟨-, -, -, hop⟩ <;> rw [hop]
  · exact h
  · exact h
  · exact armingSequence_keeps (fun w _ _ h => by cases w <;> exact h) (fun _ _ h => h)
      (fun _ h => (h.othersMove P false).1) (s := irqLoaded P c s) h

/-- IRQ_SEND pulls PD's clock low once when it arms a frame, and not else (R151). -/
theorem irqSend_track {P : Params} (c : Byte) {s : State} (hs : RingsOk P s) :
    Track P { pulls := (decide ((irqSend P c s).2.status = .ok)).toNat } s (irqSend P c s).1 := by
  have hunclocked := fun h : Unclocked s => h.irqSend P c
  rcases irqSend_split P c s with ⟨-, hop⟩ | ⟨-, -, -, hop⟩ | ⟨-, -, -, hop⟩ <;> rw [hop] at hunclocked ⊢
  · exact .of_same hs rfl (fun _ _ => rfl) rfl rfl rfl hunclocked
  · exact .of_same hs rfl (fun _ _ => rfl) rfl rfl rfl hunclocked
  · obtain ⟨a, b, x, y, f, l, harm⟩ := armingSequence_eq P (irqLoaded P c s)
    simp only [harm] at hunclocked ⊢
    refine .of_same hs rfl (fun p q => ?_) rfl ?_ rfl hunclocked
    · cases p <;> cases q <;> rfl
    · rw [clockPulls, clockPulls, List.count_append]
      rfl

theorem tmoService_track {P : Params} {s : State} (hs : RingsOk P s) : Track P {} s (tmoService s).2 := by
  rcases tmoService_split s with ⟨-, hop⟩ | ⟨-, -, hop⟩ | ⟨-, -, -, hop⟩ | ⟨-, -, -, hop⟩ <;> rw [hop]
  · exact .of_same hs rfl (fun _ _ => rfl) rfl rfl rfl id
  · exact .of_same hs rfl (fun p q => by cases p <;> rfl) rfl rfl rfl id
  · exact .of_same hs rfl (fun p q => by cases p <;> cases q <;> rfl) rfl rfl rfl id
  · simp only [recovery_eq]
    refine .of_same hs rfl (fun p q => by cases p <;> cases q <;> rfl) rfl ?_ rfl id
    rw [clockPulls, clockPulls, List.count_append]
    rfl

/-! ### Step 1 -/

theorem fifo_length (p : Port) (q : QueueId) (s : State) : (fifo p q s).length = (getQueue p q s).count :=
  Ring.seq_length ..

/-- What step 1 received: the byte that ST_RECV answers, if PD.OUT has room (R207). -/
def receivedBy (P : Params) (s : State) : List Byte :=
  if s.pd.qOut.count ≠ P.rbCap ∧ (stRecv P s).2.status = .ok then [(stRecv P s).2.value.setWidth 8] else []

theorem relayStep1_track {P : Params} {s : State} (hs : RingsOk P s) :
    Track P { received := receivedBy P s, logged := (receivedBy P s).map (⟨.c2p, ·⟩) } s (relayStep1 P s).2 ∧
    (receivedBy P s).length = (relayStep1 P s).1.toNat := by
  rcases relayStep1_split P s with ⟨hfull, e⟩ | ⟨hroom, hno, e⟩ | ⟨hroom, hok, e⟩ <;> rw [e]
  · rw [receivedBy, if_neg (fun h => h.1 hfull)]
    exact ⟨.refl hs, rfl⟩
  · rw [receivedBy, if_neg (fun h => hno h.2)]
    exact ⟨((Carries.recv P s).trans (.yield P _)).track hs, rfl⟩
  · rw [receivedBy, if_pos ⟨hroom, hok⟩]
    refine ⟨?_, rfl⟩
    have hin := ((Carries.recv P s).trans (.yield P _)).track hs
    have hsame : fifo .pd .out (yieldTurn P (stRecv P s).1) = fifo .pd .out s := hin.pdOut.trans (by simp)
    rcases rbInsert_spec hin.rings.1 .pd .out ((stRecv P s).2.value.setWidth 8) (hin.rings.2 .pd .out) with
      ⟨hfull, -⟩ | ⟨-, r, hop, hr, hseq⟩
    · rw [hsame, fifo_length] at hfull
      exact absurd hfull hroom
    · rw [hop]
      rw [hsame] at hseq
      exact (((hin.setPdOut hr (k := 0) hseq).carried (.yield P _)).appendLog .c2p _).carried (.yield P _)

/-! ### Steps 2 and 3 -/

/-- `k` bytes are taken from port `p`'s OUT queue. -/
def takes (p : Port) (k n : Nat) : Effect :=
  match p with
  | .pd => { armed := k, pulls := n }
  | .ph => { sent := k, pulls := n }

theorem Track.takes_fifo {P : Params} {p : Port} {k n : Nat} {s t : State} (h : Track P (takes p k n) s t) :
    fifo p .out t = (fifo p .out s).drop k := by
  cases p with
  | pd => exact h.pdOut.trans (by simp [takes])
  | ph => exact h.phOut.trans (by simp [takes])

theorem Track.setOut {P : Params} {p : Port} {k n : Nat} {s t : State} (h : Track P (takes p k n) s t) {r : Ring}
    {j : Nat} (hr : r.wf P.rbCap = true) (hseq : r.seq P.rbCap = (fifo p .out s).drop j) :
    Track P (takes p j n) s (setQueue p .out r t) := by
  cases p with
  | pd => exact h.setPdOut (a := []) hr (by rw [List.append_nil]; exact hseq)
  | ph => exact h.setPhOut hr (hseq.trans (List.append_nil _).symm)

theorem Track.thenPulls {P : Params} {p : Port} {k n : Nat} {s t u : State} (h : Track P (takes p k 0) s t)
    (g : Track P { pulls := n } t u) : Track P (takes p k n) s u := by
  have heffect : (takes p k 0).andThen { pulls := n } = takes p k n := by cases p <;> simp [takes, Effect.andThen]
  rw [← heffect]
  exact h.trans g ⟨.inl rfl, .inr rfl⟩

/-- Steps 2 and 3: the head of the queue leaves it exactly when its send was OK, else it is put back at the head (R208,
R209, R213 (c)). `n` says how often a send pulls PD's clock low. -/
theorem sendFrom_track {P : Params} {p : Port} {send : Byte → State → State × CmdResult} {n : Bool → Nat}
    (hn : n false = 0)
    (hsend : ∀ c t, RingsOk P t → Track P { pulls := n (decide ((send c t).2.status = .ok)) } t (send c t).1)
    {s : State} (hs : RingsOk P s) :
    Track P (takes p (sendFrom P p send s).1.toNat (n (sendFrom P p send s).1)) s (sendFrom P p send s).2 := by
  have hself : Track P (takes p 0 0) s s := by cases p <;> exact .refl hs
  have hempty : ∀ {t}, Track P (takes p 0 0) s t → Track P (takes p false.toNat (n false)) s t := fun h => by
    rw [hn]; exact h
  rcases rbRemove_spec hs.1 p .out (hs.2 p .out) with ⟨-, hop⟩ | ⟨v, l, r, hfifo, hop, hr, hseq, hlt⟩
  · rcases sendFrom_split P p send s with ⟨-, e⟩ | ⟨c, hc, -⟩ | ⟨c, hc, -⟩
    · rw [e, hop]
      exact hempty (hself.carried (.yield P s))
    · rw [hop] at hc; cases hc
    · rw [hop] at hc; cases hc
  · have htaken : Track P (takes p 1 0) s (yieldTurn P (rbRemove P p .out s).2) := by
      rw [hop]
      exact (hself.setOut (j := 1) hr (by rw [hfifo, hseq]; rfl)).carried (.yield P _)
    rcases sendFrom_split P p send s with ⟨hc, -⟩ | ⟨c, -, hok, e⟩ | ⟨c, hc, hfail, e⟩
    · rw [hop] at hc; cases hc
    · have hx := hsend c _ htaken.rings
      rw [decide_eq_true hok] at hx
      rw [e]
      exact (htaken.thenPulls hx).carried (.yield P _)
    · have hx := hsend c _ htaken.rings
      rw [decide_eq_false hfail, hn] at hx
      obtain rfl : v = c := by
        rw [hop] at hc
        exact Option.some.inj hc
      have hsent := (htaken.thenPulls hx).carried (.yield P _)
      have hrest : fifo p .out (yieldTurn P (send v (yieldTurn P (rbRemove P p .out s).2)).1) = l := by
        rw [hsent.takes_fifo, hfifo]
        rfl
      rw [e]
      rcases rbPushBack_spec hsent.rings.1 p .out v (hsent.rings.2 p .out) with ⟨hfull, -⟩ | ⟨-, r', hback, hr', hseq'⟩
      · rw [hrest, ← hseq, Ring.seq_length] at hfull
        exact absurd hfull hlt.ne
      · rw [hback]
        exact hempty ((hsent.setOut (j := 0) hr' (by rw [hseq', hrest, hfifo]; rfl)).carried (.yield P _))

theorem relayStep2_track {P : Params} {s : State} (hs : RingsOk P s) :
    Track P { sent := (relayStep2 P s).1.toNat } s (relayStep2 P s).2 :=
  sendFrom_track (p := .ph) (n := fun _ => 0) rfl (fun c t ht => (Carries.send P c t).track ht) hs

theorem relayStep3_track {P : Params} {s : State} (hs : RingsOk P s) :
    Track P { armed := (relayStep3 P s).1.toNat, pulls := (relayStep3 P s).1.toNat } s (relayStep3 P s).2 :=
  sendFrom_track (p := .pd) (n := Bool.toNat) rfl (fun c _ ht => irqSend_track c ht) hs

/-- A send that was OK was of the head of the queue. -/
theorem sendFrom_ok {P : Params} {p : Port} {send : Byte → State → State × CmdResult} {s : State}
    (h : (sendFrom P p send s).1 = true) : ∃ v, (rbRemove P p .out s).1 = some v ∧
      (send v (yieldTurn P (rbRemove P p .out s).2)).2.status = .ok ∧
      (sendFrom P p send s).2 = yieldTurn P (send v (yieldTurn P (rbRemove P p .out s).2)).1 := by
  rcases sendFrom_split P p send s with ⟨-, e⟩ | ⟨c, hc, hok, e⟩ | ⟨c, -, -, e⟩
  · rw [e] at h; cases h
  · exact ⟨c, hc, hok, by rw [e]⟩
  · rw [e] at h; cases h

theorem fifo_of_rbRemove {P : Params} {p : Port} {q : QueueId} {s : State} (hs : RingsOk P s) {v : Byte}
    (h : (rbRemove P p q s).1 = some v) : ∃ l, fifo p q s = v :: l := by
  rcases rbRemove_spec hs.1 p q (hs.2 p q) with ⟨-, hop⟩ | ⟨v', l, r, hfifo, hop, -⟩ <;> rw [hop] at h
  · cases h
  · exact ⟨l, Option.some.inj h ▸ hfifo⟩

/-! ### Step 4 -/

/-- The unit of step 4. -/
theorem Track.moves {P : Params} {s : State} (hs : RingsOk P s) {c : Byte} {l : List Byte} {r r' : Ring}
    (hr : r.wf P.rbCap = true) (hr' : r'.wf P.rbCap = true) (hin : fifo .pd .inq s = c :: l) (hseq : r.seq P.rbCap = l)
    (hseq' : r'.seq P.rbCap = fifo .ph .out s ++ [c]) :
    Track P { moved := [c], logged := [⟨.p2c, c⟩] } s
      (Machine.appendLog .p2c c (setQueue .ph .out r' (setQueue .pd .inq r s))) where
  rings := (hs.setQueue .pd .inq hr).setQueue .ph .out hr'
  pdOut := by simp [fifo_setQueue]
  phOut := by
    rw [fifo_appendLog, fifo_setQueue, if_pos ⟨rfl, rfl⟩, setQueue_params, hs.1, hseq']
    rfl
  pdIn := by
    refine ⟨[], ?_, fun _ => rfl⟩
    rw [fifo_appendLog, fifo_setQueue, if_neg (by decide), fifo_setQueue, if_pos ⟨rfl, rfl⟩, hs.1, hseq, hin]
    exact List.append_nil _
  log := rfl
  pulls := rfl
  ie := rfl
  unclocked := id

theorem relayStep4_track {P : Params} {s : State} (hs : RingsOk P s) :
    ∃ b : List Byte, Track P { moved := b, logged := b.map (⟨.p2c, ·⟩) } s (relayStep4 P s).2 ∧
      b.length = (relayStep4 P s).1.toNat := by
  rw [relayStep4]
  rcases relayMove_split P s with ⟨-, e⟩ | ⟨-, hroom, c, t, hr, e⟩ <;> rw [e]
  · exact ⟨[], (Carries.yield P s).track hs, rfl⟩
  · rcases rbRemove_spec hs.1 .pd .inq (hs.2 .pd .inq) with ⟨-, hop⟩ | ⟨v, l, r, hfifo, hop, hwf, hseq, -⟩ <;>
      rw [hop] at hr
    · cases hr
    · obtain ⟨rfl, rfl⟩ : v = c ∧ setQueue .pd .inq r s = t := by
        injection hr with hv ht
        exact ⟨Option.some.inj hv, ht⟩
      have hrings := hs.setQueue .pd .inq hwf
      have hkept : fifo .ph .out (setQueue .pd .inq r s) = fifo .ph .out s := by simp [fifo_setQueue]
      rcases rbInsert_spec hrings.1 .ph .out v (hrings.2 .ph .out) with ⟨hfull, -⟩ | ⟨-, r', hins, hwf', hseq'⟩
      · rw [hkept, fifo_length] at hfull
        exact absurd hfull hroom
      · rw [hins]
        exact ⟨[v], (Track.moves hs hwf hwf' hfifo hseq (by rw [hseq', hkept])).carried (.yield P _), rfl⟩

/-! ### The whole RELAY_STEP -/

/-- A RELAY_STEP from `s` by its steps: the states after them, their bits of m, the bytes `b` that step 4 moves, and the
effects of step 1 and of the whole. -/
structure RelayRun (P : Params) (s s1 s2 s3 s4 t : State) (b1 b2 b3 b4 b5 : Bool) (b : List Byte) : Prop where
  step1 : relayStep1 P s = (b1, s1)
  step2 : relayStep2 P s1 = (b2, s2)
  step3 : relayStep3 P s2 = (b3, s3)
  step4 : relayStep4 P s3 = (b4, s4)
  step5 : tmoService s4 = (b5, t)
  rings1 : RingsOk P s1
  rings2 : RingsOk P s2
  received : (receivedBy P s).length = b1.toNat
  moved : b.length = b4.toNat
  first : Track P { received := receivedBy P s, logged := (receivedBy P s).map (⟨.c2p, ·⟩) } s s1
  whole : Track P { received := receivedBy P s, moved := b,
                    logged := (receivedBy P s).map (⟨.c2p, ·⟩) ++ b.map (⟨.p2c, ·⟩),
                    sent := b2.toNat, armed := b3.toNat, pulls := b3.toNat } s t

theorem relay_runs {P : Params} {s : State} (hs : RingsOk P s) :
    ∃ s1 s2 s3 s4 t b1 b2 b3 b4 b5 b, RelayRun P s s1 s2 s3 s4 t b1 b2 b3 b4 b5 b := by
  obtain ⟨h1, hlen⟩ := relayStep1_track hs
  rcases e1 : relayStep1 P s with ⟨b1, s1⟩
  rw [e1] at h1 hlen
  have h2 := relayStep2_track h1.rings
  rcases e2 : relayStep2 P s1 with ⟨b2, s2⟩
  rw [e2] at h2
  have h3 := relayStep3_track h2.rings
  rcases e3 : relayStep3 P s2 with ⟨b3, s3⟩
  rw [e3] at h3
  obtain ⟨b, h4, hlen'⟩ := relayStep4_track h3.rings
  rcases e4 : relayStep4 P s3 with ⟨b4, s4⟩
  rw [e4] at h4 hlen'
  rcases e5 : tmoService s4 with ⟨b5, t⟩
  have h5 := tmoService_track h4.rings
  rw [e5] at h5
  have h12 := h1.trans h2 ⟨.inl rfl, .inl rfl⟩
  have h123 := h12.trans h3 ⟨.inl rfl, .inl rfl⟩
  have h1234 := h123.trans h4 ⟨.inl rfl, .inl rfl⟩
  have hall := h1234.trans h5 ⟨.inl rfl, .inr rfl⟩
  exact ⟨s1, s2, s3, s4, t, b1, b2, b3, b4, b5, b, e1, e2, e3, e4, e5, h1.rings, h2.rings, hlen, hlen', h1,
    by simpa [Effect.andThen] using hall⟩

/-- What such a RELAY_STEP answers. -/
theorem RelayRun.exec {s s1 s2 s3 s4 t : State} {b1 b2 b3 b4 b5 : Bool} {b : List Byte}
    (R : RelayRun s.params s s1 s2 s3 s4 t b1 b2 b3 b4 b5 b) :
    exec .relayStep s = .next (writeRes ⟨.ok, false, nibble b1 b2 b3 b4 ||| bitAt b5 4⟩ t) :=
  exec_relayStep_of_eq (relay_of_steps R.step1 R.step2 R.step3 R.step4 R.step5)

/-- Steps 3, 4 and 5 keep what the units outside E_ST's commands keep. -/
theorem RelayRun.rest {P : Params} {s s1 s2 s3 s4 t : State} {b1 b2 b3 b4 b5 : Bool} {b : List Byte}
    (R : RelayRun P s s1 s2 s3 s4 t b1 b2 b3 b4 b5 b) {I : State → Prop} (h : RelayTail P I) (hs : I s2) : I t := by
  have h3 := h.sendFrom .pd h.irq hs
  rw [← relayStep3_eq, R.step3] at h3
  have h4 : I (relayStep4 P s3).2 := h.yield _ (h.move h3)
  rw [R.step4] at h4
  have h5 := h.tmo _ h4
  rwa [R.step5] at h5

/-- WTRACE grows through every unit of a RELAY_STEP. -/
theorem relayUnits_grows (P : Params) (s0 : State) : RelayUnits P (fun t => ∃ l, t.wtrace = s0.wtrace ++ l) := by
  have hgrows : ∀ s t : State, (∃ l, s.wtrace = s0.wtrace ++ l) → (∃ l, t.wtrace = s.wtrace ++ l) →
      ∃ l, t.wtrace = s0.wtrace ++ l := by
    rintro s t ⟨l, hl⟩ ⟨m, hm⟩
    exact ⟨l ++ m, by rw [hm, hl, List.append_assoc]⟩
  exact {
    yield := fun s h => hgrows _ _ h (yieldTurn_frame P s).grows
    queue := fun p q r s h => by rw [setQueue_wtrace]; exact h
    log := fun _ _ _ h => h
    irq := fun c s h => hgrows _ _ h (CmdFrame.irqSend P c s).grows
    tmo := fun s h => hgrows _ _ h (CmdFrame.tmoService s).grows
    send := fun c s h => hgrows _ _ h ((CmdFrame.microKeeps P s).send c (.refl s)).grows
    recv := fun s h => hgrows _ _ h ((CmdFrame.microKeeps P s).recv (.refl s)).grows }

/-- Outside the E_ST commands PH's LAST_ERR is not written. -/
theorem relayTail_phErr (P : Params) (e : BitVec 4) : RelayTail P (fun t => t.ph.lastErr = e) where
  yield s h := (yieldTurn_frame P s).phOut.2.2.trans h
  queue p q _ _ h := by cases p <;> cases q <;> exact h
  log _ _ _ h := h
  irq c s h := by
    rcases irqSend_split P c s with ⟨-, hop⟩ | ⟨-, -, -, hop⟩ | ⟨-, -, -, hop⟩ <;> rw [hop]
    · exact h
    · exact h
    · obtain ⟨a, b, x, y, f, l, harm⟩ := armingSequence_eq P (irqLoaded P c s)
      rw [harm]
      exact h
  tmo s h := by
    rcases tmoService_split s with ⟨-, hop⟩ | ⟨-, -, hop⟩ | ⟨-, -, -, hop⟩ | ⟨-, -, -, hop⟩ <;> rw [hop]
    · exact h
    · exact h
    · exact h
    · rw [recovery_eq]; exact h

/-- Step 2 with OK drove the whole frame of PH.OUT's head. -/
theorem relayStep2_ok {P : Params} {s s2 : State} (hs : RingsOk P s) (h : relayStep2 P s = (true, s2)) :
    ∃ v l, fifo .ph .out s = v :: l ∧ phTrace s2 = phTrace s ++ sendTrace P v := by
  rw [relayStep2_eq] at h
  obtain ⟨v, hv, hok, hend⟩ := sendFrom_ok (by rw [h])
  obtain ⟨l, hfifo⟩ := fifo_of_rbRemove hs hv
  have hremoved : phTrace (yieldTurn P (rbRemove P .ph .out s).2) = phTrace s := by
    obtain ⟨r, hop⟩ := rbRemove_state P .ph .out s
    rw [(yieldTurn_frame P _).phTrace, hop]
    exact phTrace_congr (setQueue_wtrace ..)
  rw [h] at hend
  refine ⟨v, l, hfifo, ?_⟩
  rw [show s2 = _ from hend, (yieldTurn_frame P _).phTrace, ← hremoved]
  rcases (stSend_outcome P v (yieldTurn P (rbRemove P .ph .out s).2)).result with ⟨-, -, htrace⟩ | ⟨e, j, he, -, hr, -⟩
  · exact htrace
  · rw [hr] at hok
    rcases he with rfl | rfl <;> cases hok

/-- Step 2 without OK, on a byte that waited: the send was turned away. -/
theorem relayStep2_failed {P : Params} {s s2 : State} (hs : RingsOk P s) (h : relayStep2 P s = (false, s2))
    (hne : fifo .ph .out s ≠ []) : s2.ph.lastErr = 5 ∨ s2.ph.lastErr = 6 := by
  rw [relayStep2_eq] at h
  rcases sendFrom_split P .ph (stSend P) s with ⟨hnone, -⟩ | ⟨c, -, -, e⟩ | ⟨c, -, hfail, e⟩
  · rcases rbRemove_spec hs.1 .ph .out (hs.2 .ph .out) with ⟨hnil, -⟩ | ⟨v, l, r, -, hop, -⟩
    · exact absurd hnil hne
    · rw [hop] at hnone; cases hnone
  · rw [h] at e; cases e
  · have houtcome := stSend_outcome P c (yieldTurn P (rbRemove P .ph .out s).2)
    obtain ⟨x, hx⟩ : ∃ x, x = stSend P c (yieldTurn P (rbRemove P .ph .out s).2) := ⟨_, rfl⟩
    rw [← hx] at houtcome hfail e
    rw [h] at e
    have hkeep := relayTail_phErr P x.1.ph.lastErr
    have hlast : s2.ph.lastErr = x.1.ph.lastErr := by
      rw [(Prod.mk.inj e).2]
      exact hkeep.yield _ (hkeep.pushBack .ph .out c (hkeep.yield _ rfl))
    rcases houtcome.result with ⟨hr, -⟩ | ⟨e, j, he, -, -, herr, -⟩
    · rw [hr] at hfail
      exact absurd rfl hfail
    · rw [hlast, herr]
      exact he.imp (fun h => by rw [h]; rfl) (fun h => by rw [h]; rfl)

theorem statusCode_eq_zero {e : Status} : statusCode e = 0 ↔ e = .ok := by
  cases e <;> simp [statusCode]

theorem receivedBy_eq {s u : State} (hs : RingsOk s.params s) (h : exec .stRecv s = .next u) : receivedBy s.params s =
    if (fifo .pd .out s).length < s.params.rbCap ∧ resStatus u.res = 0 then [(resValue u.res).setWidth 8] else [] := by
  obtain rfl := exec_next_iff.mp h
  have hle := (Ring.wf_iff.mp (hs.2 .pd .out)).2.2
  have hroom : s.pd.qOut.count ≠ s.params.rbCap ↔ (fifo .pd .out s).length < s.params.rbCap := by
    rw [fifo_length]
    exact ⟨fun hne => Nat.lt_of_le_of_ne hle hne, Nat.ne_of_lt⟩
  simp only [receivedBy, after, writeRes_res, resStatus_packRes, resValue_packRes, hroom, statusCode_eq_zero]

/-- Settles O60: the effects of the steps in order, and what E_IRQ inserted meanwhile. -/
theorem relayStepConservesBytes : Obligations.RelayStepConservesBytes := by
  intro s hwf
  have hs : RingsOk s.params s := ⟨rfl, hwf⟩
  obtain ⟨s1, s2, s3, s4, t, b1, b2, b3, b4, b5, b, R⟩ := relay_runs hs
  obtain ⟨hm0, hm1, hm2, hm3, -, -⟩ := relayBits b1 b2 b3 b4 b5
  obtain ⟨rcv, hin, hno⟩ := R.whole.pdIn
  have hph1 : fifo .ph .out s1 = fifo .ph .out s := R.first.phOut.trans (by simp)
  have hself : ∀ u : State, ∃ l, u.wtrace = u.wtrace ++ l := fun _ => ⟨[], (List.append_nil _).symm⟩
  have hfilter : ∀ {u v : State} {l}, v.wtrace = u.wtrace ++ l → phTrace v = phTrace u ++ l.filter notPd := fun h => by
    rw [phTrace, h, List.filter_append]; rfl
  refine ⟨_, _, receivedBy s.params s, b, rcv, R.exec, rfl, fun u hu => receivedBy_eq hs hu, hno, ?_⟩
  simp only [fifo_writeRes, writeRes_res, resValue_packRes, hm0, hm1, hm2, hm3, phTrace_writeRes, writeRes_ph,
    writeRes_wtrace, writeRes_log]
  refine ⟨R.received, R.moved, fun hb => ?_, fun hb hne => ?_, fun hb => ?_, R.whole.pulls, R.whole.pdOut, R.whole.phOut,
    hin, ?_⟩
  · obtain ⟨v, l, hfifo, htrace⟩ := relayStep2_ok R.rings1 (hb ▸ R.step2)
    have hgrows := relayUnits_grows s.params s
    obtain ⟨x, hx⟩ := hgrows.step1 (hgrows.recv s (hself s)) (hself s)
    obtain ⟨y, hy⟩ := R.rest (relayUnits_grows s.params s2).toRelayTail (hself s2)
    rw [R.step1] at hx
    exact ⟨v, l, x.filter notPd, y.filter notPd, hph1 ▸ hfifo, by rw [hfilter hy, htrace, hfilter hx]⟩
  · have hfail := relayStep2_failed R.rings1 (hb ▸ R.step2) (by rw [hph1]; exact hne)
    rw [R.rest (relayTail_phErr s.params s2.ph.lastErr) rfl]
    exact hfail
  · have hb3 : (sendFrom s.params .pd (irqSend s.params) s2).1 = true := by rw [← relayStep3_eq, R.step3]; exact hb
    obtain ⟨v, hv, -⟩ := sendFrom_ok hb3
    obtain ⟨l, hfifo⟩ := fifo_of_rbRemove R.rings2 hv
    have h2 := relayStep2_track R.rings1
    rw [R.step2] at h2
    have hout : fifo .pd .out s2 = fifo .pd .out s ++ receivedBy s.params s :=
      h2.pdOut.trans ((List.append_nil _).trans R.first.pdOut)
    rw [← hout, hfifo]
    exact List.cons_ne_nil _ _
  · rw [R.whole.log, List.append_assoc]

end Sys2Proof.Machine
end

/-! ## Proofs: RELAY_STEP before a computer that asks, inhibits or presents a byte (44_supervisor.md R207 to R213) -/

section

namespace Sys2Proof.Machine

/-! ### What steps 3 to 5 add to WTRACE besides PD's entries -/

theorem phTrace_setQueue (p : Port) (q : QueueId) (r : Ring) (s : State) : phTrace (setQueue p q r s) = phTrace s :=
  phTrace_congr (setQueue_wtrace ..)

theorem phTrace_yieldTurn (P : Params) (s : State) : phTrace (yieldTurn P s) = phTrace s := (yieldTurn_frame P s).phTrace

/-- Boundaries, queues and the log write no entry that is not PD's. -/
theorem relayMoves_phTrace (P : Params) (l : List WireEvent) : RelayMoves P (fun t => phTrace t = l) where
  yield s h := (phTrace_yieldTurn P s).trans h
  queue p q r s h := (phTrace_setQueue p q r s).trans h
  log _ _ _ h := h

/-- IRQ_SEND adds its two waits when it arms a frame (R150, R151). -/
theorem phTrace_irqSend (P : Params) (c : Byte) (s : State) :
    phTrace (irqSend P c s).1 = phTrace s ++ armWaits P (decide ((irqSend P c s).2.status = .ok)) := by
  rcases irqSend_split P c s with ⟨-, hop⟩ | ⟨-, -, -, hop⟩ | ⟨-, -, -, hop⟩ <;> rw [hop]
  · exact (List.append_nil _).symm
  · exact (List.append_nil _).symm
  · obtain ⟨a, b, x, y, f, l, harm⟩ := armingSequence_eq P (irqLoaded P c s)
    rw [harm, phTrace, List.filter_append]
    rfl

theorem phTrace_relayStep3 (P : Params) (s : State) :
    phTrace (relayStep3 P s).2 = phTrace s ++ armWaits P (relayStep3 P s).1 := by
  have hmoves := relayMoves_phTrace P (phTrace s)
  have htaken : phTrace (yieldTurn P (rbRemove P .pd .out s).2) = phTrace s := hmoves.yield _ (hmoves.remove .pd .out rfl)
  have hsend := fun c => phTrace_irqSend P c (yieldTurn P (rbRemove P .pd .out s).2)
  rw [relayStep3_eq]
  rcases sendFrom_split P .pd (irqSend P) s with ⟨-, e⟩ | ⟨c, -, hok, e⟩ | ⟨c, -, hfail, e⟩ <;> rw [e]
  · exact htaken.trans (List.append_nil _).symm
  · have hc := hsend c
    rw [decide_eq_true hok, htaken] at hc
    exact (phTrace_yieldTurn P _).trans hc
  · have hc := hsend c
    rw [decide_eq_false hfail, htaken] at hc
    have hback := relayMoves_phTrace P (phTrace s ++ armWaits P false)
    exact hback.yield _ (hback.pushBack .pd .out c (hback.yield _ hc))

theorem phTrace_tmoService (s : State) : phTrace (tmoService s).2 = phTrace s := by
  rcases tmoService_split s with ⟨-, hop⟩ | ⟨-, -, hop⟩ | ⟨-, -, -, hop⟩ | ⟨-, -, -, hop⟩ <;> rw [hop]
  · rfl
  · rfl
  · rw [recovery_eq, phTrace, List.filter_append]
    exact List.append_nil _

/-- What steps 3 to 5 leave of PH's LAST_ERR and add to its trace. -/
theorem RelayRun.rest_ph {P : Params} {s s1 s2 s3 s4 t : State} {b1 b2 b3 b4 b5 : Bool} {b : List Byte}
    (R : RelayRun P s s1 s2 s3 s4 t b1 b2 b3 b4 b5 b) :
    t.ph.lastErr = s2.ph.lastErr ∧ phTrace t = phTrace s2 ++ armWaits P b3 := by
  refine ⟨R.rest (relayTail_phErr P _) rfl, ?_⟩
  have hmoves := relayMoves_phTrace P (phTrace s3)
  have h3 := phTrace_relayStep3 P s2
  have h4 : phTrace (relayStep4 P s3).2 = phTrace s3 := hmoves.yield _ (hmoves.move rfl)
  have h5 := phTrace_tmoService s4
  rw [R.step3] at h3
  rw [R.step4] at h4
  rw [R.step5] at h5
  exact (h5.trans h4).trans h3

/-! ### Steps 1 and 2 before a still computer -/

/-- A step 1 that receives nothing is skipped, or is a receive and a boundary. -/
theorem relayStep1_none {P : Params} {s : State} (h : s.pd.qOut.count ≠ P.rbCap → (stRecv P s).2.status ≠ .ok) :
    relayStep1 P s = (false, if s.pd.qOut.count = P.rbCap then s else yieldTurn P (stRecv P s).1) := by
  rcases relayStep1_split P s with ⟨hfull, e⟩ | ⟨hroom, -, e⟩ | ⟨hroom, hok, -⟩
  · rw [e, if_pos hfull]
  · rw [e, if_neg hroom]
  · exact absurd hok (h hroom)

theorem StFrame.step1_none (P : Params) (s : State) :
    StFrame s (if s.pd.qOut.count = P.rbCap then s else yieldTurn P (stRecv P s).1) := by
  split
  · exact .refl s
  · exact (StFrame.recv P s).trans (.yield P _)

/-- Step 1 before a still computer that holds only data low (R207, R179). -/
theorem relayStep1_asked (P : Params) {s : State} (hs : computerStill s) (hreleased : phDriversReleased s)
    (hclk : s.ph.extClk = true) (hlow : s.ph.extData = false) : ∃ s1, relayStep1 P s = (false, s1) ∧ StFrame s s1 ∧
      (s.pd.qOut.count = P.rbCap → s1 = s) ∧
      (s.pd.qOut.count ≠ P.rbCap → s1.ph.lastErr = 9 ∧ phTrace s1 = phTrace s ++ unansweredTrace P) := by
  obtain ⟨hr, hph, -, htrace⟩ := stRecv_unanswered P hs hreleased hclk hlow
  refine ⟨_, relayStep1_none fun _ => by rw [hr]; decide, .step1_none P s, fun hfull => if_pos hfull, fun hroom => ?_⟩
  rw [if_neg hroom]
  exact ⟨(yieldTurn_frame P _).phOut.2.2.trans (by rw [hph]), (phTrace_yieldTurn P _).trans htrace⟩

/-- Step 1 before a computer that holds the clock low (R178). -/
theorem relayStep1_inhibited (P : Params) {s : State} (hclk : s.ph.extClk = false) :
    ∃ s1, relayStep1 P s = (false, s1) ∧ StFrame s s1 ∧ phTrace s1 = phTrace s := by
  have hread : readWire .ph .clk s = false := by rw [readWire_ph_clk, hclk, Bool.and_false]
  obtain ⟨hr, -, -, htrace⟩ := stRecv_noFrame P (.inl hread)
  refine ⟨_, relayStep1_none fun _ => by rw [hr]; decide, .step1_none P s, ?_⟩
  split
  · rfl
  · exact (phTrace_yieldTurn P _).trans htrace

/-- A send before a still computer that pulls a line low ends at its first checks (R173 to R175). -/
theorem stSend_turned_away (P : Params) (c : Byte) {s : State} {e : Status} (hs : computerStill s)
    (hreleased : phDriversReleased s)
    (hlow : (s.ph.extClk = false ∧ e = .inhibited) ∨ (s.ph.extClk = true ∧ s.ph.extData = false ∧ e = .rts)) :
    (stSend P c s).2.status = e ∧ (stSend P c s).1.ph.lastErr = statusCode e ∧
    phTrace (stSend P c s).1 = phTrace s ++ [.drive .ph .data true] := by
  obtain ⟨hstill, hclk, hdata⟩ := (StFrame.begin P c s).still hs
  have hbegin := AtPulse.begin (P := P) c hreleased
  have hr : (stSend P c s).2 = ⟨e, false, BitVec.ofNat 16 0⟩ := by
    rcases hlow with ⟨h, rfl⟩ | ⟨h, h', rfl⟩
    · exact hbegin.inhibited (more := 10) (by omega) hstill (hclk.trans h)
    · exact hbegin.requested_here (more := 10) (by omega) hstill (hclk.trans h) (hdata.trans h') rfl
  have hne : e ≠ .ok := by rcases hlow with ⟨-, rfl⟩ | ⟨-, -, rfl⟩ <;> decide
  obtain ⟨herr, htrace⟩ := sendEnd_abort (stSend_end P c hreleased) (Nat.zero_le 10) hne hr
  refine ⟨by rw [hr], herr, htrace.trans ?_⟩
  rw [List.take_zero, pulsesTrace, List.flatMap_nil, List.append_nil]

/-- Steps 2 and 3 with nothing to send are a boundary. -/
theorem sendFrom_empty {P : Params} {p : Port} {send : Byte → State → State × CmdResult} {s : State}
    (h : fifo p .out s = []) : sendFrom P p send s = (false, yieldTurn P s) := by
  have hop := rbRemove_of_empty (P := P) (fifo_eq_nil.mp h)
  rcases sendFrom_split P p send s with ⟨-, e⟩ | ⟨c, hc, -⟩ | ⟨c, hc, -⟩
  · rw [e, hop]
  · rw [hop] at hc; cases hc
  · rw [hop] at hc; cases hc

/-- Step 2 before a still computer that pulls a line low (R208, R213 (c)). -/
theorem relayStep2_turned_away {P : Params} {s s2 : State} {b2 : Bool} {e : Status} (hrings : RingsOk P s)
    (hs : computerStill s) (hreleased : phDriversReleased s)
    (hlow : (s.ph.extClk = false ∧ e = .inhibited) ∨ (s.ph.extClk = true ∧ s.ph.extData = false ∧ e = .rts))
    (hne : fifo .ph .out s ≠ []) (h : relayStep2 P s = (b2, s2)) :
    b2 = false ∧ s2.ph.lastErr = statusCode e ∧ phTrace s2 = phTrace s ++ [.drive .ph .data true] := by
  obtain ⟨r, hop⟩ := rbRemove_state P .ph .out s
  obtain ⟨hstill, hph⟩ := yieldTurn_still (P := P) (s := setQueue .ph .out r s) hs
  rw [← hop] at hstill hph
  have htrace : phTrace (yieldTurn P (rbRemove P .ph .out s).2) = phTrace s := by
    rw [phTrace_yieldTurn, hop, phTrace_setQueue]
  have hsame : (yieldTurn P (rbRemove P .ph .out s).2).ph = { s.ph with qOut := r } := by rw [hph, hop]; rfl
  have hsend := fun c => stSend_turned_away P c (e := e) hstill (by rw [phDriversReleased, hsame]; exact hreleased)
    (by rw [hsame]; exact hlow)
  have hnotOk : e ≠ .ok := by rcases hlow with ⟨-, rfl⟩ | ⟨-, -, rfl⟩ <;> decide
  rw [relayStep2_eq] at h
  rcases sendFrom_split P .ph (stSend P) s with ⟨hnone, -⟩ | ⟨c, -, hok, -⟩ | ⟨c, -, -, hx⟩
  · rcases rbRemove_spec hrings.1 .ph .out (hrings.2 .ph .out) with ⟨hnil, -⟩ | ⟨v, l, r, -, hop, -⟩
    · exact absurd hnil hne
    · rw [hop] at hnone; cases hnone
  · rw [(hsend c).1] at hok
    exact absurd hok hnotOk
  · obtain ⟨-, herr, htr⟩ := hsend c
    rw [h] at hx
    obtain ⟨hb, hs2⟩ := Prod.mk.inj hx
    have hkeep := (relayTail_phErr P (statusCode e)).toRelayMoves
    have hkeep' := relayMoves_phTrace P (phTrace s ++ [.drive .ph .data true])
    rw [hs2]
    exact ⟨hb, hkeep.yield _ (hkeep.pushBack .ph .out c (hkeep.yield _ herr)),
      hkeep'.yield _ (hkeep'.pushBack .ph .out c (hkeep'.yield _ (by rw [htr, htrace])))⟩

/-! ### A byte whose send fails (R213 (c)) -/

/-- The peripheral's half of O57. -/
theorem relayStep_refused {s : State} {v : Byte} {l : List Byte} (hinv : BlockInv s) (hq : quiet s)
    (hcomputer : computerReleased s) (htick : s.tickFlag = false) (hbusy : pdPhase s ≠ .idle ∨ s.edgePend = true)
    (hfifo : fifo .pd .out s = v :: l) (hout : fifo .ph .out s = []) (hin : fifo .pd .inq s = []) :
    ∃ t, exec .relayStep s = .next t ∧ t.res = 0 ∧ fifo .pd .out t = v :: l ∧
      t.pd = { s.pd with qOut := t.pd.qOut } ∧ t.edgePend = s.edgePend ∧ t.log = s.log ∧ t.wtrace = s.wtrace := by
  obtain ⟨hunit, hrest⟩ := blockInv_iff.mp hinv
  obtain ⟨pc, h1, h2⟩ := quiet_steps12 s.params hq hcomputer hrest.phReleased (fifo_eq_nil.mp hout)
  obtain ⟨r, -, hseq, k, h3⟩ := (Calm.of_quiet (quiet_atPc pc hq)).step3_refused (P := s.params) rfl
    (Ring.wf_queue hunit .pd .out) ((fifo_atPc ..).trans hfifo) hbusy
  have hcalm : Calm { setQueue .pd .out r (atPc pc s) with sched := (atPc pc s).sched.drop k } :=
    ⟨fun u hu => by simp [hq.1] at hu, hq.2⟩
  have h4 := hcalm.step4_empty s.params (fifo_eq_nil.mp hin)
  have hrelay := relay_of_steps h1 h2 h3 h4 (tmoService_no_tick htick)
  exact ⟨_, exec_relayStep_of_eq hrelay, (writeRes_res ..).trans (by decide), hseq, rfl, rfl, rfl, rfl⟩

theorem ringsOk_of_blockInv {s : State} (h : BlockInv s) : RingsOk s.params s := ⟨rfl, h.unit.queuesWf⟩

/-- Room in PD.OUT, as the claims say it. -/
theorem room_iff {P : Params} {s : State} (hs : RingsOk P s) :
    (fifo .pd .out s).length < P.rbCap ↔ s.pd.qOut.count ≠ P.rbCap := by
  have hle := (Ring.wf_iff.mp (hs.2 .pd .out)).2.2
  rw [fifo_length]
  exact ⟨Nat.ne_of_lt, fun hne => Nat.lt_of_le_of_ne hle hne⟩

/-- A step 1 that answers 0 received nothing. -/
theorem receivedBy_nil {P : Params} {s : State} {b1 : Bool} (hlen : (receivedBy P s).length = b1.toNat)
    (hb : b1 = false) : receivedBy P s = [] := by
  rw [hb] at hlen
  exact List.length_eq_zero_iff.mp hlen

/-- Settles O57: step 3 refused by PD, and step 2 turned away by the computer. -/
theorem relayStepRetriesFailedSend : Obligations.RelayStepRetriesFailedSend := by
  refine ⟨fun s v l hinv hq hcomputer htick hbusy hfifo hout hin =>
    relayStep_refused hinv hq hcomputer htick hbusy hfifo hout hin, ?_⟩
  intro s v l e received hinv hs hfifo hlow hreceived
  obtain ⟨-, hrest⟩ := blockInv_iff.mp hinv
  have hrings := ringsOk_of_blockInv hinv
  obtain ⟨s1, s2, s3, s4, t, b1, b2, b3, b4, b5, b, R⟩ := relay_runs hrings
  have hreleased1 : phDriversReleased s1 := by
    have h := ((AtRest.relayUnits s.params).step1 (hrest.recv s.params) hrest).phReleased
    rwa [R.step1] at h
  obtain ⟨hb1, hframe, htrace1⟩ : b1 = false ∧ StFrame s s1 ∧ phTrace s1 = phTrace s ++ received := by
    rw [hreceived]
    rcases hlow with ⟨hclk, -⟩ | ⟨hclk, hdata, -⟩
    · obtain ⟨s1', h, hframe, htrace⟩ := relayStep1_inhibited s.params hclk
      obtain ⟨hb, rfl⟩ := Prod.mk.inj (R.step1.symm.trans h)
      rw [if_neg (by simp [hclk])]
      exact ⟨hb, hframe, by rw [htrace, List.append_nil]⟩
    · obtain ⟨s1', h, hframe, hfull, hroom⟩ := relayStep1_asked s.params hs hrest.phReleased hclk hdata
      obtain ⟨hb, rfl⟩ := Prod.mk.inj (R.step1.symm.trans h)
      refine ⟨hb, hframe, ?_⟩
      by_cases hcap : s.pd.qOut.count = s.params.rbCap
      · rw [if_neg (fun h => (room_iff hrings).mp h.2 hcap), hfull hcap, List.append_nil]
      · rw [if_pos ⟨hclk, (room_iff hrings).mpr hcap⟩]
        exact (hroom hcap).2
  obtain ⟨hstill1, hclk1, hdata1⟩ := hframe.still hs
  have hlow1 : ∃ x, statusCode x = e ∧
      ((s1.ph.extClk = false ∧ x = .inhibited) ∨ (s1.ph.extClk = true ∧ s1.ph.extData = false ∧ x = .rts)) := by
    rw [hclk1, hdata1]
    rcases hlow with ⟨hclk, rfl⟩ | ⟨hclk, hdata, rfl⟩
    · exact ⟨.inhibited, rfl, .inl ⟨hclk, rfl⟩⟩
    · exact ⟨.rts, rfl, .inr ⟨hclk, hdata, rfl⟩⟩
  obtain ⟨x, hx, hlow1⟩ := hlow1
  have hph1 : fifo .ph .out s1 = fifo .ph .out s := R.first.phOut.trans (by simp)
  obtain ⟨hb2, herr2, htrace2⟩ := relayStep2_turned_away R.rings1 hstill1 hreleased1 hlow1
    (by rw [hph1, hfifo]; simp) R.step2
  obtain ⟨herr, htrace⟩ := R.rest_ph
  obtain ⟨hm0, hm1, hm2, hm3, -, -⟩ := relayBits b1 b2 b3 b4 b5
  have hnone := receivedBy_nil R.received hb1
  refine ⟨_, _, b, R.exec, rfl, ?_⟩
  simp only [fifo_writeRes, writeRes_res, resValue_packRes, hm0, hm1, hm2, hm3, phTrace_writeRes, writeRes_ph,
    writeRes_log]
  refine ⟨hb1, hb2, ?_, R.moved, herr.trans (herr2.trans hx), ?_, ?_⟩
  · rw [R.whole.phOut, hfifo, hb2]
    rfl
  · rw [R.whole.log, hnone]
    rfl
  · rw [htrace, htrace2, htrace1]

end Sys2Proof.Machine
end

/-! ## Proofs: RELAY_STEP receives a byte from the computer (44_supervisor.md R207, R209, R213) -/

section

namespace Sys2Proof.Machine

/-! ### While only the computer moves -/

/-- Only CTRL and the computer have turns, and PD has neither an edge nor a tick. -/
structure ComputerOnly (s : State) : Prop where
  sched : ∀ u ∈ s.sched, u = .ctrl ∨ ∃ c d, u = .envH c d
  edgePend : s.edgePend = false
  tickFlag : s.tickFlag = false

/-- A boundary at which only the computer may move. -/
theorem ComputerOnly.othersMove {s : State} (h : ComputerOnly s) (P : Params) (atEdge : Bool) :
    ComputerOnly (othersMove P atEdge s.sched s) ∧ (othersMove P atEdge s.sched s).pd = s.pd := by
  have key : ∀ (l : List Turn) (t : State), (∀ u ∈ l, u = .ctrl ∨ ∃ c d, u = .envH c d) → t.edgePend = false →
      (Machine.othersMove P atEdge l t).edgePend = false ∧ (Machine.othersMove P atEdge l t).tickFlag = t.tickFlag ∧
      (Machine.othersMove P atEdge l t).pd = t.pd := by
    intro l
    induction l with
    | nil =>
      intro t _ hpend
      have hturn : (if atEdge = true then edgeTurn P t else t) = t := by
        rw [edgeTurn_of_not_enabled (edgeEnabled_eq_false.mpr (.inl hpend)), ite_self]
      rw [Machine.othersMove, hturn]
      exact ⟨hpend, rfl, rfl⟩
    | cons u rest ih =>
      intro t hl hpend
      rcases hl u (List.mem_cons_self ..) with rfl | ⟨c, d, rfl⟩
      · exact ⟨hpend, rfl, rfl⟩
      · exact ih (envHTurn c d t) (fun w hw => hl w (List.mem_cons_of_mem _ hw)) hpend
  obtain ⟨hpend, htick, hpd⟩ := key s.sched s h.sched h.edgePend
  obtain ⟨k, hk⟩ := othersMove_sched P atEdge s.sched s
  refine ⟨⟨?_, hpend, htick.trans h.tickFlag⟩, hpd⟩
  rw [hk]
  exact fun u hu => h.sched u (List.mem_of_mem_drop hu)

/-- Only the computer moves, and PD's shift state is as `x`'s. -/
structure PdKept (x : PortState) (s : State) : Prop extends ComputerOnly s where
  recv : s.pd.recvShift = x.recvShift
  send : s.pd.sendShift = x.sendShift

theorem PdKept.yield {x : PortState} {s : State} (h : PdKept x s) (P : Params) : PdKept x (yieldTurn P s) := by
  obtain ⟨honly, hpd⟩ := h.toComputerOnly.othersMove P true
  exact ⟨honly, (congrArg PortState.recvShift hpd).trans h.recv, (congrArg PortState.sendShift hpd).trans h.send⟩

theorem PdKept.microKeeps (P : Params) (x : PortState) : MicroKeeps P (PdKept x) where
  yield _ h := h.yield P
  wait _ _ h := { h with }
  drive w _ _ h := by cases w <;> exact { h with }
  st _ _ _ h := { h with }
  err _ _ _ h := { h with }

theorem PdKept.relayMoves (P : Params) (x : PortState) : RelayMoves P (PdKept x) where
  yield _ h := h.yield P
  queue p q _ _ h := by cases p <;> cases q <;> exact { h with }
  log _ _ _ h := { h with }

/-- An armed send loads its pattern, and only the computer moves meanwhile. -/
theorem PdKept.arms {x : PortState} {s : State} (h : PdKept x s) (P : Params) (c : Byte) :
    PdKept { x with sendShift := irqPattern c } (armingSequence P (irqLoaded P c s)) := by
  have honly : ComputerOnly (armingSequence P (irqLoaded P c s)) :=
    armingSequence_keeps (fun w _ _ h => by cases w <;> exact { h with })
      (fun _ _ h => { h with }) (fun _ h => (h.othersMove P false).1)
      (s := irqLoaded P c s) { h with }
  obtain ⟨a, b, y, z, f, l, harm⟩ := armingSequence_eq P (irqLoaded P c s)
  refine ⟨honly, ?_, ?_⟩ <;> rw [harm]
  · exact h.recv
  · rfl

/-- Step 3 on an idle PD with a byte to send (R209). -/
theorem PdKept.step3_arms {P : Params} {x : PortState} {s : State} (h : PdKept x s) (hs : RingsOk P s) {v : Byte}
    {l : List Byte} (hfifo : fifo .pd .out s = v :: l) (hrecv : x.recvShift = 0) (hsend : x.sendShift = 0) :
    (relayStep3 P s).1 = true ∧ PdKept { x with sendShift := irqPattern v } (relayStep3 P s).2 := by
  have htaken := (PdKept.relayMoves P x).yield _ ((PdKept.relayMoves P x).remove .pd .out h)
  have harm := fun c => irqSend_armed (P := P) c (htaken.recv.trans hrecv) htaken.edgePend (htaken.send.trans hsend)
  have hhead : (rbRemove P .pd .out s).1 = some v := by
    obtain ⟨r, hop, -⟩ := rbRemove_cons hs.1 (hs.2 .pd .out) hfifo
    rw [hop]
  rw [relayStep3_eq]
  rcases sendFrom_split P .pd (irqSend P) s with ⟨hc, -⟩ | ⟨c, hc, -, e⟩ | ⟨c, -, hfail, -⟩
  · rw [hhead] at hc; cases hc
  · obtain rfl : v = c := Option.some.inj (hhead.symm.trans hc)
    rw [e, harm v]
    exact ⟨rfl, (htaken.arms P v).yield P⟩
  · rw [harm c] at hfail
    exact absurd rfl hfail

/-- Step 3 on a PD with a frame in progress (R209, R213 (c)). -/
theorem PdKept.step3_refused {P : Params} {x : PortState} {s : State} (h : PdKept x s)
    (hbusy : x.recvShift ≠ 0 ∨ x.sendShift ≠ 0) : (relayStep3 P s).1 = false ∧ PdKept x (relayStep3 P s).2 := by
  have hmoves := PdKept.relayMoves P x
  have hrefused : ∀ c t, PdKept x t → (irqSend P c t).2.status ≠ .ok ∧ (irqSend P c t).1 = t := by
    intro c t ht
    rcases irqSend_split P c t with ⟨-, hop⟩ | ⟨-, -, -, hop⟩ | ⟨hr, -, hs, -⟩
    · rw [hop]; exact ⟨nofun, rfl⟩
    · rw [hop]; exact ⟨nofun, rfl⟩
    · rw [ht.recv] at hr
      rw [ht.send] at hs
      exact absurd hbusy (not_or.mpr ⟨not_not.mpr hr, not_not.mpr hs⟩)
  have htaken := hmoves.yield _ (hmoves.remove .pd .out h)
  refine ⟨?_, hmoves.sendFrom .pd (fun c t ht => by rw [(hrefused c t ht).2]; exact ht) h⟩
  rw [relayStep3_eq]
  rcases sendFrom_split P .pd (irqSend P) s with ⟨-, e⟩ | ⟨c, -, hok, -⟩ | ⟨c, -, -, e⟩
  · rw [e]
  · exact absurd hok (hrefused c _ htaken).1
  · rw [e]

/-- Steps 4 and 5 while only the computer moves. -/
theorem PdKept.rest {P : Params} {x : PortState} {s3 s4 t : State} {b4 b5 : Bool} (h : PdKept x s3)
    (e4 : relayStep4 P s3 = (b4, s4)) (e5 : tmoService s4 = (b5, t)) : b5 = false ∧ PdKept x t := by
  have hmoves := PdKept.relayMoves P x
  have h4 : PdKept x (relayStep4 P s3).2 := hmoves.yield _ (hmoves.move h)
  rw [e4] at h4
  rw [tmoService_no_tick h4.tickFlag] at e5
  obtain ⟨rfl, rfl⟩ := Prod.mk.inj e5
  exact ⟨rfl, h4⟩

/-! ### A presented byte -/

/-- A computer that presents a byte is the only one to move. -/
theorem computerOnly_presentBits {s : State} {bits : List Bool} (hs : s.sched = presentBits bits)
    (hpend : s.edgePend = false) (htick : s.tickFlag = false) : ComputerOnly s := by
  refine ⟨fun u hu => ?_, hpend, htick⟩
  rw [hs, presentBits_eq, List.mem_append, List.mem_flatMap] at hu
  rcases hu with hu | ⟨b, -, hu⟩
  · exact .inl (List.eq_of_mem_replicate hu)
  · simp only [presentBit, List.mem_cons, List.not_mem_nil, or_false] at hu
    rcases hu with h | h | h | h | h | h | h | h
    case inr.inr.inr.inr.inl => exact .inr ⟨true, b, h⟩
    all_goals exact .inl h

/-- A receive of a presented byte. -/
theorem stRecv_byte {P : Params} {s : State} (d : Byte) (hmax : 10 ≤ P.nRecvMax)
    (hs : s.sched = presentBits ((wireFrame d).drop 1)) (hreleased : phDriversReleased s) (hclk : s.ph.extClk = true)
    (hlow : s.ph.extData = false) :
    (stRecv P s).2 = ⟨.ok, false, zext16 d⟩ ∧ (stRecv P s).1.ph.lastErr = s.ph.lastErr := by
  obtain ⟨u, hu, hat, -, -, -, hacc⟩ := stRecv_presented P (wireFrame_group_length d (oddParity d)) hmax hreleased hclk
    hlow (by rw [hs]; rfl)
  rw [storeBits_group] at hacc
  obtain ⟨-, -, hodd, -⟩ := stStopOk_out P hat.clk (hat.data.trans hreleased.2)
  rw [hacc, extract_group, hat.err, ← hu] at hodd
  obtain ⟨hr, herr, -⟩ := hodd ((parityCheckAcceptsEncoderBit d (oddParity d)).2.mpr rfl)
  exact ⟨hr, herr⟩

/-- Step 1 before a computer that presents a byte, with room in PD.OUT (R207). -/
theorem relayStep1_presented {P : Params} {s : State} (d : Byte) (hmax : 10 ≤ P.nRecvMax)
    (hs : s.sched = presentBits ((wireFrame d).drop 1)) (hreleased : phDriversReleased s) (hclk : s.ph.extClk = true)
    (hlow : s.ph.extData = false) (hpend : s.edgePend = false) (htick : s.tickFlag = false)
    (hroom : s.pd.qOut.count ≠ P.rbCap) :
    receivedBy P s = [d] ∧ PdKept s.pd (relayStep1 P s).2 ∧ (relayStep1 P s).2.ph.lastErr = s.ph.lastErr := by
  obtain ⟨hr, herr⟩ := stRecv_byte (P := P) d hmax hs hreleased hclk hlow
  have hself : PdKept s.pd s := ⟨computerOnly_presentBits hs hpend htick, rfl, rfl⟩
  refine ⟨?_, (PdKept.relayMoves P s.pd).step1 ((PdKept.microKeeps P s.pd).recv hself) hself,
    (relayTail_phErr P s.ph.lastErr).step1 herr rfl⟩
  rw [receivedBy, hr, if_pos ⟨hroom, rfl⟩, zext16, BitVec.setWidth_setWidth_of_le _ (by decide), BitVec.setWidth_eq]

/-- An empty PD.IN stays empty when only the computer moves. -/
theorem unclocked_of_computerOnly {s : State} (h : ComputerOnly s) : Unclocked s := by
  refine ⟨h.edgePend, fun u hu c d heq => ?_⟩
  rcases h.sched u hu with hc | ⟨c', d', hc⟩ <;> rw [heq] at hc <;> cases hc

/-- The first half of O55. -/
theorem relayStep_presented {s : State} {d : Byte} (hinv : BlockInv s) (hs : s.sched = presentBits ((wireFrame d).drop 1))
    (hclk : s.ph.extClk = true) (hlow : s.ph.extData = false) (htick : s.tickFlag = false) (hpend : s.edgePend = false)
    (hroom : (fifo .pd .out s).length < s.params.rbCap) (hout : fifo .ph .out s = []) (hin : fifo .pd .inq s = []) :
    ∃ t, exec .relayStep s = .next t ∧ t.log = s.log ++ [⟨.c2p, d⟩] ∧ fifo .ph .out t = [] ∧ fifo .pd .inq t = [] ∧
      t.ph.lastErr = s.ph.lastErr ∧
      (pdPhase s = .idle → ∀ v l, fifo .pd .out s ++ [d] = v :: l →
        t.res = 5 ∧ fifo .pd .out t = l ∧ t.pd.sendShift = irqPattern v) ∧
      (pdPhase s ≠ .idle → t.res = 1 ∧ fifo .pd .out t = fifo .pd .out s ++ [d] ∧
        t.pd.sendShift = s.pd.sendShift ∧ t.pd.recvShift = s.pd.recvShift) := by
  obtain ⟨hunit, hrest⟩ := blockInv_iff.mp hinv
  have hrings := ringsOk_of_blockInv hinv
  obtain ⟨hbyte, hkept1, herr1⟩ := relayStep1_presented (P := s.params) d (nRecvMax_of_wellFormed hunit.paramsWf) hs
    hrest.phReleased hclk hlow hpend htick ((room_iff hrings).mp hroom)
  obtain ⟨s1, s2, s3, s4, t, b1, b2, b3, b4, b5, b, R⟩ := relay_runs hrings
  have hlen := R.received
  have h1 := R.first
  have hall := R.whole
  rw [R.step1] at hkept1 herr1
  rw [hbyte] at hlen h1 hall
  obtain rfl : b1 = true := by cases b1 with
    | false => cases hlen
    | true => rfl
  have hempty1 : fifo .ph .out s1 = [] := by rw [h1.phOut, hout]; rfl
  obtain ⟨rfl, rfl⟩ : false = b2 ∧ yieldTurn s.params s1 = s2 :=
    Prod.mk.inj ((sendFrom_empty (send := stSend s.params) hempty1).symm.trans R.step2)
  have hkept2 := hkept1.yield s.params
  have hout2 : fifo .pd .out (yieldTurn s.params s1) = fifo .pd .out s ++ [d] :=
    (((Carries.yield s.params s1).track R.rings1).pdOut.trans (List.append_nil _)).trans h1.pdOut
  obtain ⟨rcv, hinEq, hno⟩ := hall.pdIn
  rw [hin, hno (.inr (unclocked_of_computerOnly (computerOnly_presentBits hs hpend htick)))] at hinEq
  obtain ⟨rfl, hin'⟩ : b = [] ∧ fifo .pd .inq t = [] := List.append_eq_nil_iff.mp hinEq.symm
  have hlen' := R.moved
  obtain rfl : b4 = false := by cases b4 with
    | false => rfl
    | true => cases hlen'
  obtain ⟨herr, -⟩ := R.rest_ph
  have herr2 : (yieldTurn s.params s1).ph.lastErr = s.ph.lastErr := (yieldTurn_frame s.params s1).phOut.2.2.trans herr1
  refine ⟨_, R.exec, hall.log, ?_, ?_, herr.trans herr2,
    fun hidle v l hfifo => ?_, fun hbusy => ?_⟩
  · rw [fifo_writeRes, hall.phOut, hout]
    rfl
  · rw [fifo_writeRes, hin']
  · obtain ⟨hrecv, hsend⟩ := (pdPhase_idle_iff s).mp hidle
    obtain ⟨hb3, hkept3⟩ := hkept2.step3_arms (P := s.params) R.rings2 (hout2.trans hfifo) hrecv hsend
    rw [R.step3] at hb3 hkept3
    obtain rfl : b3 = true := hb3
    obtain ⟨rfl, hkept⟩ := hkept3.rest R.step4 R.step5
    refine ⟨(writeRes_res ..).trans (by decide), ?_, hkept.send⟩
    rw [fifo_writeRes, hall.pdOut, hfifo]
    rfl
  · have hnotIdle : s.pd.recvShift ≠ 0 ∨ s.pd.sendShift ≠ 0 := by
      by_contra hnot
      obtain ⟨hrecv, hsend⟩ := not_or.mp hnot
      exact hbusy ((pdPhase_idle_iff s).mpr ⟨not_not.mp hrecv, not_not.mp hsend⟩)
    obtain ⟨hb3, hkept3⟩ := hkept2.step3_refused (P := s.params) hnotIdle
    rw [R.step3] at hb3 hkept3
    obtain rfl : b3 = false := hb3
    obtain ⟨rfl, hkept⟩ := hkept3.rest R.step4 R.step5
    refine ⟨(writeRes_res ..).trans (by decide), ?_, hkept.send, hkept.recv⟩
    rw [fifo_writeRes, hall.pdOut]
    rfl

/-- Settles O55: a presented byte, and a computer that asks and presents nothing. -/
theorem relayStepForwardsComputerByte : Obligations.RelayStepForwardsComputerByte := by
  refine ⟨fun s d hinv hs hclk hlow htick hpend hroom hout hin =>
    relayStep_presented hinv hs hclk hlow htick hpend hroom hout hin, ?_⟩
  intro s hinv hs hclk hlow hout
  obtain ⟨-, hrest⟩ := blockInv_iff.mp hinv
  have hrings := ringsOk_of_blockInv hinv
  obtain ⟨s1, s2, s3, s4, t, b1, b2, b3, b4, b5, b, R⟩ := relay_runs hrings
  obtain ⟨s1', hstep1, -, hfull, hroom⟩ := relayStep1_asked s.params hs hrest.phReleased hclk hlow
  obtain ⟨hb1, rfl⟩ := Prod.mk.inj (R.step1.symm.trans hstep1)
  have hempty1 : fifo .ph .out s1 = [] := by rw [R.first.phOut, hout]; rfl
  have hall := R.whole
  obtain ⟨hb2, hs2⟩ := Prod.mk.inj (R.step2.symm.trans (sendFrom_empty (send := stSend s.params) hempty1))
  have herr2 : s2.ph.lastErr = s1.ph.lastErr := by rw [hs2]; exact (yieldTurn_frame s.params s1).phOut.2.2
  have htrace2 : phTrace s2 = phTrace s1 := by rw [hs2]; exact phTrace_yieldTurn s.params s1
  obtain ⟨herr, htrace⟩ := R.rest_ph
  obtain ⟨hm0, hm1, hm2, -, -, -⟩ := relayBits b1 b2 b3 b4 b5
  rw [receivedBy_nil R.received hb1] at hall
  refine ⟨_, _, b, R.exec, rfl, ?_⟩
  simp only [fifo_writeRes, writeRes_res, resValue_packRes, hm0, hm1, hm2, phTrace_writeRes, writeRes_ph, writeRes_log]
  refine ⟨hb1, hb2, hall.pdOut.trans (by rw [List.append_nil]), hall.log, fun hcap => ?_, fun hlt => ?_⟩
  · rw [fifo_length] at hcap
    rw [herr, herr2, htrace, htrace2, hfull hcap]
    exact ⟨rfl, rfl⟩
  · obtain ⟨herr1, htrace1⟩ := hroom ((room_iff hrings).mp hlt)
    rw [herr, herr2, htrace, htrace2, htrace1]
    exact ⟨herr1, rfl⟩

end Sys2Proof.Machine
end
